-- ==== Sys2Proof/Word.lean ====
section
/-! DEFINITION. The word types: a byte (20_memory.md R71), and the 16-, 32- and 64-bit values that registers,
offsets and addresses under computation are held in. -/

namespace Sys2Proof

abbrev Byte := BitVec 8
abbrev Half := BitVec 16
abbrev Dword := BitVec 32
abbrev Word := BitVec 64

end Sys2Proof
end

