-- ==== Sys2Proof/Syntax.lean ====
section
/-! DEFINITION. The decoded instructions: operands as names, one constructor of `Instr` for each of the 45 rows of
30_encoding.md R130 and R131. An instruction keeps its prefix bytes and the shape of its addressing form, so that its
length (R137) and its encoding follow from it. -/

namespace Sys2Proof

/-- General registers by their 64-bit names, in the order of their numbers (10_state.md R21). -/
inductive Gpr where
  | rax | rcx | rdx | rbx | rsp | rbp | rsi | rdi
  | r8 | r9 | r10 | r11 | r12 | r13 | r14 | r15
  deriving DecidableEq, Repr

/-- The six segment registers, in the order of their numbers (10_state.md R30, R31). -/
inductive Sreg where
  | es | cs | ss | ds | fs | gs
  deriving DecidableEq, Repr

/-- What the reg field of opcodes 8C and 8E names: a segment register, or number 6 or 7, which name none
(41_mov_sreg.md R209). -/
inductive SregField where
  | reg (s : Sreg)
  | num6
  | num7
  deriving DecidableEq, Repr

/-- Control-register numbers 0 to 7 (rows 36, 37, 39, 40); not every one names a register (42_mov_cr.md R243). -/
inductive CrNum where
  | cr0 | cr1 | cr2 | cr3 | cr4 | cr5 | cr6 | cr7
  deriving DecidableEq, Repr

/-- Control-register numbers 8 to 15, reached with REX.R (rows 38, 41); only 8 names a register (42_mov_cr.md R243). -/
inductive CrHigh where
  | cr8 | cr9 | cr10 | cr11 | cr12 | cr13 | cr14 | cr15
  deriving DecidableEq, Repr

/-- Debug-register numbers 0 to 7 (43_mov_dr.md R291). -/
inductive DrNum where
  | dr0 | dr1 | dr2 | dr3 | dr4 | dr5 | dr6 | dr7
  deriving DecidableEq, Repr

/-- The four flags of a REX prefix (30_encoding.md R113). -/
structure Rex where
  w : Bool
  r : Bool
  x : Bool
  b : Bool
  deriving DecidableEq, Repr

/-- One prefix byte before the REX prefix (30_encoding.md R111, R112). `staleRex` is a byte 40h to 4Fh that another
prefix follows, which is ignored. -/
inductive LegacyPfx where
  | opSize
  | addrSize
  | lock
  | seg (s : Sreg)
  | staleRex (r : Rex)
  deriving DecidableEq, Repr

/-- The prefixes of an instruction, in the order they stand (30_encoding.md R110). -/
structure Pfx where
  legacy : List LegacyPfx
  rex : Option Rex
  deriving DecidableEq, Repr

/-- The base of a 16-bit addressing form, by r/m 0 to 7 (30_encoding.md R118). -/
inductive Base16 where
  | bxSi | bxDi | bpSi | bpDi | si | di | bp | bx
  deriving DecidableEq, Repr

/-- A displacement: none (mod 0), one byte (mod 1) or `w` bits (mod 2) (30_encoding.md R122). -/
inductive Disp (w : Nat) where
  | none
  | d8 (v : Byte)
  | full (v : BitVec w)
  deriving DecidableEq, Repr

/-- A memory operand of a ModR/M byte (30_encoding.md R118 to R121). -/
inductive MemOp where
  /-- 16-bit addressing, a base of the table. -/
  | based16 (b : Base16) (d : Disp 16)
  /-- 16-bit addressing, disp16 alone. -/
  | abs16 (d : Half)
  /-- A base register and no SIB byte. -/
  | based (r : Gpr) (d : Disp 32)
  /-- A SIB byte with a base register; the scale is kept where there is no index too. -/
  | sib (scale : BitVec 2) (index : Option Gpr) (base : Gpr) (d : Disp 32)
  /-- A SIB byte without a base register: disp32 in its place. -/
  | sibNoBase (scale : BitVec 2) (index : Option Gpr) (d : Dword)
  /-- disp32 alone, outside LONG64. -/
  | abs32 (d : Dword)
  /-- Instruction-pointer relative, in LONG64. -/
  | rip (d : Dword)
  deriving DecidableEq, Repr

/-- The r/m operand: a general register (mod 3) or memory (30_encoding.md R117 to R121). -/
inductive RmOp where
  | reg (r : Gpr)
  | mem (m : MemOp)
  deriving DecidableEq, Repr

/-- A `moffs` offset, of the width of the address-size attribute (30_encoding.md R127). -/
inductive Moffs where
  | m16 (v : Half)
  | m32 (v : Dword)
  | m64 (v : Word)
  deriving DecidableEq, Repr

/-- What the decoder needs of the machine (30_encoding.md R123, R124): whether the mode is LONG64, and the default
size outside it. -/
structure DecodeEnv where
  long64 : Bool
  default32 : Bool
  deriving DecidableEq, Repr

/-- The operand-size attribute of a row that is not a byte row (30_encoding.md R123). -/
inductive OpSize where
  | o16 | o32 | o64
  deriving DecidableEq, Repr

/-- The address-size attribute (30_encoding.md R124). -/
inductive AddrSize where
  | a16 | a32 | a64
  deriving DecidableEq, Repr

/-- Why bytes are not a MOV of this spec (30_encoding.md R135, R137; 92 D17). -/
inductive Reject where
  /-- More bytes are needed than were given. -/
  | truncated
  /-- A one-byte opcode outside R114 (the bytes 40h to 4Fh outside LONG64 among them). -/
  | opcode (b : Byte)
  /-- 0Fh and a second byte outside R114. -/
  | opcode0F (b : Byte)
  /-- An F2h or F3h prefix. -/
  | repeatPfx (b : Byte)
  /-- C6 or C7 with a reg field other than 0. -/
  | groupReg (reg : BitVec 3)
  /-- More than 15 bytes. -/
  | tooLong
  deriving DecidableEq, Repr

/-- The 45 rows, in the order of the table (30_encoding.md R130, R131). `p` is always the prefixes; the row of a
constructor stands in its comment. In the control- and debug-register rows `m` is the ignored mod field (R117). -/
inductive Instr where
  /-- Row 1: MOV r/m8, r8. -/
  | movRm8R8 (p : Pfx) (rm : RmOp) (g : Gpr)
  /-- Row 2: MOV r/m8, r8 with REX. -/
  | movRm8R8Rex (p : Pfx) (rm : RmOp) (g : Gpr)
  /-- Row 3: MOV r/m16, r16. -/
  | movRm16R16 (p : Pfx) (rm : RmOp) (g : Gpr)
  /-- Row 4: MOV r/m32, r32. -/
  | movRm32R32 (p : Pfx) (rm : RmOp) (g : Gpr)
  /-- Row 5: MOV r/m64, r64. -/
  | movRm64R64 (p : Pfx) (rm : RmOp) (g : Gpr)
  /-- Row 6: MOV r8, r/m8. -/
  | movR8Rm8 (p : Pfx) (g : Gpr) (rm : RmOp)
  /-- Row 7: MOV r8, r/m8 with REX. -/
  | movR8Rm8Rex (p : Pfx) (g : Gpr) (rm : RmOp)
  /-- Row 8: MOV r16, r/m16. -/
  | movR16Rm16 (p : Pfx) (g : Gpr) (rm : RmOp)
  /-- Row 9: MOV r32, r/m32. -/
  | movR32Rm32 (p : Pfx) (g : Gpr) (rm : RmOp)
  /-- Row 10: MOV r64, r/m64. -/
  | movR64Rm64 (p : Pfx) (g : Gpr) (rm : RmOp)
  /-- Row 11: MOV r/m16, Sreg. -/
  | movRm16Sreg (p : Pfx) (rm : RmOp) (f : SregField)
  /-- Row 12: MOV r16/r32/m16, Sreg, at operand size 32. -/
  | movR32M16Sreg (p : Pfx) (rm : RmOp) (f : SregField)
  /-- Row 13: MOV r64/m16, Sreg. -/
  | movR64M16Sreg (p : Pfx) (rm : RmOp) (f : SregField)
  /-- Row 14: MOV Sreg, r/m16. -/
  | movSregRm16 (p : Pfx) (f : SregField) (rm : RmOp)
  /-- Row 15: MOV Sreg, r/m64. -/
  | movSregRm64 (p : Pfx) (f : SregField) (rm : RmOp)
  /-- Row 16: MOV AL, moffs8. -/
  | movAlMoffs8 (p : Pfx) (o : Moffs)
  /-- Row 17: MOV AL, moffs8 with REX.W. -/
  | movAlMoffs8RexW (p : Pfx) (o : Moffs)
  /-- Row 18: MOV AX, moffs16. -/
  | movAxMoffs16 (p : Pfx) (o : Moffs)
  /-- Row 19: MOV EAX, moffs32. -/
  | movEaxMoffs32 (p : Pfx) (o : Moffs)
  /-- Row 20: MOV RAX, moffs64. -/
  | movRaxMoffs64 (p : Pfx) (o : Moffs)
  /-- Row 21: MOV moffs8, AL. -/
  | movMoffs8Al (p : Pfx) (o : Moffs)
  /-- Row 22: MOV moffs8, AL with REX.W. -/
  | movMoffs8AlRexW (p : Pfx) (o : Moffs)
  /-- Row 23: MOV moffs16, AX. -/
  | movMoffs16Ax (p : Pfx) (o : Moffs)
  /-- Row 24: MOV moffs32, EAX. -/
  | movMoffs32Eax (p : Pfx) (o : Moffs)
  /-- Row 25: MOV moffs64, RAX. -/
  | movMoffs64Rax (p : Pfx) (o : Moffs)
  /-- Row 26: MOV r8, imm8. -/
  | movR8Imm8 (p : Pfx) (g : Gpr) (imm : Byte)
  /-- Row 27: MOV r8, imm8 with REX. -/
  | movR8Imm8Rex (p : Pfx) (g : Gpr) (imm : Byte)
  /-- Row 28: MOV r16, imm16. -/
  | movR16Imm16 (p : Pfx) (g : Gpr) (imm : Half)
  /-- Row 29: MOV r32, imm32. -/
  | movR32Imm32 (p : Pfx) (g : Gpr) (imm : Dword)
  /-- Row 30: MOV r64, imm64. -/
  | movR64Imm64 (p : Pfx) (g : Gpr) (imm : Word)
  /-- Row 31: MOV r/m8, imm8. -/
  | movRm8Imm8 (p : Pfx) (rm : RmOp) (imm : Byte)
  /-- Row 32: MOV r/m8, imm8 with REX. -/
  | movRm8Imm8Rex (p : Pfx) (rm : RmOp) (imm : Byte)
  /-- Row 33: MOV r/m16, imm16. -/
  | movRm16Imm16 (p : Pfx) (rm : RmOp) (imm : Half)
  /-- Row 34: MOV r/m32, imm32. -/
  | movRm32Imm32 (p : Pfx) (rm : RmOp) (imm : Dword)
  /-- Row 35: MOV r/m64, imm32. -/
  | movRm64Imm32 (p : Pfx) (rm : RmOp) (imm : Dword)
  /-- Row 36: MOV r32, CR0-CR7. -/
  | movR32Cr (p : Pfx) (m : BitVec 2) (g : Gpr) (c : CrNum)
  /-- Row 37: MOV r64, CR0-CR7. -/
  | movR64Cr (p : Pfx) (m : BitVec 2) (g : Gpr) (c : CrNum)
  /-- Row 38: MOV r64, CR8. -/
  | movR64Cr8 (p : Pfx) (m : BitVec 2) (g : Gpr) (c : CrHigh)
  /-- Row 39: MOV CR0-CR7, r32. -/
  | movCrR32 (p : Pfx) (m : BitVec 2) (c : CrNum) (g : Gpr)
  /-- Row 40: MOV CR0-CR7, r64. -/
  | movCrR64 (p : Pfx) (m : BitVec 2) (c : CrNum) (g : Gpr)
  /-- Row 41: MOV CR8, r64. -/
  | movCr8R64 (p : Pfx) (m : BitVec 2) (c : CrHigh) (g : Gpr)
  /-- Row 42: MOV r32, DR0-DR7. -/
  | movR32Dr (p : Pfx) (m : BitVec 2) (g : Gpr) (d : DrNum)
  /-- Row 43: MOV r64, DR0-DR7. -/
  | movR64Dr (p : Pfx) (m : BitVec 2) (g : Gpr) (d : DrNum)
  /-- Row 44: MOV DR0-DR7, r32. -/
  | movDrR32 (p : Pfx) (m : BitVec 2) (d : DrNum) (g : Gpr)
  /-- Row 45: MOV DR0-DR7, r64. -/
  | movDrR64 (p : Pfx) (m : BitVec 2) (d : DrNum) (g : Gpr)
  deriving DecidableEq, Repr

end Sys2Proof
end

