-- ==== Sys2Proof/Decode.lean ====
section
/-! DEFINITION. The decoder, total on any bytes and rejecting by name (30_encoding.md R110 to R141), and after it the
encoder and the length of an instruction, from the same encoding rules. -/

namespace Sys2Proof

/-! ### Numbers and names (10_state.md R21, R31; 42_mov_cr.md R241; 43_mov_dr.md R291) -/

/-- The number of a general register (10_state.md R21). -/
def Gpr.num : Gpr → BitVec 4
  | .rax => 0#4 | .rcx => 1#4 | .rdx => 2#4 | .rbx => 3#4
  | .rsp => 4#4 | .rbp => 5#4 | .rsi => 6#4 | .rdi => 7#4
  | .r8 => 8#4 | .r9 => 9#4 | .r10 => 10#4 | .r11 => 11#4
  | .r12 => 12#4 | .r13 => 13#4 | .r14 => 14#4 | .r15 => 15#4

/-- The general register of a number (10_state.md R21). -/
def Gpr.ofNum (n : BitVec 4) : Gpr :=
  match n.toNat with
  | 0 => .rax | 1 => .rcx | 2 => .rdx | 3 => .rbx
  | 4 => .rsp | 5 => .rbp | 6 => .rsi | 7 => .rdi
  | 8 => .r8 | 9 => .r9 | 10 => .r10 | 11 => .r11
  | 12 => .r12 | 13 => .r13 | 14 => .r14 | _ => .r15

/-- The low three bits of a register's number: what a field of the instruction holds (10_state.md R26). -/
def Gpr.lo (r : Gpr) : BitVec 3 := r.num.extractLsb' 0 3

/-- The fourth bit of a register's number: what REX.R, REX.X or REX.B holds (10_state.md R26). -/
def Gpr.hi (r : Gpr) : Bool := r.num.getLsbD 3

/-- The register of a REX bit and a three-bit field (10_state.md R26). -/
def Gpr.of (hi : Bool) (lo : BitVec 3) : Gpr := Gpr.ofNum (BitVec.ofBool hi ++ lo)

/-- The segment register of a reg field (10_state.md R31; 41_mov_sreg.md R209). -/
def SregField.ofNum (n : BitVec 3) : SregField :=
  match n.toNat with
  | 0 => .reg .es | 1 => .reg .cs | 2 => .reg .ss
  | 3 => .reg .ds | 4 => .reg .fs | 5 => .reg .gs
  | 6 => .num6 | _ => .num7

/-- The reg field of a segment register (10_state.md R31). -/
def SregField.num : SregField → BitVec 3
  | .reg .es => 0#3 | .reg .cs => 1#3 | .reg .ss => 2#3
  | .reg .ds => 3#3 | .reg .fs => 4#3 | .reg .gs => 5#3
  | .num6 => 6#3 | .num7 => 7#3

/-- The control register number of a reg field, REX.R clear (42_mov_cr.md R241). -/
def CrNum.ofNum (n : BitVec 3) : CrNum :=
  match n.toNat with
  | 0 => .cr0 | 1 => .cr1 | 2 => .cr2 | 3 => .cr3
  | 4 => .cr4 | 5 => .cr5 | 6 => .cr6 | _ => .cr7

/-- The reg field of a control register number 0 to 7. -/
def CrNum.num : CrNum → BitVec 3
  | .cr0 => 0#3 | .cr1 => 1#3 | .cr2 => 2#3 | .cr3 => 3#3
  | .cr4 => 4#3 | .cr5 => 5#3 | .cr6 => 6#3 | .cr7 => 7#3

/-- The control register number of a reg field, REX.R set (42_mov_cr.md R241). -/
def CrHigh.ofNum (n : BitVec 3) : CrHigh :=
  match n.toNat with
  | 0 => .cr8 | 1 => .cr9 | 2 => .cr10 | 3 => .cr11
  | 4 => .cr12 | 5 => .cr13 | 6 => .cr14 | _ => .cr15

/-- The reg field of a control register number 8 to 15. -/
def CrHigh.num : CrHigh → BitVec 3
  | .cr8 => 0#3 | .cr9 => 1#3 | .cr10 => 2#3 | .cr11 => 3#3
  | .cr12 => 4#3 | .cr13 => 5#3 | .cr14 => 6#3 | .cr15 => 7#3

/-- The debug register number of a reg field (43_mov_dr.md R291). -/
def DrNum.ofNum (n : BitVec 3) : DrNum :=
  match n.toNat with
  | 0 => .dr0 | 1 => .dr1 | 2 => .dr2 | 3 => .dr3
  | 4 => .dr4 | 5 => .dr5 | 6 => .dr6 | _ => .dr7

/-- The reg field of a debug register number. -/
def DrNum.num : DrNum → BitVec 3
  | .dr0 => 0#3 | .dr1 => 1#3 | .dr2 => 2#3 | .dr3 => 3#3
  | .dr4 => 4#3 | .dr5 => 5#3 | .dr6 => 6#3 | .dr7 => 7#3

/-- The r/m field of a 16-bit base (30_encoding.md R118). -/
def Base16.num : Base16 → BitVec 3
  | .bxSi => 0#3 | .bxDi => 1#3 | .bpSi => 2#3 | .bpDi => 3#3
  | .si => 4#3 | .di => 5#3 | .bp => 6#3 | .bx => 7#3

/-- The 16-bit base of an r/m field (30_encoding.md R118). -/
def Base16.ofNum (n : BitVec 3) : Base16 :=
  match n.toNat with
  | 0 => .bxSi | 1 => .bxDi | 2 => .bpSi | 3 => .bpDi
  | 4 => .si | 5 => .di | 6 => .bp | _ => .bx

/-! ### Prefixes (30_encoding.md R111 to R113) -/

/-- REX is the byte `0100WRXB` (30_encoding.md R113). -/
def Rex.byte (x : Rex) : Byte :=
  4#4 ++ BitVec.ofBool x.w ++ BitVec.ofBool x.r ++ BitVec.ofBool x.x ++ BitVec.ofBool x.b

/-- Is the byte in 40h to 4Fh (30_encoding.md R113)? -/
def isRexByte (b : Byte) : Bool := b.extractLsb' 4 4 == 4#4

/-- The flags of a REX byte (30_encoding.md R113). -/
def Rex.ofByte (b : Byte) : Rex where
  w := b.getLsbD 3
  r := b.getLsbD 2
  x := b.getLsbD 1
  b := b.getLsbD 0

/-- A legacy prefix byte (30_encoding.md R111). -/
def legacyOfByte (b : Byte) : Option LegacyPfx :=
  match b.toNat with
  | 0x66 => some .opSize
  | 0x67 => some .addrSize
  | 0xF0 => some .lock
  | 0x26 => some (.seg .es)
  | 0x2E => some (.seg .cs)
  | 0x36 => some (.seg .ss)
  | 0x3E => some (.seg .ds)
  | 0x64 => some (.seg .fs)
  | 0x65 => some (.seg .gs)
  | _ => none

/-- The byte of a legacy prefix (30_encoding.md R111), or of an ignored REX byte (R112). -/
def LegacyPfx.byte : LegacyPfx → Byte
  | .opSize => 0x66#8
  | .addrSize => 0x67#8
  | .lock => 0xF0#8
  | .seg .es => 0x26#8
  | .seg .cs => 0x2E#8
  | .seg .ss => 0x36#8
  | .seg .ds => 0x3E#8
  | .seg .fs => 0x64#8
  | .seg .gs => 0x65#8
  | .staleRex r => r.byte

/-- Does the byte begin, or is it, a further prefix (30_encoding.md R112)? F2h and F3h are prefixes too; an
instruction that carries one is refused (R135). -/
def isPrefixByte (b : Byte) : Bool :=
  (legacyOfByte b).isSome || isRexByte b || b == 0xF2#8 || b == 0xF3#8

/-- Is the next byte a prefix? -/
def nextIsPrefix : List Byte → Bool
  | [] => false
  | b :: _ => isPrefixByte b

/-- Take the prefixes off (30_encoding.md R141 (1), (2)). In LONG64 a byte 40h to 4Fh is the REX prefix if no other
prefix follows it and is ignored if one does (R112); elsewhere it is no prefix (R113). -/
def takePfx (long64 : Bool) : List Byte → Pfx × List Byte
  | [] => ({ legacy := [], rex := none }, [])
  | b :: rest =>
    match legacyOfByte b with
    | some l =>
      let r := takePfx long64 rest
      ({ r.1 with legacy := l :: r.1.legacy }, r.2)
    | none =>
      if long64 && isRexByte b then
        if nextIsPrefix rest then
          let r := takePfx long64 rest
          ({ r.1 with legacy := .staleRex (Rex.ofByte b) :: r.1.legacy }, r.2)
        else ({ legacy := [], rex := some (Rex.ofByte b) }, rest)
      else ({ legacy := [], rex := none }, b :: rest)

def Pfx.has (p : Pfx) (l : LegacyPfx) : Bool := p.legacy.contains l

/-- Is there a LOCK prefix (20_memory.md R89)? -/
def Pfx.locked (p : Pfx) : Bool := p.has .lock

/-- Is there a REX prefix (30_encoding.md R113)? -/
def Pfx.hasRex (p : Pfx) : Bool := p.rex.isSome

def Pfx.rexW (p : Pfx) : Bool := p.rex.elim false Rex.w
def Pfx.rexR (p : Pfx) : Bool := p.rex.elim false Rex.r
def Pfx.rexX (p : Pfx) : Bool := p.rex.elim false Rex.x
def Pfx.rexB (p : Pfx) : Bool := p.rex.elim false Rex.b

/-- The segment override that counts: the last one (30_encoding.md R112); in LONG64 only FS and GS overrides have an
effect (R111; log 32). -/
def Pfx.override (p : Pfx) (long64 : Bool) : Option Sreg :=
  let all := p.legacy.filterMap fun l =>
    match l with
    | .seg .fs => some .fs
    | .seg .gs => some .gs
    | .seg s => if long64 then none else some s
    | _ => none
  all.getLast?

/-- The operand-size attribute of a row that is not a byte row (30_encoding.md R123). -/
def opSize (e : DecodeEnv) (p : Pfx) : OpSize :=
  if e.long64 then
    if p.rexW then .o64 else if p.has .opSize then .o16 else .o32
  else if e.default32 != p.has .opSize then .o32 else .o16

/-- The address-size attribute (30_encoding.md R124). -/
def addrSize (e : DecodeEnv) (p : Pfx) : AddrSize :=
  if e.long64 then
    if p.has .addrSize then .a32 else .a64
  else if e.default32 != p.has .addrSize then .a32 else .a16

/-! ### Little-endian fields of the instruction (20_memory.md R72, 30_encoding.md R126) -/

def take8 : List Byte → Except Reject (Byte × List Byte)
  | b :: r => .ok (b, r)
  | [] => .error .truncated

def take16 : List Byte → Except Reject (Half × List Byte)
  | b0 :: b1 :: r => .ok (b1 ++ b0, r)
  | _ => .error .truncated

def take32 : List Byte → Except Reject (Dword × List Byte)
  | b0 :: b1 :: b2 :: b3 :: r => .ok (b3 ++ b2 ++ b1 ++ b0, r)
  | _ => .error .truncated

def take64 : List Byte → Except Reject (Word × List Byte)
  | b0 :: b1 :: b2 :: b3 :: b4 :: b5 :: b6 :: b7 :: r =>
    .ok (b7 ++ b6 ++ b5 ++ b4 ++ b3 ++ b2 ++ b1 ++ b0, r)
  | _ => .error .truncated

def bytes16 (v : Half) : List Byte := [v.extractLsb' 0 8, v.extractLsb' 8 8]

def bytes32 (v : Dword) : List Byte :=
  [v.extractLsb' 0 8, v.extractLsb' 8 8, v.extractLsb' 16 8, v.extractLsb' 24 8]

def bytes64 (v : Word) : List Byte :=
  [v.extractLsb' 0 8, v.extractLsb' 8 8, v.extractLsb' 16 8, v.extractLsb' 24 8,
   v.extractLsb' 32 8, v.extractLsb' 40 8, v.extractLsb' 48 8, v.extractLsb' 56 8]

/-! ### ModR/M, SIB and displacement (30_encoding.md R115 to R122) -/

def modField (b : Byte) : BitVec 2 := b.extractLsb' 6 2
def regField (b : Byte) : BitVec 3 := b.extractLsb' 3 3
def rmField (b : Byte) : BitVec 3 := b.extractLsb' 0 3

/-- A ModR/M byte (30_encoding.md R115); a SIB byte has the same three fields (R120). -/
def modrmByte (m : BitVec 2) (reg rm : BitVec 3) : Byte := m ++ reg ++ rm

/-- The displacement of 16-bit addressing (30_encoding.md R118). -/
def takeDisp16 (m : BitVec 2) (bs : List Byte) : Except Reject (Disp 16 × List Byte) :=
  if m = 0#2 then .ok (.none, bs)
  else if m = 1#2 then (take8 bs).map fun r => (.d8 r.1, r.2)
  else (take16 bs).map fun r => (.full r.1, r.2)

/-- The displacement of 32- and 64-bit addressing (30_encoding.md R119). -/
def takeDisp32 (m : BitVec 2) (bs : List Byte) : Except Reject (Disp 32 × List Byte) :=
  if m = 0#2 then .ok (.none, bs)
  else if m = 1#2 then (take8 bs).map fun r => (.d8 r.1, r.2)
  else (take32 bs).map fun r => (.full r.1, r.2)

/-- The memory forms of 16-bit addressing (30_encoding.md R118). -/
def takeMem16 (m : BitVec 2) (rm : BitVec 3) (bs : List Byte) : Except Reject (MemOp × List Byte) :=
  if m = 0#2 ∧ rm = 6#3 then (take16 bs).map fun r => (.abs16 r.1, r.2)
  else (takeDisp16 m bs).map fun r => (.based16 (Base16.ofNum rm) r.1, r.2)

/-- The index register of a SIB byte: none for the number 0100 (30_encoding.md R120). -/
def sibIndex (x : Bool) (idx : BitVec 3) : Option Gpr :=
  if Gpr.of x idx = .rsp then none else some (Gpr.of x idx)

/-- The forms with a SIB byte (30_encoding.md R120, R121). -/
def takeSib (p : Pfx) (m : BitVec 2) (bs : List Byte) : Except Reject (MemOp × List Byte) :=
  (take8 bs).bind fun s =>
    let scale := modField s.1
    let index := sibIndex p.rexX (regField s.1)
    if rmField s.1 = 5#3 ∧ m = 0#2 then
      (take32 s.2).map fun r => (.sibNoBase scale index r.1, r.2)
    else (takeDisp32 m s.2).map fun r => (.sib scale index (Gpr.of p.rexB (rmField s.1)) r.1, r.2)

/-- The memory forms of 32- and 64-bit addressing (30_encoding.md R119, R121). -/
def takeMem32 (e : DecodeEnv) (p : Pfx) (m : BitVec 2) (rm : BitVec 3) (bs : List Byte) :
    Except Reject (MemOp × List Byte) :=
  if rm = 4#3 then takeSib p m bs
  else if rm = 5#3 ∧ m = 0#2 then
    (take32 bs).map fun r => (if e.long64 then .rip r.1 else .abs32 r.1, r.2)
  else (takeDisp32 m bs).map fun r => (.based (Gpr.of p.rexB rm) r.1, r.2)

/-- The memory operand of a ModR/M byte, by the address-size attribute. -/
def takeMem (e : DecodeEnv) (p : Pfx) (m : BitVec 2) (rm : BitVec 3) (bs : List Byte) :
    Except Reject (MemOp × List Byte) :=
  match addrSize e p with
  | .a16 => takeMem16 m rm bs
  | _ => takeMem32 e p m rm bs

/-- A ModR/M byte with its memory operand: the reg field, the r/m operand, the rest (30_encoding.md R116, R117). -/
def takeModRm (e : DecodeEnv) (p : Pfx) (bs : List Byte) : Except Reject (BitVec 3 × RmOp × List Byte) :=
  (take8 bs).bind fun b =>
    if modField b.1 = 3#2 then .ok (regField b.1, .reg (Gpr.of p.rexB (rmField b.1)), b.2)
    else (takeMem e p (modField b.1) (rmField b.1) b.2).map fun r => (regField b.1, .mem r.1, r.2)

/-- The ModR/M byte of rows 0F 20 to 0F 23: mod, reg field and register, and nothing after it (30_encoding.md R117). -/
def takeRegRm (p : Pfx) (bs : List Byte) : Except Reject (BitVec 2 × BitVec 3 × Gpr × List Byte) :=
  (take8 bs).map fun b => (modField b.1, regField b.1, Gpr.of p.rexB (rmField b.1), b.2)

/-- The offset of rows A0 to A3 (30_encoding.md R127). -/
def takeMoffs (e : DecodeEnv) (p : Pfx) (bs : List Byte) : Except Reject (Moffs × List Byte) :=
  match addrSize e p with
  | .a16 => (take16 bs).map fun r => (.m16 r.1, r.2)
  | .a32 => (take32 bs).map fun r => (.m32 r.1, r.2)
  | .a64 => (take64 bs).map fun r => (.m64 r.1, r.2)

/-! ### The rows (30_encoding.md R130 to R132) -/

/-- Opcodes 88 and 89. -/
def decodeRmReg (e : DecodeEnv) (p : Pfx) (byteRow : Bool) (bs : List Byte) : Except Reject (Instr × List Byte) :=
  (takeModRm e p bs).map fun (reg, rm, rest) =>
    let g := Gpr.of p.rexR reg
    if byteRow then (if p.hasRex then .movRm8R8Rex p rm g else .movRm8R8 p rm g, rest)
    else match opSize e p with
      | .o16 => (.movRm16R16 p rm g, rest)
      | .o32 => (.movRm32R32 p rm g, rest)
      | .o64 => (.movRm64R64 p rm g, rest)

/-- Opcodes 8A and 8B. -/
def decodeRegRm (e : DecodeEnv) (p : Pfx) (byteRow : Bool) (bs : List Byte) : Except Reject (Instr × List Byte) :=
  (takeModRm e p bs).map fun (reg, rm, rest) =>
    let g := Gpr.of p.rexR reg
    if byteRow then (if p.hasRex then .movR8Rm8Rex p g rm else .movR8Rm8 p g rm, rest)
    else match opSize e p with
      | .o16 => (.movR16Rm16 p g rm, rest)
      | .o32 => (.movR32Rm32 p g rm, rest)
      | .o64 => (.movR64Rm64 p g rm, rest)

/-- Opcode 8C. -/
def decodeRmSreg (e : DecodeEnv) (p : Pfx) (bs : List Byte) : Except Reject (Instr × List Byte) :=
  (takeModRm e p bs).map fun (reg, rm, rest) =>
    match opSize e p with
    | .o16 => (.movRm16Sreg p rm (SregField.ofNum reg), rest)
    | .o32 => (.movR32M16Sreg p rm (SregField.ofNum reg), rest)
    | .o64 => (.movR64M16Sreg p rm (SregField.ofNum reg), rest)

/-- Opcode 8E. -/
def decodeSregRm (e : DecodeEnv) (p : Pfx) (bs : List Byte) : Except Reject (Instr × List Byte) :=
  (takeModRm e p bs).map fun (reg, rm, rest) =>
    match opSize e p with
    | .o64 => (.movSregRm64 p (SregField.ofNum reg) rm, rest)
    | _ => (.movSregRm16 p (SregField.ofNum reg) rm, rest)

/-- Opcodes A0 and A1. -/
def decodeAccMoffs (e : DecodeEnv) (p : Pfx) (byteRow : Bool) (bs : List Byte) : Except Reject (Instr × List Byte) :=
  (takeMoffs e p bs).map fun (o, rest) =>
    if byteRow then (if p.rexW then .movAlMoffs8RexW p o else .movAlMoffs8 p o, rest)
    else match opSize e p with
      | .o16 => (.movAxMoffs16 p o, rest)
      | .o32 => (.movEaxMoffs32 p o, rest)
      | .o64 => (.movRaxMoffs64 p o, rest)

/-- Opcodes A2 and A3. -/
def decodeMoffsAcc (e : DecodeEnv) (p : Pfx) (byteRow : Bool) (bs : List Byte) : Except Reject (Instr × List Byte) :=
  (takeMoffs e p bs).map fun (o, rest) =>
    if byteRow then (if p.rexW then .movMoffs8AlRexW p o else .movMoffs8Al p o, rest)
    else match opSize e p with
      | .o16 => (.movMoffs16Ax p o, rest)
      | .o32 => (.movMoffs32Eax p o, rest)
      | .o64 => (.movMoffs64Rax p o, rest)

/-- Opcodes B0 to B7, the register number in the low three bits (30_encoding.md R128). -/
def decodeReg8Imm (p : Pfx) (suffix : BitVec 3) (bs : List Byte) : Except Reject (Instr × List Byte) :=
  (take8 bs).map fun r =>
    (if p.hasRex then .movR8Imm8Rex p (Gpr.of p.rexB suffix) r.1 else .movR8Imm8 p (Gpr.of p.rexB suffix) r.1, r.2)

/-- Opcodes B8 to BF (30_encoding.md R128). -/
def decodeRegImm (e : DecodeEnv) (p : Pfx) (suffix : BitVec 3) (bs : List Byte) : Except Reject (Instr × List Byte) :=
  match opSize e p with
  | .o16 => (take16 bs).map fun r => (.movR16Imm16 p (Gpr.of p.rexB suffix) r.1, r.2)
  | .o32 => (take32 bs).map fun r => (.movR32Imm32 p (Gpr.of p.rexB suffix) r.1, r.2)
  | .o64 => (take64 bs).map fun r => (.movR64Imm64 p (Gpr.of p.rexB suffix) r.1, r.2)

/-- Opcode C6, whose reg field must be 0 (30_encoding.md R116, R135). -/
def decodeRm8Imm (e : DecodeEnv) (p : Pfx) (bs : List Byte) : Except Reject (Instr × List Byte) :=
  (takeModRm e p bs).bind fun (reg, rm, rest) =>
    if reg ≠ 0#3 then .error (.groupReg reg)
    else (take8 rest).map fun r => (if p.hasRex then .movRm8Imm8Rex p rm r.1 else .movRm8Imm8 p rm r.1, r.2)

/-- Opcode C7, whose reg field must be 0 (30_encoding.md R116, R135). -/
def decodeRmImm (e : DecodeEnv) (p : Pfx) (bs : List Byte) : Except Reject (Instr × List Byte) :=
  (takeModRm e p bs).bind fun (reg, rm, rest) =>
    if reg ≠ 0#3 then .error (.groupReg reg)
    else match opSize e p with
      | .o16 => (take16 rest).map fun r => (.movRm16Imm16 p rm r.1, r.2)
      | .o32 => (take32 rest).map fun r => (.movRm32Imm32 p rm r.1, r.2)
      | .o64 => (take32 rest).map fun r => (.movRm64Imm32 p rm r.1, r.2)

/-- Opcodes 0F 20 to 0F 23: the mode picks the 32- or the 64-bit row, REX.R the CR8 row (30_encoding.md R132). -/
def decode0F (e : DecodeEnv) (p : Pfx) (op : Byte) (bs : List Byte) : Except Reject (Instr × List Byte) :=
  if op = 0x20#8 then
    (takeRegRm p bs).map fun (m, reg, g, rest) =>
      (if e.long64 then
        (if p.rexR then .movR64Cr8 p m g (CrHigh.ofNum reg) else .movR64Cr p m g (CrNum.ofNum reg))
       else .movR32Cr p m g (CrNum.ofNum reg), rest)
  else if op = 0x22#8 then
    (takeRegRm p bs).map fun (m, reg, g, rest) =>
      (if e.long64 then
        (if p.rexR then .movCr8R64 p m (CrHigh.ofNum reg) g else .movCrR64 p m (CrNum.ofNum reg) g)
       else .movCrR32 p m (CrNum.ofNum reg) g, rest)
  else if op = 0x21#8 then
    (takeRegRm p bs).map fun (m, reg, g, rest) =>
      (if e.long64 then .movR64Dr p m g (DrNum.ofNum reg) else .movR32Dr p m g (DrNum.ofNum reg), rest)
  else if op = 0x23#8 then
    (takeRegRm p bs).map fun (m, reg, g, rest) =>
      (if e.long64 then .movDrR64 p m (DrNum.ofNum reg) g else .movDrR32 p m (DrNum.ofNum reg) g, rest)
  else .error (.opcode0F op)

/-- The opcode map of the one-byte opcodes (30_encoding.md R114, R130, R135). -/
def decodeOp (e : DecodeEnv) (p : Pfx) (op : Byte) (bs : List Byte) : Except Reject (Instr × List Byte) :=
  if op = 0x88#8 then decodeRmReg e p true bs
  else if op = 0x89#8 then decodeRmReg e p false bs
  else if op = 0x8A#8 then decodeRegRm e p true bs
  else if op = 0x8B#8 then decodeRegRm e p false bs
  else if op = 0x8C#8 then decodeRmSreg e p bs
  else if op = 0x8E#8 then decodeSregRm e p bs
  else if op = 0xA0#8 then decodeAccMoffs e p true bs
  else if op = 0xA1#8 then decodeAccMoffs e p false bs
  else if op = 0xA2#8 then decodeMoffsAcc e p true bs
  else if op = 0xA3#8 then decodeMoffsAcc e p false bs
  else if op.extractLsb' 3 5 = 0b10110#5 then decodeReg8Imm p (op.extractLsb' 0 3) bs
  else if op.extractLsb' 3 5 = 0b10111#5 then decodeRegImm e p (op.extractLsb' 0 3) bs
  else if op = 0xC6#8 then decodeRm8Imm e p bs
  else if op = 0xC7#8 then decodeRmImm e p bs
  else if op = 0x0F#8 then (take8 bs).bind fun o => decode0F e p o.1 o.2
  else if op = 0xF2#8 ∨ op = 0xF3#8 then .error (.repeatPfx op)
  else .error (.opcode op)

/-! ### Length (30_encoding.md R137) -/

def Pfx.length (p : Pfx) : Nat := p.legacy.length + (if p.rex.isSome then 1 else 0)

def dispLength {w : Nat} : Disp w → Nat
  | .none => 0
  | .d8 _ => 1
  | .full _ => w / 8

/-- SIB byte and displacement of a memory operand. -/
def memLength : MemOp → Nat
  | .based16 _ d => dispLength d
  | .abs16 _ => 2
  | .based _ d => dispLength d
  | .sib _ _ _ d => 1 + dispLength d
  | .sibNoBase _ _ _ => 5
  | .abs32 _ => 4
  | .rip _ => 4

/-- ModR/M byte and what follows it for the r/m operand. -/
def rmLength : RmOp → Nat
  | .reg _ => 1
  | .mem m => 1 + memLength m

def moffsLength : Moffs → Nat
  | .m16 _ => 2
  | .m32 _ => 4
  | .m64 _ => 8

/-- The length L of an instruction: the count of all its bytes (30_encoding.md R137). -/
def instrLength : Instr → Nat
  | .movRm8R8 p rm _ | .movRm8R8Rex p rm _ | .movRm16R16 p rm _ | .movRm32R32 p rm _ | .movRm64R64 p rm _ =>
    p.length + 1 + rmLength rm
  | .movR8Rm8 p _ rm | .movR8Rm8Rex p _ rm | .movR16Rm16 p _ rm | .movR32Rm32 p _ rm | .movR64Rm64 p _ rm =>
    p.length + 1 + rmLength rm
  | .movRm16Sreg p rm _ | .movR32M16Sreg p rm _ | .movR64M16Sreg p rm _ => p.length + 1 + rmLength rm
  | .movSregRm16 p _ rm | .movSregRm64 p _ rm => p.length + 1 + rmLength rm
  | .movAlMoffs8 p o | .movAlMoffs8RexW p o | .movAxMoffs16 p o | .movEaxMoffs32 p o | .movRaxMoffs64 p o =>
    p.length + 1 + moffsLength o
  | .movMoffs8Al p o | .movMoffs8AlRexW p o | .movMoffs16Ax p o | .movMoffs32Eax p o | .movMoffs64Rax p o =>
    p.length + 1 + moffsLength o
  | .movR8Imm8 p _ _ | .movR8Imm8Rex p _ _ => p.length + 2
  | .movR16Imm16 p _ _ => p.length + 3
  | .movR32Imm32 p _ _ => p.length + 5
  | .movR64Imm64 p _ _ => p.length + 9
  | .movRm8Imm8 p rm _ | .movRm8Imm8Rex p rm _ => p.length + 1 + rmLength rm + 1
  | .movRm16Imm16 p rm _ => p.length + 1 + rmLength rm + 2
  | .movRm32Imm32 p rm _ | .movRm64Imm32 p rm _ => p.length + 1 + rmLength rm + 4
  | .movR32Cr p _ _ _ | .movR64Cr p _ _ _ | .movR64Cr8 p _ _ _ => p.length + 3
  | .movCrR32 p _ _ _ | .movCrR64 p _ _ _ | .movCr8R64 p _ _ _ => p.length + 3
  | .movR32Dr p _ _ _ | .movR64Dr p _ _ _ | .movDrR32 p _ _ _ | .movDrR64 p _ _ _ => p.length + 3

/-- The decoding procedure of 30_encoding.md R141: the instruction the bytes begin with, and the bytes after it. An
instruction of more than 15 bytes is refused (R137). -/
def decode (e : DecodeEnv) (bs : List Byte) : Except Reject (Instr × List Byte) :=
  let t := takePfx e.long64 bs
  (take8 t.2).bind fun o =>
    (decodeOp e t.1 o.1 o.2).bind fun r =>
      if instrLength r.1 > 15 then .error .tooLong else .ok r

/-! ### The encoder -/

/-- The prefix bytes, in their order (30_encoding.md R110). -/
def Pfx.bytes (p : Pfx) : List Byte := p.legacy.map LegacyPfx.byte ++ p.rex.toList.map Rex.byte

def dispMod {w : Nat} : Disp w → BitVec 2
  | .none => 0#2
  | .d8 _ => 1#2
  | .full _ => 2#2

def disp16Bytes : Disp 16 → List Byte
  | .none => []
  | .d8 v => [v]
  | .full v => bytes16 v

def disp32Bytes : Disp 32 → List Byte
  | .none => []
  | .d8 v => [v]
  | .full v => bytes32 v

/-- The index field of a SIB byte: 100 for none (30_encoding.md R120). -/
def indexField : Option Gpr → BitVec 3
  | none => 4#3
  | some r => r.lo

/-- The ModR/M byte of a memory operand and what follows it (30_encoding.md R115 to R122). -/
def memBytes (reg : BitVec 3) : MemOp → List Byte
  | .based16 b d => modrmByte (dispMod d) reg b.num :: disp16Bytes d
  | .abs16 d => modrmByte 0#2 reg 6#3 :: bytes16 d
  | .based r d => modrmByte (dispMod d) reg r.lo :: disp32Bytes d
  | .sib sc idx b d => modrmByte (dispMod d) reg 4#3 :: modrmByte sc (indexField idx) b.lo :: disp32Bytes d
  | .sibNoBase sc idx d => modrmByte 0#2 reg 4#3 :: modrmByte sc (indexField idx) 5#3 :: bytes32 d
  | .abs32 d => modrmByte 0#2 reg 5#3 :: bytes32 d
  | .rip d => modrmByte 0#2 reg 5#3 :: bytes32 d

def rmBytes (reg : BitVec 3) : RmOp → List Byte
  | .reg r => [modrmByte 3#2 reg r.lo]
  | .mem m => memBytes reg m

def moffsBytes : Moffs → List Byte
  | .m16 v => bytes16 v
  | .m32 v => bytes32 v
  | .m64 v => bytes64 v

/-- The bytes of an instruction after its prefixes (30_encoding.md R114, R126 to R131). -/
def bodyBytes : Instr → List Byte
  | .movRm8R8 _ rm g | .movRm8R8Rex _ rm g => 0x88#8 :: rmBytes g.lo rm
  | .movRm16R16 _ rm g | .movRm32R32 _ rm g | .movRm64R64 _ rm g => 0x89#8 :: rmBytes g.lo rm
  | .movR8Rm8 _ g rm | .movR8Rm8Rex _ g rm => 0x8A#8 :: rmBytes g.lo rm
  | .movR16Rm16 _ g rm | .movR32Rm32 _ g rm | .movR64Rm64 _ g rm => 0x8B#8 :: rmBytes g.lo rm
  | .movRm16Sreg _ rm f | .movR32M16Sreg _ rm f | .movR64M16Sreg _ rm f => 0x8C#8 :: rmBytes f.num rm
  | .movSregRm16 _ f rm | .movSregRm64 _ f rm => 0x8E#8 :: rmBytes f.num rm
  | .movAlMoffs8 _ o | .movAlMoffs8RexW _ o => 0xA0#8 :: moffsBytes o
  | .movAxMoffs16 _ o | .movEaxMoffs32 _ o | .movRaxMoffs64 _ o => 0xA1#8 :: moffsBytes o
  | .movMoffs8Al _ o | .movMoffs8AlRexW _ o => 0xA2#8 :: moffsBytes o
  | .movMoffs16Ax _ o | .movMoffs32Eax _ o | .movMoffs64Rax _ o => 0xA3#8 :: moffsBytes o
  | .movR8Imm8 _ g imm | .movR8Imm8Rex _ g imm => [0b10110#5 ++ g.lo, imm]
  | .movR16Imm16 _ g imm => (0b10111#5 ++ g.lo) :: bytes16 imm
  | .movR32Imm32 _ g imm => (0b10111#5 ++ g.lo) :: bytes32 imm
  | .movR64Imm64 _ g imm => (0b10111#5 ++ g.lo) :: bytes64 imm
  | .movRm8Imm8 _ rm imm | .movRm8Imm8Rex _ rm imm => 0xC6#8 :: (rmBytes 0#3 rm ++ [imm])
  | .movRm16Imm16 _ rm imm => 0xC7#8 :: (rmBytes 0#3 rm ++ bytes16 imm)
  | .movRm32Imm32 _ rm imm | .movRm64Imm32 _ rm imm => 0xC7#8 :: (rmBytes 0#3 rm ++ bytes32 imm)
  | .movR32Cr _ m g c | .movR64Cr _ m g c => [0x0F#8, 0x20#8, modrmByte m c.num g.lo]
  | .movR64Cr8 _ m g c => [0x0F#8, 0x20#8, modrmByte m c.num g.lo]
  | .movCrR32 _ m c g | .movCrR64 _ m c g => [0x0F#8, 0x22#8, modrmByte m c.num g.lo]
  | .movCr8R64 _ m c g => [0x0F#8, 0x22#8, modrmByte m c.num g.lo]
  | .movR32Dr _ m g d | .movR64Dr _ m g d => [0x0F#8, 0x21#8, modrmByte m d.num g.lo]
  | .movDrR32 _ m d g | .movDrR64 _ m d g => [0x0F#8, 0x23#8, modrmByte m d.num g.lo]

/-- The prefixes of an instruction. -/
def instrPfx : Instr → Pfx
  | .movRm8R8 p _ _ | .movRm8R8Rex p _ _ | .movRm16R16 p _ _ | .movRm32R32 p _ _ | .movRm64R64 p _ _ => p
  | .movR8Rm8 p _ _ | .movR8Rm8Rex p _ _ | .movR16Rm16 p _ _ | .movR32Rm32 p _ _ | .movR64Rm64 p _ _ => p
  | .movRm16Sreg p _ _ | .movR32M16Sreg p _ _ | .movR64M16Sreg p _ _ => p
  | .movSregRm16 p _ _ | .movSregRm64 p _ _ => p
  | .movAlMoffs8 p _ | .movAlMoffs8RexW p _ | .movAxMoffs16 p _ | .movEaxMoffs32 p _ | .movRaxMoffs64 p _ => p
  | .movMoffs8Al p _ | .movMoffs8AlRexW p _ | .movMoffs16Ax p _ | .movMoffs32Eax p _ | .movMoffs64Rax p _ => p
  | .movR8Imm8 p _ _ | .movR8Imm8Rex p _ _ | .movR16Imm16 p _ _ | .movR32Imm32 p _ _ | .movR64Imm64 p _ _ => p
  | .movRm8Imm8 p _ _ | .movRm8Imm8Rex p _ _ | .movRm16Imm16 p _ _ | .movRm32Imm32 p _ _ => p
  | .movRm64Imm32 p _ _ => p
  | .movR32Cr p _ _ _ | .movR64Cr p _ _ _ | .movR64Cr8 p _ _ _ => p
  | .movCrR32 p _ _ _ | .movCrR64 p _ _ _ | .movCr8R64 p _ _ _ => p
  | .movR32Dr p _ _ _ | .movR64Dr p _ _ _ | .movDrR32 p _ _ _ | .movDrR64 p _ _ _ => p

/-- The bytes of an instruction, in ascending address order (30_encoding.md R110). -/
def encode (i : Instr) : List Byte := (instrPfx i).bytes ++ bodyBytes i

/-! ### Words of spec/opcode_table.json -/

/-- The `k` bytes of a number, the most significant first: 30_encoding.md R140 numbers a row's bits with the first
opcode byte most significant (log 33). -/
def bytesMsbFirst : Nat → Nat → List Byte
  | 0, _ => []
  | k + 1, w => BitVec.ofNat 8 (w / 256 ^ k) :: bytesMsbFirst k w

/-- Leave out leading bytes 0 and 1, which begin no row of 30_encoding.md R114. In some rows the reader of the table
gives bits above the encoding to a column that says a size (98_reader.md; log 33). -/
def dropColumns : List Byte → List Byte
  | [] => []
  | b :: bs => if b = 0#8 ∨ b = 1#8 then dropColumns bs else b :: bs

/-- The bytes of the instruction whose table bits are `w`, zeros after them up to 15 bytes (30_encoding.md R137). -/
def tableBytes (nbits w : Nat) : List Byte :=
  (dropColumns (bytesMsbFirst ((nbits + 7) / 8) w) ++ List.replicate 15 0#8).take 15

/-- The decoding environment right after reset: REAL mode, 16-bit defaults (10_state.md R58, 30_encoding.md R123). -/
def resetEnv : DecodeEnv := { long64 := false, default32 := false }

/-- The instruction the decoder reads from a word of the opcode table, in the state after reset (log 33). -/
def decodeTableWord (nbits w : Nat) : Option Instr :=
  match decode resetEnv (tableBytes nbits w) with
  | .ok r => some r.1
  | .error _ => none

end Sys2Proof
end

