-- ==== Sys2Proof/Config.lean ====
section
/-! DEFINITION. What an implementation fixes (the named parameters of 00_scope.md R6, held as plain data) and the
free values (`draw(N)` of R9). A parameter that the spec types as a function is a finite list of rules here: every
function on 64-bit values is one, and a state can then be written out and compared (log 5). -/

namespace Sys2Proof

/-- The control registers that exist (10_state.md R40). -/
inductive CrReg where
  | cr0 | cr2 | cr3 | cr4 | cr8
  deriving DecidableEq, Repr

/-- The debug registers that have storage (10_state.md R48, R49). -/
inductive DrReg where
  | dr0 | dr1 | dr2 | dr3 | dr6 | dr7
  deriving DecidableEq, Repr

/-- What an access to memory is for: the program's read or write (20_memory.md R83), an instruction fetch (R100),
or the processor's own read of a descriptor table (R92). DESIGN CHOICE (log 15) for the last two kinds. -/
inductive Access where
  | read | write | fetch | table
  deriving DecidableEq, Repr

/-- A set of 64-bit values: those that agree with `pat` on the bits of `mask`. -/
structure Pattern where
  mask : Word
  pat : Word
  deriving DecidableEq, Repr

/-- A part of the state that `Translate` and `PdptLoadFaults` may ask for (00_scope.md R6: both take the state): a byte
of physical memory, so a page table among them, or a register. What is left out stays the same for a whole run, or is
the inhibition (log 15). -/
inductive StatePart where
  | byte (pa : Nat)
  | gpr (r : Gpr)
  | pc
  /-- Bits 0 to 5: OF, SF, ZF, AF, PF, CF. -/
  | flags
  | ac
  | selector (r : Sreg)
  /-- 0 for a NULL segment, 1 for a descriptor, 2 for a real segment. -/
  | segKind (r : Sreg)
  | segBase (r : Sreg)
  /-- From the lowest bit: limit, type, S, DPL, P, AVL, L, D/B, G. -/
  | segAttr (r : Sreg)
  | cpl
  /-- 0 to 4: REAL, PROT, V86, COMPAT, LONG64. -/
  | mode
  | cr (r : CrReg)
  | dr (r : DrReg)
  deriving DecidableEq, Repr

/-- A condition on the state: the part agrees with the pattern or, without a pattern, is a byte that has no value. -/
structure StateCond where
  part : StatePart
  value : Option Pattern
  deriving DecidableEq, Repr

/-- What `Translate` answers for a range of linear addresses (20_memory.md R83). -/
inductive XlatTarget where
  | phys (base : Nat)
  | pageFault (code : Nat)
  deriving DecidableEq, Repr

/-- One rule of the parameter `Translate` (00_scope.md R6, 20_memory.md R83, R99; log 15): in translation epoch
`epoch`, in a state where all of `conds` hold, an access of kind `access` to the `count` linear addresses from `first`
on. -/
structure XlatRange where
  epoch : Nat
  access : Access
  first : Nat
  count : Nat
  conds : List StateCond
  target : XlatTarget
  deriving DecidableEq, Repr

/-- One rule of the parameter `PdptLoadFaults` (42_mov_cr.md R258; log 17): it is true in translation epoch `epoch`, in
a state where all of `conds` hold, for a value in `value` written to `reg`. -/
structure PdptRule where
  epoch : Nat
  conds : List StateCond
  reg : CrReg
  value : Pattern
  deriving DecidableEq, Repr

/-- One rule of the parameter `DrStored` (43_mov_dr.md R301; log 19): a value in `value` written to `reg` is stored
with the bits outside `keep` cleared and the bits of `set` set. -/
structure DrRule where
  reg : DrReg
  value : Pattern
  keep : Word
  set : Word
  deriving DecidableEq, Repr

/-- Kinds of debug exception that may be due at an instruction boundary (60_exceptions.md R322, R335; log 26). -/
inductive DebugKind where
  | breakpoint
  | singleStep
  | other (n : Nat)
  deriving DecidableEq, Repr

/-- The named parameters of 00_scope.md R6, with `hasCr4` for the processor without CR4 (93 U24). `Mode`-dependent
and state-dependent parameters that the spec gives a reference definition for (`DescLookup`, R59;
`AlignCheckEnabled`, R54) are definitions of the machine instead (log 20, log 22). -/
structure Params where
  hasIntel64 : Bool
  hasCr4 : Bool
  sregUpperZero : Bool
  cr0EtSticky : Bool
  tlbFlushOnModeBits : Bool
  cr0Reserved : Word
  cr3Reserved : Word
  cr4Reserved : Word
  cr8Reserved : Word
  /-- CR0_INVALID beyond the two combinations the source names (R252). -/
  cr0Invalid : List Pattern
  pdptFaults : List PdptRule
  drRules : List DrRule
  vaBits : Nat
  /-- SREG_LOAD_MEM_WIDTH_REXW is 8 rather than 2 (41_mov_sreg.md R207). -/
  sregLoadRexwReads8 : Bool
  /-- DEBUG_SUPPRESSED_AFTER_MOV_SS (41_mov_sreg.md R215). -/
  debugSuppressed : List DebugKind
  translate : List XlatRange
  deriving DecidableEq, Repr

/-- The values the spec suggests: 95_test_vectors.md section 1, 93 G10, 92 D15 to D25 (log 5, log 6). -/
def Params.suggested : Params where
  hasIntel64 := true
  hasCr4 := true
  sregUpperZero := true
  cr0EtSticky := true
  tlbFlushOnModeBits := true
  cr0Reserved := 0xFFFFFFFF1FFAFFC0#64
  cr3Reserved := 0xFFF0000000000000#64
  cr4Reserved := 0xFFFFFFFFFF889000#64
  cr8Reserved := 0xFFFFFFFFFFFFFFF0#64
  cr0Invalid := []
  pdptFaults := []
  drRules := []
  vaBits := 48
  sregLoadRexwReads8 := false
  debugSuppressed := []
  translate := []

/-- `draw(N)` of 00_scope.md R9: values about which nothing is known, one for each number (log 11). -/
opaque Config.draw : Nat → Word

end Sys2Proof
end

