-- ==== Sys2Proof/Machine/State.lean ====
section
/-! DEFINITION. The machine's state as plain data (10_state.md), the reasons a step can stop, and the state after
reset (10_state.md R58). -/

namespace Sys2Proof.Machine

/-- The general registers, 64 bits each (10_state.md R20). -/
structure Gprs where
  rax : Word
  rcx : Word
  rdx : Word
  rbx : Word
  rsp : Word
  rbp : Word
  rsi : Word
  rdi : Word
  r8 : Word
  r9 : Word
  r10 : Word
  r11 : Word
  r12 : Word
  r13 : Word
  r14 : Word
  r15 : Word
  deriving DecidableEq, Repr

/-- The six status flags (10_state.md R29). -/
structure Flags where
  of : Bool
  sf : Bool
  zf : Bool
  af : Bool
  pf : Bool
  cf : Bool
  deriving DecidableEq, Repr

/-- The operating modes (10_state.md R38). -/
inductive Mode where
  | real | prot | v86 | compat | long64
  deriving DecidableEq, Repr

/-- How the hidden part of a segment register came about: `NullSeg`, `Desc(d)` or `RealSeg(base)` (10_state.md R34). -/
inductive HidKind where
  | null | desc | real
  deriving DecidableEq, Repr

/-- The limit and the attributes of a descriptor (10_state.md R35, R59). -/
structure SegAttr where
  limit : BitVec 20
  typ : BitVec 4
  s : Bool
  dpl : BitVec 2
  present : Bool
  avl : Bool
  l : Bool
  db : Bool
  g : Bool
  deriving DecidableEq, Repr

/-- The hidden part of a segment register (10_state.md R32, R34; 41_mov_sreg.md R216). The base has 64 bits, for FS
and GS in LONG64 (20_memory.md R76). -/
structure Hidden where
  kind : HidKind
  base : Word
  attr : SegAttr
  deriving DecidableEq, Repr

/-- A segment register: visible selector and hidden part (10_state.md R32). -/
structure SegReg where
  sel : Half
  hid : Hidden
  deriving DecidableEq, Repr

/-- The segment registers (10_state.md R30). -/
structure Sregs where
  es : SegReg
  cs : SegReg
  ss : SegReg
  ds : SegReg
  fs : SegReg
  gs : SegReg
  deriving DecidableEq, Repr

/-- The control registers (10_state.md R40). -/
structure Crs where
  cr0 : Word
  cr2 : Word
  cr3 : Word
  cr4 : Word
  cr8 : Word
  deriving DecidableEq, Repr

/-- The debug registers with storage (10_state.md R48, R49). -/
structure Drs where
  dr0 : Word
  dr1 : Word
  dr2 : Word
  dr3 : Word
  dr6 : Word
  dr7 : Word
  deriving DecidableEq, Repr

/-- The register that locates the GDT (10_state.md R59; log 4). -/
structure Gdtr where
  base : Word
  limit : Half
  deriving DecidableEq, Repr

/-- The register that locates the LDT, if a valid LDT is loaded (10_state.md R59; log 4). -/
structure Ldtr where
  valid : Bool
  base : Word
  limit : Dword
  deriving DecidableEq, Repr

/-- What the last write of a control register did to the translation caches, as far as it is stated
(20_memory.md R99, 42_mov_cr.md R261; log 16). -/
inductive TlbEffect where
  /-- No control register has been written. -/
  | none
  /-- "In certain cases" entries are invalidated; which cases is not in the source. -/
  | someCases
  /-- CR4.PCIDE was 1 and bit 63 of the source of MOV to CR3, given here, decided. -/
  | byBit63 (bit : Bool)
  /-- All TLB entries are flushed, including global entries. -/
  | allEntries
  deriving DecidableEq, Repr

/-- What the environment may offer at an instruction boundary (60_exceptions.md R334, R335). -/
inductive Event where
  | interrupt
  | debug (kind : DebugKind)
  deriving DecidableEq, Repr

/-- Memory: the bytes that have a value, by physical address, addresses strictly rising (20_memory.md R71, R91). An
unlisted byte has no value (10_state.md R58 "n/s"; log 7), so no entry can equal what an unlisted address reads as. -/
abbrev Memory := List Host.Cell

/-- Physical addresses that exist: `count` of them from `first` on (20_memory.md R91). -/
structure MemRange where
  first : Nat
  count : Nat
  deriving DecidableEq, Repr

/-- The machine. -/
structure State where
  gpr : Gprs
  /-- The offset in CS of the current instruction (10_state.md R28). -/
  pc : Word
  flags : Flags
  /-- The AC flag, for `AlignCheckEnabled` (10_state.md R54; log 22). -/
  ac : Bool
  seg : Sregs
  /-- The current privilege level (10_state.md R37). -/
  cpl : BitVec 2
  mode : Mode
  cr : Crs
  dr : Drs
  /-- The interrupt-inhibition mark (10_state.md R53). -/
  inhibit : Bool
  gdtr : Gdtr
  ldtr : Ldtr
  mem : Memory
  /-- Which bytes of physical memory exist, as the launch memory says (20_memory.md R91, 70_reset_and_hazards.md R361);
  no step changes it (log 7). -/
  owned : List MemRange
  /-- The physical addresses a MOV has written in this run, strictly rising (20_memory.md R98; log 28). -/
  stored : List Nat
  /-- The model's own: how many free values have been used (log 11). -/
  draws : Nat
  /-- The model's own: how often `Translate` may have come to answer differently (20_memory.md R99; log 16). -/
  epoch : Nat
  /-- The model's own: the stated effect on the translation caches (log 16). -/
  tlb : TlbEffect
  /-- The run has ended by a write that changed CR0.PE, CR0.PG or CR4.PAE (42_mov_cr.md R262). -/
  modeChanged : Bool
  /-- The model's own: the environment's offers at the coming boundaries (60_exceptions.md R334; log 25). -/
  offers : List (Option Event)
  /-- The parameters of 00_scope.md R6; no step changes them (log 5). -/
  params : Params
  deriving DecidableEq, Repr

/-- The seven exception classes (60_exceptions.md R320). -/
inductive ExcClass where
  | db | ud | np | ss | gp | pf | ac
  deriving DecidableEq, Repr

/-- The `info` of an exception: no error code, or a code (60_exceptions.md R321). -/
inductive ExcInfo where
  | none
  | code (n : Nat)
  deriving DecidableEq, Repr

/-- The faults a step can end in. In each the machine stops with its state as before the instruction. -/
inductive Fault where
  /-- `raise #XX(info)` at the instruction at `pc`: raised by the shared operation `raise`. The spec's own outcome
  (60_exceptions.md R329, 92 D4: terminal, delivery is not in the source); safe: the processor goes on in a handler. -/
  | exception (cls : ExcClass) (info : ExcInfo) (pc : Word)
  /-- `Interrupted(pc)`: an offered interrupt was accepted at the boundary before `pc` (R334, R371 (b)); raised by
  `step`; safe: the processor goes on in a handler. -/
  | interrupted (pc : Word)
  /-- An offered debug exception of this kind was delivered at the boundary before `pc` (R335); raised by `step`;
  safe, as the one before. -/
  | debugEvent (kind : DebugKind) (pc : Word)
  /-- A data or descriptor byte at this physical address was to be read or written, and the launch memory has no such
  byte: D10 gives the access no step (20_memory.md R90, R91, 70_reset_and_hazards.md R362); raised by `checkOwned`;
  safe: the processor answers in some way. -/
  | notOwned (pa : Nat)
  /-- A data or descriptor byte that nothing has written was read at this physical address (10_state.md R58,
  20_memory.md R91, 92 D10); raised by `readBytes`; safe: the processor reads some value. -/
  | unwritten (pa : Nat)
  deriving DecidableEq, Repr

/-- The refusals a step can end in: the model's edges (70_reset_and_hazards.md R371), where no claim is made about
the processor. Each is safe: the model stops where the processor goes on. -/
inductive Refusal where
  /-- An instruction of the table without a meaning: raised by no arm of `exec` now. -/
  | notModelled (mnemonic : String)
  /-- The bytes at `pc` are not a MOV of this spec (30_encoding.md R135, R137, 92 D17); raised by `step`. -/
  | notAMov (why : Reject) (pc : Word)
  /-- An instruction byte is not supplied: outside the code-segment limit, not canonical, a page fault, not
  existing, or unwritten
  (20_memory.md R100, 92 D3); raised by `step`. -/
  | fetch (pc : Word)
  /-- An instruction byte at this physical address was written by a MOV of this run (20_memory.md R98, 92 D13);
  raised by `step`. -/
  | selfModified (pa : Nat)
  /-- The run ended at a completed write that changed CR0.PE, CR0.PG or CR4.PAE (42_mov_cr.md R262, 92 D31); raised by
  `step` at the next instruction. -/
  | modeChange (pc : Word)
  /-- `pc + L` passes the top of the 64-bit address space (10_state.md R28, 92 D3); raised by `step`. -/
  | pcPastTop (pc : Word)
  /-- A MOV to or from CR4 on a processor without CR4 (10_state.md R44, 93 U24); raised by the control-register rows. -/
  | noCr4
  deriving DecidableEq, Repr

/-- Why an instruction does not complete. -/
inductive Stop where
  | fault (f : Fault)
  | refusal (r : Refusal)
  deriving DecidableEq, Repr

/-- The outcome of a step of this machine. -/
abbrev Outcome := Host.Outcome State Fault Refusal

/-- The attributes of a segment register after reset: limit FFFFh, present, of type `typ` (10_state.md R58; log 2). -/
def SegAttr.afterReset (typ : BitVec 4) : SegAttr where
  limit := 0xFFFF#20
  typ := typ
  s := true
  dpl := 0#2
  present := true
  avl := false
  l := false
  db := false
  g := false

/-- A data segment register after reset: selector 0, base 0, writable, accessed (10_state.md R58). -/
def SegReg.afterReset : SegReg where
  sel := 0#16
  hid := { kind := .real, base := 0#64, attr := SegAttr.afterReset 0b0011#4 }

/-- The machine right after reset: the power-up values of 10_state.md R58 (log 2, log 3, log 4), nothing in memory,
whose bytes all exist (log 7), and the suggested parameters (log 5). -/
def State.reset : State where
  gpr :=
    { rax := 0#64, rcx := 0#64, rdx := 0#64, rbx := 0#64, rsp := 0#64, rbp := 0#64, rsi := 0#64, rdi := 0#64,
      r8 := 0#64, r9 := 0#64, r10 := 0#64, r11 := 0#64, r12 := 0#64, r13 := 0#64, r14 := 0#64, r15 := 0#64 }
  pc := 0xFFF0#64
  flags := { of := false, sf := false, zf := false, af := false, pf := false, cf := false }
  ac := false
  seg :=
    { es := SegReg.afterReset
      cs :=
        { sel := 0xF000#16
          hid := { kind := .real, base := 0xFFFF0000#64, attr := SegAttr.afterReset 0b1011#4 } }
      ss := SegReg.afterReset
      ds := SegReg.afterReset
      fs := SegReg.afterReset
      gs := SegReg.afterReset }
  cpl := 0#2
  mode := .real
  cr := { cr0 := 0x60000010#64, cr2 := 0#64, cr3 := 0#64, cr4 := 0#64, cr8 := 0#64 }
  dr := { dr0 := 0#64, dr1 := 0#64, dr2 := 0#64, dr3 := 0#64, dr6 := 0xFFFF0FF0#64, dr7 := 0x400#64 }
  inhibit := false
  gdtr := { base := 0#64, limit := 0xFFFF#16 }
  ldtr := { valid := true, base := 0#64, limit := 0xFFFF#32 }
  mem := []
  owned := [{ first := 0, count := 2 ^ 64 }]
  stored := []
  draws := 0
  epoch := 0
  tlb := .none
  modeChanged := false
  offers := []
  params := Params.suggested

end Sys2Proof.Machine
end

