-- ==== Sys2Proof/Machine/Ops.lean ====
section
/-! DEFINITION. The named operations over registers and memory, and raising an exception: 10_state.md R20 to R28,
20_memory.md R70 to R87, 60_exceptions.md R329. -/

namespace Sys2Proof.Machine

/-! ### Register files -/

/-- `x[i]` (00_scope.md R9). -/
def Gprs.get (x : Gprs) : Gpr → Word
  | .rax => x.rax | .rcx => x.rcx | .rdx => x.rdx | .rbx => x.rbx
  | .rsp => x.rsp | .rbp => x.rbp | .rsi => x.rsi | .rdi => x.rdi
  | .r8 => x.r8 | .r9 => x.r9 | .r10 => x.r10 | .r11 => x.r11
  | .r12 => x.r12 | .r13 => x.r13 | .r14 => x.r14 | .r15 => x.r15

/-- `x[i] <- v` (00_scope.md R9). -/
def Gprs.set (x : Gprs) (r : Gpr) (v : Word) : Gprs :=
  match r with
  | .rax => { x with rax := v } | .rcx => { x with rcx := v }
  | .rdx => { x with rdx := v } | .rbx => { x with rbx := v }
  | .rsp => { x with rsp := v } | .rbp => { x with rbp := v }
  | .rsi => { x with rsi := v } | .rdi => { x with rdi := v }
  | .r8 => { x with r8 := v } | .r9 => { x with r9 := v }
  | .r10 => { x with r10 := v } | .r11 => { x with r11 := v }
  | .r12 => { x with r12 := v } | .r13 => { x with r13 := v }
  | .r14 => { x with r14 := v } | .r15 => { x with r15 := v }

/-- `sreg[s]` (00_scope.md R9). -/
def Sregs.get (x : Sregs) : Sreg → SegReg
  | .es => x.es | .cs => x.cs | .ss => x.ss | .ds => x.ds | .fs => x.fs | .gs => x.gs

/-- `sreg[s] <- v`. -/
def Sregs.set (x : Sregs) (r : Sreg) (v : SegReg) : Sregs :=
  match r with
  | .es => { x with es := v } | .cs => { x with cs := v } | .ss => { x with ss := v }
  | .ds => { x with ds := v } | .fs => { x with fs := v } | .gs => { x with gs := v }

/-- `cr[n]` (00_scope.md R9). -/
def Crs.get (x : Crs) : CrReg → Word
  | .cr0 => x.cr0 | .cr2 => x.cr2 | .cr3 => x.cr3 | .cr4 => x.cr4 | .cr8 => x.cr8

/-- `cr[n] <- v`. -/
def Crs.set (x : Crs) (r : CrReg) (v : Word) : Crs :=
  match r with
  | .cr0 => { x with cr0 := v } | .cr2 => { x with cr2 := v } | .cr3 => { x with cr3 := v }
  | .cr4 => { x with cr4 := v } | .cr8 => { x with cr8 := v }

/-- `dr[n]` (00_scope.md R9). -/
def Drs.get (x : Drs) : DrReg → Word
  | .dr0 => x.dr0 | .dr1 => x.dr1 | .dr2 => x.dr2 | .dr3 => x.dr3 | .dr6 => x.dr6 | .dr7 => x.dr7

/-- `dr[n] <- v`. -/
def Drs.set (x : Drs) (r : DrReg) (v : Word) : Drs :=
  match r with
  | .dr0 => { x with dr0 := v } | .dr1 => { x with dr1 := v } | .dr2 => { x with dr2 := v }
  | .dr3 => { x with dr3 := v } | .dr6 => { x with dr6 := v } | .dr7 => { x with dr7 := v }

/-! ### Modes and control-register fields -/

def State.long64 (s : State) : Bool := s.mode == .long64

/-- COMPAT or LONG64 (00_scope.md R13 "IA-32e mode"). -/
def State.ia32e (s : State) : Bool := s.mode == .compat || s.mode == .long64

/-- `Default32` (30_encoding.md R123): the D attribute of CS, and 16 bits in REAL and V86 (log 42). -/
def State.default32 (s : State) : Bool := !(s.mode == .real || s.mode == .v86) && s.seg.cs.hid.attr.db

/-- What the decoder needs of the state (30_encoding.md R123, R124). -/
def State.env (s : State) : DecodeEnv := { long64 := s.long64, default32 := s.default32 }

/-- Field positions of CR0 (10_state.md R41). -/
def cr0PE (v : Word) : Bool := v.getLsbD 0
def cr0ET (v : Word) : Bool := v.getLsbD 4
def cr0AM (v : Word) : Bool := v.getLsbD 18
def cr0NW (v : Word) : Bool := v.getLsbD 29
def cr0CD (v : Word) : Bool := v.getLsbD 30
def cr0PG (v : Word) : Bool := v.getLsbD 31

/-- Field positions of CR4 (10_state.md R44). -/
def cr4DE (v : Word) : Bool := v.getLsbD 3
def cr4PSE (v : Word) : Bool := v.getLsbD 4
def cr4PAE (v : Word) : Bool := v.getLsbD 5
def cr4PCIDE (v : Word) : Bool := v.getLsbD 17

/-- DR7.GD (10_state.md R51). -/
def dr7GD (v : Word) : Bool := v.getLsbD 13

/-- Does the value agree with the pattern? -/
def patternHolds (q : Pattern) (v : Word) : Bool := v &&& q.mask == q.pat

/-! ### Raising an exception, and completing -/

/-- `raise #XX(info)` (60_exceptions.md R329): the instruction ends with the outcome `Fault(class, info, pc)`, `pc` its
own address, and with every state component unchanged. Delivery is not in the source, so this is the whole of taking an
exception, and there is no return from one (R331, R332; log 8). -/
def raise {α : Type} (s : State) (cls : ExcClass) (info : ExcInfo) : Except Stop α :=
  .error (.fault (.exception cls info s.pc))

/-- The error code of a #GP or #SS that the lists write with code 0: none in REAL mode (60_exceptions.md R321). -/
def State.zeroCode (s : State) : ExcInfo := if s.mode == .real then .none else .code 0

/-- `pc <- pc + L` (10_state.md R28). -/
def State.advance (s : State) (len : Nat) : State := { s with pc := s.pc + BitVec.ofNat 64 len }

/-- The frame of every row: #UD with a LOCK prefix before anything else (40_mov_data.md R163, 20_memory.md R89); where
the row's own effect completes, `pc <- pc + L`. -/
def complete (p : Pfx) (len : Nat) (s : State) (body : Except Stop State) : Outcome :=
  if p.locked then .fault (.exception .ud .none s.pc)
  else
    match body with
    | .ok t => .next (t.advance len)
    | .error (.fault f) => .fault f
    | .error (.refusal r) => .refused r

/-! ### Parts of general registers (10_state.md R22 to R25) -/

/-- Operand widths (20_memory.md R71). -/
inductive Width where
  | b8 | b16 | b32 | b64
  deriving DecidableEq, Repr

def Width.bytes : Width → Nat
  | .b8 => 1 | .b16 => 2 | .b32 => 4 | .b64 => 8

/-- The register whose high byte a byte-register number names: numbers 4 to 7 without REX (10_state.md R22). -/
def highByteOwner (rex : Bool) (r : Gpr) : Option Gpr :=
  if rex then none
  else match r with
    | .rsp => some .rax
    | .rbp => some .rcx
    | .rsi => some .rdx
    | .rdi => some .rbx
    | _ => none

/-- `x8(i, rex)` (10_state.md R22). -/
def Gprs.get8 (x : Gprs) (rex : Bool) (r : Gpr) : Byte :=
  match highByteOwner rex r with
  | some o => (x.get o).extractLsb' 8 8
  | none => (x.get r).extractLsb' 0 8

/-- `Wr8(i, rex, v)` (10_state.md R22): the other bits of the register stay. -/
def Gprs.set8 (x : Gprs) (rex : Bool) (r : Gpr) (v : Byte) : Gprs :=
  match highByteOwner rex r with
  | some o => x.set o ((x.get o).extractLsb' 16 48 ++ v ++ (x.get o).extractLsb' 0 8)
  | none => x.set r ((x.get r).extractLsb' 8 56 ++ v)

/-- `Wr16(i, v)` (10_state.md R23): bits 63:16 stay. -/
def Gprs.set16 (x : Gprs) (r : Gpr) (v : Half) : Gprs := x.set r ((x.get r).extractLsb' 16 48 ++ v)

/-- Is the upper half of a register left unknown by a 32-bit write: outside LONG64, where the register has one
(10_state.md R24, R20; log 12, log 37)? -/
def State.upperDrawn (s : State) : Bool := !s.long64 && s.params.hasIntel64

/-- Bits 63:32 of a register after a 32-bit write (10_state.md R24): zero in LONG64, `draw(32)` elsewhere. -/
def State.upper32 (s : State) : Dword :=
  if s.upperDrawn then (Config.draw s.draws).extractLsb' 0 32 else 0#32

/-- A register of the width as a zero-extended value: `x8`, `x16`, `x32`, `x64` (10_state.md R22 to R25). -/
def State.readReg (s : State) (w : Width) (rex : Bool) (r : Gpr) : Word :=
  match w with
  | .b8 => (s.gpr.get8 rex r).setWidth 64
  | .b16 => ((s.gpr.get r).extractLsb' 0 16).setWidth 64
  | .b32 => ((s.gpr.get r).extractLsb' 0 32).setWidth 64
  | .b64 => s.gpr.get r

/-- The general registers after the low bits of `v` are written to a register of the width: `Wr8`, `Wr16`, `Wr32`,
`Wr64` (10_state.md R22 to R25). -/
def State.regsAfter (s : State) (w : Width) (rex : Bool) (r : Gpr) (v : Word) : Gprs :=
  match w with
  | .b8 => s.gpr.set8 rex r (v.setWidth 8)
  | .b16 => s.gpr.set16 r (v.setWidth 16)
  | .b32 => s.gpr.set r (s.upper32 ++ v.setWidth 32)
  | .b64 => s.gpr.set r v

/-- How many free values a register write uses: one where it leaves bits 63:32 unknown (log 12). -/
def State.drawsOfWrite (s : State) (w : Width) : Nat := if w == .b32 && s.upperDrawn then 1 else 0

/-- The state after a register write of the width. -/
def State.writeReg (s : State) (w : Width) (rex : Bool) (r : Gpr) (v : Word) : State :=
  { s with gpr := s.regsAfter w rex r v, draws := s.draws + s.drawsOfWrite w }

/-! ### Memory (20_memory.md R71, R72) -/

/-- The byte at a physical address, if it has a value (log 7). -/
def memGet : Memory → Nat → Option Byte
  | [], _ => none
  | c :: m, a => if a = c.1 then some c.2 else memGet m a

/-- Write one byte, keeping the addresses strictly rising. -/
def memSet : Memory → Nat → Byte → Memory
  | [], a, v => [(a, v)]
  | c :: m, a, v =>
    if a < c.1 then (a, v) :: c :: m
    else if a = c.1 then (a, v) :: m
    else c :: memSet m a v

/-- The canonical form of memory: addresses strictly rising. An unlisted byte has no value (log 7), so no entry is
one that an unlisted address reads as. -/
def Memory.wf : Memory → Bool
  | [] => true
  | c :: m => m.all (fun d => decide (c.1 < d.1)) && Memory.wf m

/-- Add an address to a strictly rising list of addresses. -/
def addAddr : List Nat → Nat → List Nat
  | [], a => [a]
  | b :: l, a => if a < b then a :: b :: l else if a = b then b :: l else b :: addAddr l a

/-- Write bytes to addresses, one by one. -/
def memSetAll : Memory → List Nat → List Byte → Memory
  | m, a :: as, b :: bs => memSetAll (memSet m a b) as bs
  | m, _, _ => m

def addAddrs : List Nat → List Nat → List Nat
  | l, a :: as => addAddrs (addAddr l a) as
  | l, [] => l

/-- The state after a MOV has written the bytes (20_memory.md R86), which are noted as written (R98; log 28). -/
def State.store (s : State) (pas : List Nat) (bs : List Byte) : State :=
  { s with mem := memSetAll s.mem pas bs, stored := addAddrs s.stored pas }

/-- The value of bytes in little-endian order (20_memory.md R72). -/
def leValue : List Byte → Nat
  | [] => 0
  | b :: bs => b.toNat + 256 * leValue bs

/-- The `n` low bytes of a value in little-endian order (20_memory.md R72). -/
def leBytes : Nat → Nat → List Byte
  | 0, _ => []
  | n + 1, v => BitVec.ofNat 8 v :: leBytes n (v / 256)

/-- The bytes at the addresses; a byte that nothing has written stops the machine (log 7). -/
def readBytes (m : Memory) : List Nat → Except Stop (List Byte)
  | [] => .ok []
  | a :: as =>
    match memGet m a with
    | none => .error (.fault (.unwritten a))
    | some b => (readBytes m as).map (b :: ·)

/-- Does the byte at the physical address exist (20_memory.md R91; log 7)? -/
def State.owns (s : State) (a : Nat) : Bool := s.owned.any fun q => decide (q.first ≤ a) && decide (a < q.first + q.count)

/-- The bytes of an access all exist; the first that does not stops the machine (20_memory.md R90, R91; log 7). -/
def State.checkOwned (s : State) : List Nat → Except Stop Unit
  | [] => .ok ()
  | a :: as => if s.owns a then s.checkOwned as else .error (.fault (.notOwned a))

/-! ### Conditions of the parameters on the state (00_scope.md R6; log 15) -/

/-- The number of a mode in a condition. -/
def Mode.num : Mode → Nat
  | .real => 0 | .prot => 1 | .v86 => 2 | .compat => 3 | .long64 => 4

/-- The number of a hidden part in a condition. -/
def HidKind.num : HidKind → Nat
  | .null => 0 | .desc => 1 | .real => 2

/-- A list of bits as a number, the lowest first. -/
def bitsNum : List Bool → Nat
  | [] => 0
  | b :: bs => b.toNat + 2 * bitsNum bs

/-- Limit and attributes in one word, the limit lowest. -/
def SegAttr.num (d : SegAttr) : Nat :=
  d.limit.toNat + 2 ^ 20 * (d.typ.toNat + 2 ^ 4 * (d.s.toNat + 2 * (d.dpl.toNat + 4 *
    bitsNum [d.present, d.avl, d.l, d.db, d.g])))

/-- The part of the state that a condition asks for; nothing for a byte that has no value. -/
def State.part (s : State) : StatePart → Option Word
  | .byte a => (memGet s.mem a).map (·.setWidth 64)
  | .gpr r => some (s.gpr.get r)
  | .pc => some s.pc
  | .flags => some (BitVec.ofNat 64 (bitsNum [s.flags.of, s.flags.sf, s.flags.zf, s.flags.af, s.flags.pf, s.flags.cf]))
  | .ac => some (BitVec.ofNat 64 s.ac.toNat)
  | .selector r => some ((s.seg.get r).sel.setWidth 64)
  | .segKind r => some (BitVec.ofNat 64 (s.seg.get r).hid.kind.num)
  | .segBase r => some (s.seg.get r).hid.base
  | .segAttr r => some (BitVec.ofNat 64 (s.seg.get r).hid.attr.num)
  | .cpl => some (s.cpl.setWidth 64)
  | .mode => some (BitVec.ofNat 64 s.mode.num)
  | .cr r => some (s.cr.get r)
  | .dr r => some (s.dr.get r)

/-- Does the condition hold? -/
def State.condHolds (s : State) (c : StateCond) : Bool :=
  match s.part c.part, c.value with
  | some v, some q => patternHolds q v
  | none, none => true
  | some _, none => false
  | none, some _ => false

/-! ### Linear and physical addresses (20_memory.md R76, R80, R83) -/

/-- `SegBase` (20_memory.md R76): in LONG64 only FS and GS have a base. -/
def State.segBase (s : State) (r : Sreg) : Word :=
  if s.long64 && !(r == .fs || r == .gs) then 0#64 else (s.seg.get r).hid.base

/-- How many linear addresses there are (20_memory.md R71). -/
def State.linearSpace (s : State) : Nat := if s.long64 then 2 ^ 64 else 2 ^ 32

/-- The linear address of a logical one (20_memory.md R76). -/
def State.linear (s : State) (r : Sreg) (off : Word) : Nat := ((s.segBase r).toNat + off.toNat) % s.linearSpace

/-- The linear addresses of the bytes of an access (20_memory.md R76; log 34). -/
def State.linearBytes (s : State) (lin n : Nat) : List Nat :=
  (List.range n).map fun k => (lin + k) % s.linearSpace

/-- Canonical form: bits 63 down to `VA_BITS − 1` are all equal (20_memory.md R80). -/
def canonical (vaBits lin : Nat) : Bool :=
  lin / 2 ^ (vaBits - 1) == 0 || lin / 2 ^ (vaBits - 1) == 2 ^ 64 / 2 ^ (vaBits - 1) - 1

/-- Is paging in use: never in REAL mode, elsewhere as CR0.PG says (20_memory.md R83)? -/
def State.pagingOn (s : State) : Bool := !(s.mode == .real) && cr0PG s.cr.cr0

/-- Does a rule of `Translate` speak of this access in this state? -/
def State.xlatCovers (s : State) (acc : Access) (lin : Nat) (q : XlatRange) : Bool :=
  q.epoch == s.epoch && q.access == acc && decide (q.first ≤ lin) && decide (lin < q.first + q.count) &&
  q.conds.all s.condHolds

/-- `Translate` for one byte (20_memory.md R83): the physical address, or the code of a page fault. It is the identity
where paging is off, and where no rule of the parameter speaks of the access (log 15). The parameter asks the state, so a
store to a page table may change what it answers (R99). -/
def State.translateByte (s : State) (acc : Access) (lin : Nat) : Except Nat Nat :=
  if s.pagingOn then
    match s.params.translate.find? (s.xlatCovers acc lin) with
    | none => .ok lin
    | some q =>
      match q.target with
      | .phys base => .ok (base + (lin - q.first))
      | .pageFault code => .error code
  else .ok lin

/-- `Translate(state, lin, n, access)` (20_memory.md R83): `Phys(pa_list)`, or the fault of the first byte that has
one. -/
def State.translate (s : State) (acc : Access) : List Nat → Except Nat (List Nat)
  | [] => .ok []
  | l :: ls => (s.translateByte acc l).bind fun pa => (s.translate acc ls).map (pa :: ·)

/-! ### Attributes of a segment (10_state.md R35, R59) -/

/-- `IsCode(d)`. -/
def SegAttr.isCode (d : SegAttr) : Bool := d.s && d.typ.getLsbD 3
/-- `IsData(d)`. -/
def SegAttr.isData (d : SegAttr) : Bool := d.s && !d.typ.getLsbD 3
/-- `Writable(d)`, of a data segment. -/
def SegAttr.writable (d : SegAttr) : Bool := d.isData && d.typ.getLsbD 1
/-- `Readable(d)`, of a code segment. -/
def SegAttr.readable (d : SegAttr) : Bool := d.isCode && d.typ.getLsbD 1
/-- `Conforming(d)`, of a code segment. -/
def SegAttr.conforming (d : SegAttr) : Bool := d.isCode && d.typ.getLsbD 2
/-- `ExpandDown`, of a data segment. -/
def SegAttr.expandDown (d : SegAttr) : Bool := d.isData && d.typ.getLsbD 2

/-- The byte-granular limit (10_state.md R59). -/
def SegAttr.byteLimit (d : SegAttr) : Nat := if d.g then d.limit.toNat * 4096 + 4095 else d.limit.toNat

/-- `InLimit(d, off, n)` (10_state.md R35, R59; log 34). -/
def SegAttr.inLimit (d : SegAttr) (off n : Nat) : Bool :=
  if d.expandDown then
    decide (d.byteLimit < off) && decide (off + n - 1 ≤ if d.db then 0xFFFFFFFF else 0xFFFF)
  else decide (off + n - 1 ≤ d.byteLimit)

/-! ### The checked accesses (20_memory.md R77 to R86) -/

/-- The class of a segment-level fault: #SS for the SS segment, #GP for the others (20_memory.md R77 to R80). -/
def segFaultClass (r : Sreg) : ExcClass := if r == .ss then .ss else .gp

/-- DS, ES, FS, GS: the registers whose NULL selector faults on use (20_memory.md R77 (a), R81). -/
def isDataSreg (r : Sreg) : Bool := r == .ds || r == .es || r == .fs || r == .gs

/-- The segment-level tests of the mode for an access of `n` bytes (20_memory.md R77 to R81). -/
def State.checkSegment (s : State) (r : Sreg) (off : Word) (n : Nat) (acc : Access) : Except Stop Unit :=
  let hid := (s.seg.get r).hid
  match s.mode with
  | .long64 =>
    if (s.linearBytes (s.linear r off) n).all (canonical s.params.vaBits) then .ok ()
    else raise s (segFaultClass r) (.code 0)
  | .real | .v86 =>
    if hid.attr.inLimit off.toNat n then .ok () else raise s (segFaultClass r) s.zeroCode
  | .prot | .compat =>
    if isDataSreg r && hid.kind == .null then raise s .gp (.code 0)
    else if !hid.attr.inLimit off.toNat n then raise s (segFaultClass r) (.code 0)
    else if acc == .write && !hid.attr.writable then raise s .gp (.code 0)
    else .ok ()

/-- `AlignCheckEnabled(state)`: CR0.AM and the AC flag (10_state.md R54; log 22). -/
def State.alignCheckEnabled (s : State) : Bool := cr0AM s.cr.cr0 && s.ac

/-- Does the alignment check fault: at CPL 3 in PROT, COMPAT and LONG64, at any CPL in V86, never in REAL
(20_memory.md R82)? -/
def State.misaligned (s : State) (lin n : Nat) : Bool :=
  s.alignCheckEnabled && lin % n != 0 &&
  (match s.mode with
   | .real => false
   | .v86 => true
   | .prot | .compat | .long64 => s.cpl == 3#2)

/-- Where both #AC and #PF apply, either may be raised (20_memory.md R84): a free choice (log 10). -/
def State.acBeforePf (s : State) : Bool := (Config.draw s.draws).getLsbD 0

/-- The tests of an access of `n` bytes at `r:off`, and the physical addresses of its bytes where all pass
(20_memory.md R84 to R86): they must exist (R90, R91). -/
def State.physBytes (s : State) (r : Sreg) (off : Word) (n : Nat) (acc : Access) : Except Stop (List Nat) :=
  (s.checkSegment r off n acc).bind fun _ =>
    match s.translate acc (s.linearBytes (s.linear r off) n) with
    | .ok pas =>
      if s.misaligned (s.linear r off) n then raise s .ac (.code 0) else (s.checkOwned pas).map fun _ => pas
    | .error code =>
      if s.misaligned (s.linear r off) n && s.acBeforePf then raise s .ac (.code 0)
      else raise s .pf (.code code)

/-- `LogRead(seg, off, n)` (20_memory.md R85). -/
def State.logRead (s : State) (r : Sreg) (off : Word) (n : Nat) : Except Stop Word :=
  (s.physBytes r off n .read).bind fun pas =>
    (readBytes s.mem pas).map fun bs => BitVec.ofNat 64 (leValue bs)

/-- `LogWrite(seg, off, n, v)` (20_memory.md R86): every test before any byte is written. -/
def State.logWrite (s : State) (r : Sreg) (off : Word) (n : Nat) (v : Word) : Except Stop State :=
  (s.physBytes r off n .write).map fun pas => s.store pas (leBytes n v.toNat)

end Sys2Proof.Machine
end

