-- ==== Sys2Proof/Machine/Flags.lean ====
section
/-! DEFINITION. The flags. Rows 1 to 35 affect none (10_state.md R29, 40_mov_data.md R163, 41_mov_sreg.md R200); rows 36
to 45 leave the six status flags undefined (42_mov_cr.md R259, 43_mov_dr.md R302). There is no other flag computation. -/

namespace Sys2Proof.Machine

/-- Six flags taken from the bits of a free value, `draw(1)` each (10_state.md R29; log 13). -/
def Flags.ofDraw (v : Word) : Flags where
  of := v.getLsbD 0
  sf := v.getLsbD 1
  zf := v.getLsbD 2
  af := v.getLsbD 3
  pf := v.getLsbD 4
  cf := v.getLsbD 5

/-- "The OF, SF, ZF, AF, PF, and CF flags are undefined" (42_mov_cr.md R259, 43_mov_dr.md R302). -/
def State.undefineFlags (s : State) : State :=
  { s with flags := Flags.ofDraw (Config.draw s.draws), draws := s.draws + 1 }

end Sys2Proof.Machine
end

