-- ==== Sys2Proof/Machine/Operands.lean ====
section
/-! DEFINITION. Operand forms: effective addresses and their segments (30_encoding.md R118 to R122, 20_memory.md R74,
R75), and reading and writing an r/m operand or a moffs operand (40_mov_data.md R161). -/

namespace Sys2Proof.Machine

/-- `sext` of a one-byte displacement, or the displacement itself, or 0 (30_encoding.md R118 to R122). -/
def dispValue {w : Nat} : Disp w → Word
  | .none => 0#64
  | .d8 v => v.signExtend 64
  | .full v => v.signExtend 64

/-- A sum modulo 2^AddrSize, zero-extended (20_memory.md R74). -/
def truncAddr (a : AddrSize) (v : Word) : Word :=
  match a with
  | .a16 => (v.setWidth 16).setWidth 64
  | .a32 => (v.setWidth 32).setWidth 64
  | .a64 => v

/-- A register read at the address size (30_encoding.md R120). -/
def State.addrReg (s : State) (a : AddrSize) (r : Gpr) : Word := truncAddr a (s.gpr.get r)

/-- The sum of the registers of a 16-bit base (30_encoding.md R118). -/
def State.base16 (s : State) (b : Base16) : Word :=
  let x := s.gpr
  match b with
  | .bxSi => x.rbx + x.rsi
  | .bxDi => x.rbx + x.rdi
  | .bpSi => x.rbp + x.rsi
  | .bpDi => x.rbp + x.rdi
  | .si => x.rsi
  | .di => x.rdi
  | .bp => x.rbp
  | .bx => x.rbx

/-- The index term of a SIB byte: none, or the index register shifted left by the scale (30_encoding.md R120). -/
def State.indexTerm (s : State) (a : AddrSize) (scale : BitVec 2) : Option Gpr → Word
  | none => 0#64
  | some r => s.addrReg a r <<< scale.toNat

/-- The effective address of a memory operand, for an instruction of `len` bytes (30_encoding.md R118 to R121). -/
def State.effAddr (s : State) (p : Pfx) (len : Nat) (m : MemOp) : Word :=
  let a := addrSize s.env p
  match m with
  | .based16 b d => truncAddr .a16 (s.base16 b + dispValue d)
  | .abs16 d => d.setWidth 64
  | .based r d => truncAddr a (s.addrReg a r + dispValue d)
  | .sib sc idx b d => truncAddr a (s.addrReg a b + s.indexTerm a sc idx + dispValue d)
  | .sibNoBase sc idx d => truncAddr a (s.indexTerm a sc idx + d.signExtend 64)
  | .abs32 d => truncAddr a (d.signExtend 64)
  | .rip d => truncAddr a (s.pc + BitVec.ofNat 64 len + d.signExtend 64)

/-- Does the operand use (E/R)BP or (E/R)SP as its base, so that its default segment is SS (20_memory.md R75,
30_encoding.md R118 to R121)? -/
def stackDefault : MemOp → Bool
  | .based16 .bpSi _ | .based16 .bpDi _ | .based16 .bp _ => true
  | .based16 _ _ => false
  | .based r _ => r == .rsp || r == .rbp
  | .sib _ _ b _ => b == .rsp || b == .rbp
  | .abs16 _ | .sibNoBase _ _ _ | .abs32 _ | .rip _ => false

/-- The segment of a memory operand: the override that counts, or the default (20_memory.md R75). -/
def State.operandSeg (s : State) (p : Pfx) (stack : Bool) : Sreg :=
  match p.override s.long64 with
  | some r => r
  | none => if stack then .ss else .ds

/-- The segment of an r/m memory operand. -/
def State.memSeg (s : State) (p : Pfx) (m : MemOp) : Sreg := s.operandSeg p (stackDefault m)

/-- The segment of a moffs operand: DS without an override (30_encoding.md R127, 20_memory.md R75). -/
def State.moffsSeg (s : State) (p : Pfx) : Sreg := s.operandSeg p false

/-- The offset a moffs operand holds, used unsigned (30_encoding.md R127). -/
def moffsValue : Moffs → Word
  | .m16 v => v.setWidth 64
  | .m32 v => v.setWidth 64
  | .m64 v => v

/-- `ReadRM(w)` (40_mov_data.md R161), zero-extended. -/
def State.readRm (s : State) (p : Pfx) (len : Nat) (w : Width) (rex : Bool) : RmOp → Except Stop Word
  | .reg r => .ok (s.readReg w rex r)
  | .mem m => s.logRead (s.memSeg p m) (s.effAddr p len m) w.bytes

/-- `WriteRM(w, v)` (40_mov_data.md R161). -/
def State.writeRm (s : State) (p : Pfx) (len : Nat) (w : Width) (rex : Bool) (rm : RmOp) (v : Word) :
    Except Stop State :=
  match rm with
  | .reg r => .ok (s.writeReg w rex r v)
  | .mem m => s.logWrite (s.memSeg p m) (s.effAddr p len m) w.bytes v

/-- Load the accumulator from a moffs operand (40_mov_data.md R175 to R179). -/
def State.loadMoffs (s : State) (p : Pfx) (w : Width) (o : Moffs) : Except Stop State :=
  (s.logRead (s.moffsSeg p) (moffsValue o) w.bytes).map fun v => s.writeReg w p.hasRex .rax v

/-- Store the accumulator to a moffs operand (40_mov_data.md R180 to R184). -/
def State.storeMoffs (s : State) (p : Pfx) (w : Width) (o : Moffs) : Except Stop State :=
  s.logWrite (s.moffsSeg p) (moffsValue o) w.bytes (s.readReg w p.hasRex .rax)

/-- Load a register from an r/m operand (40_mov_data.md R170 to R174). -/
def State.loadRm (s : State) (p : Pfx) (len : Nat) (w : Width) (rex : Bool) (g : Gpr) (rm : RmOp) :
    Except Stop State :=
  (s.readRm p len w rex rm).map fun v => s.writeReg w rex g v

end Sys2Proof.Machine
end

