-- ==== Sys2Proof/Machine/CrMoves.lean ====
section
/-! DEFINITION. MOV from and to control registers, opcodes 0F 20 and 0F 22 (42_mov_cr.md). -/

namespace Sys2Proof.Machine

/-! ### Which register, and who may (R243, R250, R265) -/

/-- The register of a number 0 to 7: CR1, CR5, CR6 and CR7 do not exist (R243). -/
def crOfNum : CrNum → Option CrReg
  | .cr0 => some .cr0
  | .cr2 => some .cr2
  | .cr3 => some .cr3
  | .cr4 => some .cr4
  | .cr1 => none
  | .cr5 => none
  | .cr6 => none
  | .cr7 => none

/-- The register of a number 8 to 15: only CR8 exists (R243). -/
def crOfHigh : CrHigh → Option CrReg
  | .cr8 => some .cr8
  | .cr9 => none
  | .cr10 => none
  | .cr11 => none
  | .cr12 => none
  | .cr13 => none
  | .cr14 => none
  | .cr15 => none

/-- May a control or debug register be moved: never in V86, always in REAL, elsewhere at CPL 0 (R250; 43_mov_dr.md
R305)? -/
def State.privileged (s : State) : Bool :=
  match s.mode with
  | .v86 => false
  | .real => true
  | .prot | .compat | .long64 => s.cpl == 0#2

/-- The tests before the move, in the order of R265: #UD, then #GP(0). CR4 on a processor without it is outside the
spec (93 U24; log 35). -/
def State.crGuard (s : State) (c : Option CrReg) : Except Stop CrReg :=
  match c with
  | none => raise s .ud .none
  | some r =>
    if r == .cr4 && !s.params.hasCr4 then .error (.refusal .noCr4)
    else if s.privileged then .ok r
    else raise s .gp (.code 0)

/-! ### Reading (R251) -/

/-- A read of a control register to a general register of the width; the flags become undefined (R251, R259). -/
def State.readCr (s : State) (w : Width) (g : Gpr) (c : Option CrReg) : Except Stop State :=
  (s.crGuard c).map fun r => (s.writeReg w false g (s.cr.get r)).undefineFlags

/-- Row 36, R244: MOV r32, CR0-CR7. -/
def execMovR32Cr (p : Pfx) (m : BitVec 2) (g : Gpr) (c : CrNum) (s : State) : Outcome :=
  complete p (instrLength (.movR32Cr p m g c)) s (s.readCr .b32 g (crOfNum c))

/-- Row 37, R245: MOV r64, CR0-CR7. -/
def execMovR64Cr (p : Pfx) (m : BitVec 2) (g : Gpr) (c : CrNum) (s : State) : Outcome :=
  complete p (instrLength (.movR64Cr p m g c)) s (s.readCr .b64 g (crOfNum c))

/-- Row 38, R246: MOV r64, CR8. -/
def execMovR64Cr8 (p : Pfx) (m : BitVec 2) (g : Gpr) (c : CrHigh) (s : State) : Outcome :=
  complete p (instrLength (.movR64Cr8 p m g c)) s (s.readCr .b64 g (crOfHigh c))

/-! ### Writing (R252 to R258) -/

/-- The #GP of a value check: code 0, none in REAL mode (R252, R256, 60_exceptions.md R321). -/
def crFault (s : State) : Except Stop State := raise s .gp s.zeroCode

/-- `CR0_INVALID(v)`: the two combinations the source names, and the parameter's (R252; log 18). -/
def cr0Invalid (q : Params) (v : Word) : Bool :=
  (cr0PG v && !cr0PE v) || (!cr0CD v && cr0NW v) || q.cr0Invalid.any (fun x => patternHolds x v)

/-- `PdptLoadFaults(state, c, v)` (R258; log 17). -/
def State.pdptLoadFaults (s : State) (r : CrReg) (v : Word) : Bool :=
  s.params.pdptFaults.any fun q => 
    q.epoch == s.epoch && q.conds.all s.condHolds && q.reg == r && patternHolds q.value v

/-- What CR0 holds after a load of `v`: reserved bits clear, ET set where it is sticky (R253). -/
def cr0Stored (q : Params) (v : Word) : Word :=
  let w := v &&& ~~~q.cr0Reserved
  if q.cr0EtSticky then w ||| 0x10#64 else w

/-- The tests of a write of CR0 (R252). -/
def State.cr0Refused (s : State) (v : Word) : Bool :=
  cr0Invalid s.params v ||
  (match s.mode with
   | .compat => cr0PG s.cr.cr0 && !cr0PG v && cr4PCIDE s.cr.cr4
   | .long64 => cr0PG s.cr.cr0 && !cr0PG v
   | .prot => s.pdptLoadFaults .cr0 v
   | .real | .v86 => false)

/-- Write of CR0 (R252, R253): a change of PE or PG ends the run (R262) and, in the families that do so, flushes the
TLBs (R261). -/
def State.writeCr0 (s : State) (v : Word) : Except Stop State :=
  if s.cr0Refused v then crFault s
  else
    let w := cr0Stored s.params v
    let change := cr0PE w != cr0PE s.cr.cr0 || cr0PG w != cr0PG s.cr.cr0
    .ok { s with
      cr := s.cr.set .cr0 w
      epoch := s.epoch + 1
      tlb := if change && s.params.tlbFlushOnModeBits then .allEntries else .someCases
      modeChanged := s.modeChanged || change }

/-- The reserved bits of CR3: bit 63 always is one (10_state.md R43; log 36). -/
def cr3Mask (q : Params) : Word := q.cr3Reserved ||| 0x8000000000000000#64

/-- The tests of a write of CR3 (R255): bit 63 is no test where CR4.PCIDE is 1. -/
def State.cr3Refused (s : State) (v : Word) : Bool :=
  match s.mode with
  | .compat | .long64 =>
    v &&& (if cr4PCIDE s.cr.cr4 then cr3Mask s.params &&& 0x7FFFFFFFFFFFFFFF#64 else cr3Mask s.params) != 0#64
  | .prot => s.pdptLoadFaults .cr3 v
  | .real | .v86 => false

/-- Write of CR3 (R255): bit 63 and the reserved bits stay clear. In IA-32e mode a 1 in a reserved bit has faulted
before, so clearing them changes nothing but bit 63. -/
def State.writeCr3 (s : State) (v : Word) : Except Stop State :=
  if s.cr3Refused v then crFault s
  else .ok { s with
    cr := s.cr.set .cr3 (v &&& ~~~cr3Mask s.params)
    epoch := s.epoch + 1
    tlb := if cr4PCIDE s.cr.cr4 then .byBit63 (v.getLsbD 63) else .someCases }

/-- The tests of a write of CR4 (R256). -/
def State.cr4Refused (s : State) (v : Word) : Bool :=
  v &&& s.params.cr4Reserved != 0#64 ||
  (match s.mode with
   | .compat | .long64 =>
     (!cr4PCIDE s.cr.cr4 && cr4PCIDE v && s.cr.cr3.extractLsb' 0 12 != 0#12) || (cr4PAE s.cr.cr4 && !cr4PAE v)
   | .prot => cr4PCIDE v || s.pdptLoadFaults .cr4 v
   | .real => cr4PCIDE v
   | .v86 => false)

/-- Write of CR4 (R256): a change of PAE ends the run (R262); one of PSE or PAE may flush the TLBs (R261). -/
def State.writeCr4 (s : State) (v : Word) : Except Stop State :=
  if s.cr4Refused v then crFault s
  else
    let pae := cr4PAE v != cr4PAE s.cr.cr4
    let change := pae || cr4PSE v != cr4PSE s.cr.cr4
    .ok { s with
      cr := s.cr.set .cr4 v
      epoch := s.epoch + 1
      tlb := if change && s.params.tlbFlushOnModeBits then .allEntries else .someCases
      modeChanged := s.modeChanged || pae }

/-- Write of CR8 (R257). -/
def State.writeCr8 (s : State) (v : Word) : Except Stop State :=
  if v &&& s.params.cr8Reserved != 0#64 then crFault s else .ok { s with cr := s.cr.set .cr8 v }

/-- Write of a control register (R252 to R257); CR2 has no test (R254). -/
def State.writeCrReg (s : State) (r : CrReg) (v : Word) : Except Stop State :=
  match r with
  | .cr0 => s.writeCr0 v
  | .cr2 => .ok { s with cr := s.cr.set .cr2 v }
  | .cr3 => s.writeCr3 v
  | .cr4 => s.writeCr4 v
  | .cr8 => s.writeCr8 v

/-- A write of a control register from a general register of the width, zero-extended (R242, R247 to R249); the flags
become undefined (R259). -/
def State.writeCr (s : State) (w : Width) (c : Option CrReg) (g : Gpr) : Except Stop State :=
  (s.crGuard c).bind fun r => (s.writeCrReg r (s.readReg w false g)).map State.undefineFlags

/-- Row 39, R247: MOV CR0-CR7, r32. -/
def execMovCrR32 (p : Pfx) (m : BitVec 2) (c : CrNum) (g : Gpr) (s : State) : Outcome :=
  complete p (instrLength (.movCrR32 p m c g)) s (s.writeCr .b32 (crOfNum c) g)

/-- Row 40, R248: MOV CR0-CR7, r64. -/
def execMovCrR64 (p : Pfx) (m : BitVec 2) (c : CrNum) (g : Gpr) (s : State) : Outcome :=
  complete p (instrLength (.movCrR64 p m c g)) s (s.writeCr .b64 (crOfNum c) g)

/-- Row 41, R249: MOV CR8, r64. -/
def execMovCr8R64 (p : Pfx) (m : BitVec 2) (c : CrHigh) (g : Gpr) (s : State) : Outcome :=
  complete p (instrLength (.movCr8R64 p m c g)) s (s.writeCr .b64 (crOfHigh c) g)

/-! ### The serializing attribute (20_memory.md R96, 42_mov_cr.md R260) -/

/-- Is the instruction of a row that is a serializing instruction: rows 36, 37, 39 and 40? False means that it is not
promised. The attribute has no effect in a model that runs one instruction after another (log 40). -/
def serializing : Instr → Bool
  | .movR32Cr _ _ _ _ | .movR64Cr _ _ _ _ | .movCrR32 _ _ _ _ | .movCrR64 _ _ _ _ => true
  | .movR64Cr8 _ _ _ _ | .movCr8R64 _ _ _ _ => false
  | .movRm8R8 _ _ _ | .movRm8R8Rex _ _ _ | .movRm16R16 _ _ _ | .movRm32R32 _ _ _ | .movRm64R64 _ _ _ => false
  | .movR8Rm8 _ _ _ | .movR8Rm8Rex _ _ _ | .movR16Rm16 _ _ _ | .movR32Rm32 _ _ _ | .movR64Rm64 _ _ _ => false
  | .movRm16Sreg _ _ _ | .movR32M16Sreg _ _ _ | .movR64M16Sreg _ _ _ => false
  | .movSregRm16 _ _ _ | .movSregRm64 _ _ _ => false
  | .movAlMoffs8 _ _ | .movAlMoffs8RexW _ _ | .movAxMoffs16 _ _ | .movEaxMoffs32 _ _ | .movRaxMoffs64 _ _ => false
  | .movMoffs8Al _ _ | .movMoffs8AlRexW _ _ | .movMoffs16Ax _ _ | .movMoffs32Eax _ _ | .movMoffs64Rax _ _ => false
  | .movR8Imm8 _ _ _ | .movR8Imm8Rex _ _ _ | .movR16Imm16 _ _ _ | .movR32Imm32 _ _ _ | .movR64Imm64 _ _ _ => false
  | .movRm8Imm8 _ _ _ | .movRm8Imm8Rex _ _ _ | .movRm16Imm16 _ _ _ | .movRm32Imm32 _ _ _ => false
  | .movRm64Imm32 _ _ _ => false
  | .movR32Dr _ _ _ _ | .movR64Dr _ _ _ _ | .movDrR32 _ _ _ _ | .movDrR64 _ _ _ _ => false

end Sys2Proof.Machine
end

