-- ==== Sys2Proof/Machine/DataMoves.lean ====
section
/-! DEFINITION. MOV between general registers and memory, opcodes 88 to 8B (40_mov_data.md R160 to R174). Memory faults come from
the operand (R162), #UD for LOCK and the advance of `pc` from `complete` (R163); no flag is touched. -/

namespace Sys2Proof.Machine

/-- Row 1, R165: MOV r/m8, r8; byte numbers 4 to 7 are AH, CH, DH, BH. -/
def execMovRm8R8 (p : Pfx) (rm : RmOp) (g : Gpr) (s : State) : Outcome :=
  let len := instrLength (.movRm8R8 p rm g)
  complete p len s (s.writeRm p len .b8 false rm (s.readReg .b8 false g))

/-- Row 2, R166: MOV r/m8, r8 with REX; byte numbers 4 to 7 are SPL, BPL, SIL, DIL. -/
def execMovRm8R8Rex (p : Pfx) (rm : RmOp) (g : Gpr) (s : State) : Outcome :=
  let len := instrLength (.movRm8R8Rex p rm g)
  complete p len s (s.writeRm p len .b8 true rm (s.readReg .b8 true g))

/-- Row 3, R167: MOV r/m16, r16. -/
def execMovRm16R16 (p : Pfx) (rm : RmOp) (g : Gpr) (s : State) : Outcome :=
  let len := instrLength (.movRm16R16 p rm g)
  complete p len s (s.writeRm p len .b16 p.hasRex rm (s.readReg .b16 p.hasRex g))

/-- Row 4, R168: MOV r/m32, r32. -/
def execMovRm32R32 (p : Pfx) (rm : RmOp) (g : Gpr) (s : State) : Outcome :=
  let len := instrLength (.movRm32R32 p rm g)
  complete p len s (s.writeRm p len .b32 p.hasRex rm (s.readReg .b32 p.hasRex g))

/-- Row 5, R169: MOV r/m64, r64. -/
def execMovRm64R64 (p : Pfx) (rm : RmOp) (g : Gpr) (s : State) : Outcome :=
  let len := instrLength (.movRm64R64 p rm g)
  complete p len s (s.writeRm p len .b64 p.hasRex rm (s.readReg .b64 p.hasRex g))

/-- Row 6, R170: MOV r8, r/m8; byte numbers 4 to 7 are AH, CH, DH, BH. -/
def execMovR8Rm8 (p : Pfx) (g : Gpr) (rm : RmOp) (s : State) : Outcome :=
  let len := instrLength (.movR8Rm8 p g rm)
  complete p len s (s.loadRm p len .b8 false g rm)

/-- Row 7, R171: MOV r8, r/m8 with REX; byte numbers 4 to 7 are SPL, BPL, SIL, DIL. -/
def execMovR8Rm8Rex (p : Pfx) (g : Gpr) (rm : RmOp) (s : State) : Outcome :=
  let len := instrLength (.movR8Rm8Rex p g rm)
  complete p len s (s.loadRm p len .b8 true g rm)

/-- Row 8, R172: MOV r16, r/m16. -/
def execMovR16Rm16 (p : Pfx) (g : Gpr) (rm : RmOp) (s : State) : Outcome :=
  let len := instrLength (.movR16Rm16 p g rm)
  complete p len s (s.loadRm p len .b16 p.hasRex g rm)

/-- Row 9, R173: MOV r32, r/m32. -/
def execMovR32Rm32 (p : Pfx) (g : Gpr) (rm : RmOp) (s : State) : Outcome :=
  let len := instrLength (.movR32Rm32 p g rm)
  complete p len s (s.loadRm p len .b32 p.hasRex g rm)

/-- Row 10, R174: MOV r64, r/m64. -/
def execMovR64Rm64 (p : Pfx) (g : Gpr) (rm : RmOp) (s : State) : Outcome :=
  let len := instrLength (.movR64Rm64 p g rm)
  complete p len s (s.loadRm p len .b64 p.hasRex g rm)

end Sys2Proof.Machine
end

