-- ==== Sys2Proof/Machine/DrMoves.lean ====
section
/-! DEFINITION. MOV from and to debug registers, opcodes 0F 21 and 0F 23 (43_mov_dr.md). -/

namespace Sys2Proof.Machine

/-- CR4.DE, which counts as clear on a processor without CR4 (R293, 10_state.md R44). -/
def State.debugExtensions (s : State) : Bool := s.params.hasCr4 && cr4DE s.cr.cr4

/-- `DrIndex(n)`: DR4 and DR5 are other names of DR6 and DR7 (10_state.md R49). -/
def drIndex : DrNum → DrReg
  | .dr0 => .dr0
  | .dr1 => .dr1
  | .dr2 => .dr2
  | .dr3 => .dr3
  | .dr4 => .dr6
  | .dr5 => .dr7
  | .dr6 => .dr6
  | .dr7 => .dr7

/-- The tests before the move, in the order of R304: #UD for REX.R (R295) and for DR4 and DR5 with CR4.DE set (R293),
#GP(0) for privilege (R305), #DB for general detect (R294). -/
def State.drGuard (s : State) (p : Pfx) (d : DrNum) : Except Stop DrReg :=
  if s.long64 && p.rexR then raise s .ud .none
  else if (d == .dr4 || d == .dr5) && s.debugExtensions then raise s .ud .none
  else if !s.privileged then raise s .gp (.code 0)
  else if dr7GD s.dr.dr7 then raise s .db .none
  else .ok (drIndex d)

/-- `DrStored(i, v)`: the value itself, unless a rule of the parameter speaks of it (R301; log 19). -/
def drStored (q : Params) (r : DrReg) (v : Word) : Word :=
  match q.drRules.find? (fun x => x.reg == r && patternHolds x.value v) with
  | none => v
  | some x => (v &&& x.keep) ||| x.set

/-- A read of a debug register to a general register of the width; the flags become undefined (R300, R302). -/
def State.readDr (s : State) (p : Pfx) (w : Width) (g : Gpr) (d : DrNum) : Except Stop State :=
  (s.drGuard p d).map fun r => (s.writeReg w false g (s.dr.get r)).undefineFlags

/-- Does a write fault in LONG64: a 1 in bits 63:32 of DR6 or DR7 (R301)? -/
def State.drRefused (s : State) (r : DrReg) (v : Word) : Bool :=
  s.long64 && (r == .dr6 || r == .dr7) && v.extractLsb' 32 32 != 0#32

/-- A write of a debug register from a general register of the width; the flags become undefined (R301, R302). -/
def State.writeDr (s : State) (p : Pfx) (w : Width) (d : DrNum) (g : Gpr) : Except Stop State :=
  (s.drGuard p d).bind fun r =>
    if s.drRefused r (s.readReg w false g) then raise s .gp (.code 0)
    else .ok ({ s with dr := s.dr.set r (drStored s.params r (s.readReg w false g)) } : State).undefineFlags

/-- Row 42, R296: MOV r32, DR0-DR7. -/
def execMovR32Dr (p : Pfx) (m : BitVec 2) (g : Gpr) (d : DrNum) (s : State) : Outcome :=
  complete p (instrLength (.movR32Dr p m g d)) s (s.readDr p .b32 g d)

/-- Row 43, R297: MOV r64, DR0-DR7. -/
def execMovR64Dr (p : Pfx) (m : BitVec 2) (g : Gpr) (d : DrNum) (s : State) : Outcome :=
  complete p (instrLength (.movR64Dr p m g d)) s (s.readDr p .b64 g d)

/-- Row 44, R298: MOV DR0-DR7, r32. -/
def execMovDrR32 (p : Pfx) (m : BitVec 2) (d : DrNum) (g : Gpr) (s : State) : Outcome :=
  complete p (instrLength (.movDrR32 p m d g)) s (s.writeDr p .b32 d g)

/-- Row 45, R299: MOV DR0-DR7, r64. -/
def execMovDrR64 (p : Pfx) (m : BitVec 2) (d : DrNum) (g : Gpr) (s : State) : Outcome :=
  complete p (instrLength (.movDrR64 p m d g)) s (s.writeDr p .b64 d g)

end Sys2Proof.Machine
end

