-- ==== Sys2Proof/Machine/ImmMoves.lean ====
section
/-! DEFINITION. MOV of an immediate to a register or to an r/m operand, opcodes B0 to BF, C6, C7 (40_mov_data.md R185 to R194). -/

namespace Sys2Proof.Machine

/-- Row 26, R185: MOV r8, imm8; numbers 4 to 7 are AH, CH, DH, BH. -/
def execMovR8Imm8 (p : Pfx) (g : Gpr) (imm : Byte) (s : State) : Outcome :=
  complete p (instrLength (.movR8Imm8 p g imm)) s (.ok (s.writeReg .b8 false g (imm.setWidth 64)))

/-- Row 27, R186: MOV r8, imm8 with REX; numbers 4 to 7 are SPL, BPL, SIL, DIL. -/
def execMovR8Imm8Rex (p : Pfx) (g : Gpr) (imm : Byte) (s : State) : Outcome :=
  complete p (instrLength (.movR8Imm8Rex p g imm)) s (.ok (s.writeReg .b8 true g (imm.setWidth 64)))

/-- Row 28, R187: MOV r16, imm16. -/
def execMovR16Imm16 (p : Pfx) (g : Gpr) (imm : Half) (s : State) : Outcome :=
  complete p (instrLength (.movR16Imm16 p g imm)) s (.ok (s.writeReg .b16 p.hasRex g (imm.setWidth 64)))

/-- Row 29, R188: MOV r32, imm32; not sign-extended. -/
def execMovR32Imm32 (p : Pfx) (g : Gpr) (imm : Dword) (s : State) : Outcome :=
  complete p (instrLength (.movR32Imm32 p g imm)) s (.ok (s.writeReg .b32 p.hasRex g (imm.setWidth 64)))

/-- Row 30, R189: MOV r64, imm64. -/
def execMovR64Imm64 (p : Pfx) (g : Gpr) (imm : Word) (s : State) : Outcome :=
  complete p (instrLength (.movR64Imm64 p g imm)) s (.ok (s.writeReg .b64 p.hasRex g imm))

/-- Row 31, R190: MOV r/m8, imm8. -/
def execMovRm8Imm8 (p : Pfx) (rm : RmOp) (imm : Byte) (s : State) : Outcome :=
  let len := instrLength (.movRm8Imm8 p rm imm)
  complete p len s (s.writeRm p len .b8 false rm (imm.setWidth 64))

/-- Row 32, R191: MOV r/m8, imm8 with REX. -/
def execMovRm8Imm8Rex (p : Pfx) (rm : RmOp) (imm : Byte) (s : State) : Outcome :=
  let len := instrLength (.movRm8Imm8Rex p rm imm)
  complete p len s (s.writeRm p len .b8 true rm (imm.setWidth 64))

/-- Row 33, R192: MOV r/m16, imm16. -/
def execMovRm16Imm16 (p : Pfx) (rm : RmOp) (imm : Half) (s : State) : Outcome :=
  let len := instrLength (.movRm16Imm16 p rm imm)
  complete p len s (s.writeRm p len .b16 p.hasRex rm (imm.setWidth 64))

/-- Row 34, R193: MOV r/m32, imm32. -/
def execMovRm32Imm32 (p : Pfx) (rm : RmOp) (imm : Dword) (s : State) : Outcome :=
  let len := instrLength (.movRm32Imm32 p rm imm)
  complete p len s (s.writeRm p len .b32 p.hasRex rm (imm.setWidth 64))

/-- Row 35, R194: MOV r/m64, imm32, the immediate sign-extended to 64 bits. -/
def execMovRm64Imm32 (p : Pfx) (rm : RmOp) (imm : Dword) (s : State) : Outcome :=
  let len := instrLength (.movRm64Imm32 p rm imm)
  complete p len s (s.writeRm p len .b64 p.hasRex rm (imm.signExtend 64))

end Sys2Proof.Machine
end

