-- ==== Sys2Proof/Machine/MoffsMoves.lean ====
section
/-! DEFINITION. MOV between the accumulator and a direct memory offset, opcodes A0 to A3 (40_mov_data.md R175 to R184). -/

namespace Sys2Proof.Machine

/-- Row 16, R175: MOV AL, moffs8. -/
def execMovAlMoffs8 (p : Pfx) (o : Moffs) (s : State) : Outcome :=
  complete p (instrLength (.movAlMoffs8 p o)) s (s.loadMoffs p .b8 o)

/-- Row 17, R176: MOV AL, moffs8 with REX.W, still one byte. -/
def execMovAlMoffs8RexW (p : Pfx) (o : Moffs) (s : State) : Outcome :=
  complete p (instrLength (.movAlMoffs8RexW p o)) s (s.loadMoffs p .b8 o)

/-- Row 18, R177: MOV AX, moffs16. -/
def execMovAxMoffs16 (p : Pfx) (o : Moffs) (s : State) : Outcome :=
  complete p (instrLength (.movAxMoffs16 p o)) s (s.loadMoffs p .b16 o)

/-- Row 19, R178: MOV EAX, moffs32. -/
def execMovEaxMoffs32 (p : Pfx) (o : Moffs) (s : State) : Outcome :=
  complete p (instrLength (.movEaxMoffs32 p o)) s (s.loadMoffs p .b32 o)

/-- Row 20, R179: MOV RAX, moffs64. -/
def execMovRaxMoffs64 (p : Pfx) (o : Moffs) (s : State) : Outcome :=
  complete p (instrLength (.movRaxMoffs64 p o)) s (s.loadMoffs p .b64 o)

/-- Row 21, R180: MOV moffs8, AL. -/
def execMovMoffs8Al (p : Pfx) (o : Moffs) (s : State) : Outcome :=
  complete p (instrLength (.movMoffs8Al p o)) s (s.storeMoffs p .b8 o)

/-- Row 22, R181: MOV moffs8, AL with REX.W, still one byte. -/
def execMovMoffs8AlRexW (p : Pfx) (o : Moffs) (s : State) : Outcome :=
  complete p (instrLength (.movMoffs8AlRexW p o)) s (s.storeMoffs p .b8 o)

/-- Row 23, R182: MOV moffs16, AX. -/
def execMovMoffs16Ax (p : Pfx) (o : Moffs) (s : State) : Outcome :=
  complete p (instrLength (.movMoffs16Ax p o)) s (s.storeMoffs p .b16 o)

/-- Row 24, R183: MOV moffs32, EAX. -/
def execMovMoffs32Eax (p : Pfx) (o : Moffs) (s : State) : Outcome :=
  complete p (instrLength (.movMoffs32Eax p o)) s (s.storeMoffs p .b32 o)

/-- Row 25, R184: MOV moffs64, RAX. -/
def execMovMoffs64Rax (p : Pfx) (o : Moffs) (s : State) : Outcome :=
  complete p (instrLength (.movMoffs64Rax p o)) s (s.storeMoffs p .b64 o)

end Sys2Proof.Machine
end

