-- ==== Sys2Proof/Machine/Segments.lean ====
section
/-! DEFINITION. Descriptors, `DescLookup` and the segment-load algorithm (10_state.md R33 to R36, R59;
41_mov_sreg.md R205 to R220). -/

namespace Sys2Proof.Machine

/-! ### Selectors (10_state.md R33) -/

def selRpl (sel : Half) : BitVec 2 := sel.extractLsb' 0 2
def selTi (sel : Half) : Bool := sel.getLsbD 2
def selIndex (sel : Half) : Nat := (sel.extractLsb' 3 13).toNat

/-- "NULL segment selector (values 0000-0003)". -/
def selNull (sel : Half) : Bool := sel.extractLsb' 2 14 == 0#14

/-- The error code `selector`: the two RPL bits replaced by 0 (60_exceptions.md R321). -/
def selCode (sel : Half) : ExcInfo := .code (sel &&& 0xFFFC#16).toNat

/-! ### Descriptors (10_state.md R59) -/

/-- The base of a descriptor, zero-extended. -/
def descBase (d : Word) : Word := (d.extractLsb' 56 8 ++ d.extractLsb' 16 24 : BitVec 32).setWidth 64

/-- The limit and attributes of a descriptor. -/
def descAttr (d : Word) : SegAttr where
  limit := d.extractLsb' 48 4 ++ d.extractLsb' 0 16
  typ := d.extractLsb' 40 4
  s := d.getLsbD 44
  dpl := d.extractLsb' 45 2
  present := d.getLsbD 47
  avl := d.getLsbD 52
  l := d.getLsbD 53
  db := d.getLsbD 54
  g := d.getLsbD 55

/-- `Desc(d)` (10_state.md R34). -/
def Hidden.ofDesc (d : Word) : Hidden := { kind := .desc, base := descBase d, attr := descAttr d }

/-- What `DescLookup` answers (10_state.md R36); a descriptor found comes with the physical addresses of its bytes. -/
inductive DescAnswer where
  | outsideLimit
  | nonCanonical
  | pageFault (code : Nat)
  | found (d : Word) (pas : List Nat)
  deriving DecidableEq, Repr

/-- The base and limit of the table a selector refers to; none where no valid LDT is loaded (10_state.md R59). -/
def State.tableOf (s : State) (sel : Half) : Option (Word × Nat) :=
  if selTi sel then
    if s.ldtr.valid then some (s.ldtr.base, s.ldtr.limit.toNat) else none
  else some (s.gdtr.base, s.gdtr.limit.toNat)

/-- The linear addresses of the descriptor of a selector (10_state.md R59; log 20). -/
def State.descBytes (s : State) (base : Word) (sel : Half) : List Nat :=
  s.linearBytes ((base.toNat + 8 * selIndex sel) % s.linearSpace) 8

/-- `DescLookup(state, sel)` (10_state.md R36), over the tables in memory (R59; log 20), whose bytes must
exist (20_memory.md R91). The limit is tested first (41_mov_sreg.md R220). -/
def State.descLookup (s : State) (sel : Half) : Except Stop DescAnswer :=
  match s.tableOf sel with
  | none => .ok .outsideLimit
  | some (base, limit) =>
    if 8 * selIndex sel + 7 > limit then .ok .outsideLimit
    else if s.long64 && !(s.descBytes base sel).all (canonical s.params.vaBits) then .ok .nonCanonical
    else
      match s.translate .table (s.descBytes base sel) with
      | .error code => .ok (.pageFault code)
      | .ok pas =>
        (s.checkOwned pas).bind fun _ =>
          (readBytes s.mem pas).map fun bs => .found (BitVec.ofNat 64 (leValue bs)) pas

/-! ### Loading (41_mov_sreg.md R210 to R216) -/

/-- A completed load of a segment register: both parts are written, and a load of SS sets `inhibit` (R32, R215). -/
def State.loaded (s : State) (r : Sreg) (sel : Half) (hid : Hidden) : State :=
  { s with seg := s.seg.set r { sel := sel, hid := hid }, inhibit := s.inhibit || r == .ss }

/-- Setting the Accessed bit of the descriptor in memory if it was clear (10_state.md R59; log 21). -/
def State.setAccessed (s : State) (d : Word) (pas : List Nat) : State :=
  if d.getLsbD 40 then s else s.store [pas.getD 5 0] [d.extractLsb' 40 8 ||| 1#8]

/-- A completed load from a descriptor (R211 (4), R213 (3)). -/
def State.loadedDesc (s : State) (r : Sreg) (sel : Half) (d : Word) (pas : List Nat) : State :=
  (s.setAccessed d pas).loaded r sel (Hidden.ofDesc d)

/-- A NULL load (R212 (1), R214): the hidden part becomes `NullSeg`. What it leaves in the base and the attributes
behind that is not in the source: free values (log 23). -/
def State.loadedNull (s : State) (r : Sreg) (sel : Half) : State :=
  let t := s.loaded r sel
    { kind := .null, base := Config.draw s.draws, attr := descAttr (Config.draw (s.draws + 1)) }
  { t with draws := s.draws + 2 }

/-- A load in REAL mode (R216): base selector × 16, the limit and attributes keep their earlier values. -/
def State.loadedReal (s : State) (r : Sreg) (sel : Half) : State :=
  s.loaded r sel { kind := .real, base := sel.setWidth 64 <<< 4, attr := (s.seg.get r).hid.attr }

/-- The attributes after a load in V86 mode: the limit is FFFFh (R216), the other attributes are free (log 24). -/
def v86Attr (d : Word) : SegAttr :=
  { descAttr d with limit := 0xFFFF#20, g := false, typ := (descAttr d).typ &&& 0b1011#4 }

/-- A load in V86 mode (R216): base selector × 16, limit FFFFh. -/
def State.loadedV86 (s : State) (r : Sreg) (sel : Half) : State :=
  let t := s.loaded r sel { kind := .real, base := sel.setWidth 64 <<< 4, attr := v86Attr (Config.draw s.draws) }
  { t with draws := s.draws + 1 }

/-- The group of tests that give #GP(selector) for SS (R211 (2)). -/
def ssDescBad (s : State) (sel : Half) (d : SegAttr) : Bool :=
  selRpl sel != s.cpl || !(d.isData && d.writable) || d.dpl != s.cpl

/-- The group of tests that give #GP(selector) for DS, ES, FS, GS (R213 (1)). -/
def dataDescBad (s : State) (sel : Half) (d : SegAttr) : Bool :=
  !(d.isData || (d.isCode && d.readable)) ||
  ((d.isData || (d.isCode && !d.conforming)) &&
    (decide (d.dpl.toNat < (selRpl sel).toNat) || decide (d.dpl.toNat < s.cpl.toNat)))

/-- Loading with a descriptor (R210, R211 (2) to (4), R213). -/
def State.loadDescriptor (s : State) (r : Sreg) (sel : Half) : Except Stop State :=
  (s.descLookup sel).bind fun a =>
    match a with
    | .pageFault code => raise s .pf (.code code)
    | .outsideLimit => raise s .gp (selCode sel)
    | .nonCanonical => raise s .gp (selCode sel)
    | .found d pas =>
      if r == .ss then
        if ssDescBad s sel (descAttr d) then raise s .gp (selCode sel)
        else if !(descAttr d).present then raise s .ss (selCode sel)
        else .ok (s.loadedDesc r sel d pas)
      else if dataDescBad s sel (descAttr d) then raise s .gp (selCode sel)
      else if !(descAttr d).present then raise s .np (selCode sel)
      else .ok (s.loadedDesc r sel d pas)

/-- May SS be loaded with this NULL selector: in LONG64 only, at a CPL below 3 equal to its RPL (R211 (1), R212 (1))? -/
def State.ssNullAllowed (s : State) (sel : Half) : Bool := s.long64 && s.cpl != 3#2 && selRpl sel == s.cpl

/-- `LoadSreg(S, sel)` (41_mov_sreg.md R210). -/
def State.loadSreg (s : State) (r : Sreg) (sel : Half) : Except Stop State :=
  match s.mode with
  | .real => .ok (s.loadedReal r sel)
  | .v86 => .ok (s.loadedV86 r sel)
  | .prot | .compat | .long64 =>
    if selNull sel then
      if r == .ss && !s.ssNullAllowed sel then raise s .gp (.code 0)
      else .ok (s.loadedNull r sel)
    else s.loadDescriptor r sel

end Sys2Proof.Machine
end

