-- ==== Sys2Proof/Machine/SregMoves.lean ====
section
/-! DEFINITION. MOV from and to segment registers, opcodes 8C and 8E (41_mov_sreg.md). No flag is touched (R200). -/

namespace Sys2Proof.Machine

/-- The segment register of a reg field; numbers 6 and 7 raise #UD (R209). -/
def State.sregOf (s : State) : SregField → Except Stop Sreg
  | .reg r => .ok r
  | .num6 => raise s .ud .none
  | .num7 => raise s .ud .none

/-- Bits 63:0 that a 32-bit register destination takes of a selector (R219): zero-extended, or with bits 31:16 unknown
where `SREG_UPPER_ZERO` is false, which it never is with `HAS_INTEL64` (log 14). -/
def State.selectorWord (s : State) (sel : Half) : Word :=
  if s.params.sregUpperZero || s.params.hasIntel64 then sel.setWidth 64
  else ((Config.draw s.draws).extractLsb' 0 16 ++ sel : BitVec 32).setWidth 64

/-- The state after a selector is written to a 32-bit register (R219); the free value of bits 31:16 is used up. -/
def State.writeSelector32 (s : State) (r : Gpr) (sel : Half) : State :=
  let t := s.writeReg .b32 false r (s.selectorWord sel)
  { t with draws := t.draws + if s.params.sregUpperZero || s.params.hasIntel64 then 0 else 1 }

/-- Store a selector: always two bytes in memory (R201); a register destination is written as `toReg` says. -/
def State.storeSelector (s : State) (p : Pfx) (len : Nat) (rm : RmOp) (f : SregField)
    (toReg : Gpr → Half → State) : Except Stop State :=
  (s.sregOf f).bind fun r =>
    match rm with
    | .reg g => .ok (toReg g (s.seg.get r).sel)
    | .mem m => s.logWrite (s.memSeg p m) (s.effAddr p len m) 2 ((s.seg.get r).sel.setWidth 64)

/-- Row 11, R202: MOV r/m16, Sreg; bits above 15 of a register stay. -/
def execMovRm16Sreg (p : Pfx) (rm : RmOp) (f : SregField) (s : State) : Outcome :=
  let len := instrLength (.movRm16Sreg p rm f)
  complete p len s (s.storeSelector p len rm f fun g sel => s.writeReg .b16 false g (sel.setWidth 64))

/-- Row 12, R203: MOV r32/m16, Sreg; a register is written by R219. -/
def execMovR32M16Sreg (p : Pfx) (rm : RmOp) (f : SregField) (s : State) : Outcome :=
  let len := instrLength (.movR32M16Sreg p rm f)
  complete p len s (s.storeSelector p len rm f fun g sel => s.writeSelector32 g sel)

/-- Row 13, R204: MOV r64/m16, Sreg; a register takes the selector zero-extended. -/
def execMovR64M16Sreg (p : Pfx) (rm : RmOp) (f : SregField) (s : State) : Outcome :=
  let len := instrLength (.movR64M16Sreg p rm f)
  complete p len s (s.storeSelector p len rm f fun g sel => s.writeReg .b64 false g (sel.setWidth 64))

/-- The selector to be loaded: bits 15:0 of a register, or of `n` bytes of memory (R205). -/
def State.readSelector (s : State) (p : Pfx) (len n : Nat) : RmOp → Except Stop Half
  | .reg g => .ok ((s.gpr.get g).extractLsb' 0 16)
  | .mem m => (s.logRead (s.memSeg p m) (s.effAddr p len m) n).map fun v => v.extractLsb' 0 16

/-- #UD for CS (R208) and for numbers 6 and 7 (R209), then the source operand, then the load (R205, R206, R220). -/
def State.loadSelector (s : State) (p : Pfx) (len n : Nat) (f : SregField) (rm : RmOp) : Except Stop State :=
  (s.sregOf f).bind fun r =>
    if r == .cs then raise s .ud .none
    else (s.readSelector p len n rm).bind fun sel => s.loadSreg r sel

/-- Row 14, R206: MOV Sreg, r/m16. -/
def execMovSregRm16 (p : Pfx) (f : SregField) (rm : RmOp) (s : State) : Outcome :=
  let len := instrLength (.movSregRm16 p f rm)
  complete p len s (s.loadSelector p len 2 f rm)

/-- `SREG_LOAD_MEM_WIDTH_REXW` (R207; log 41). -/
def State.sregLoadWidth (s : State) : Nat := if s.params.sregLoadRexwReads8 then 8 else 2

/-- Row 15, R207: MOV Sreg, r/m64; the lower 16 bits count. -/
def execMovSregRm64 (p : Pfx) (f : SregField) (rm : RmOp) (s : State) : Outcome :=
  let len := instrLength (.movSregRm64 p f rm)
  complete p len s (s.loadSelector p len s.sregLoadWidth f rm)

end Sys2Proof.Machine
end

