-- ==== Sys2Proof/Machine/Dispatch.lean ====
section
/-! DEFINITION. One arm per instruction, each a direct call of its meaning. -/

namespace Sys2Proof.Machine

def exec (i : Instr) (s : State) : Host.Outcome State Fault Refusal :=
  match i with
  | .movRm8R8 p rm g => Sys2Proof.Machine.execMovRm8R8 p rm g s
  | .movRm8R8Rex p rm g => Sys2Proof.Machine.execMovRm8R8Rex p rm g s
  | .movRm16R16 p rm g => Sys2Proof.Machine.execMovRm16R16 p rm g s
  | .movRm32R32 p rm g => Sys2Proof.Machine.execMovRm32R32 p rm g s
  | .movRm64R64 p rm g => Sys2Proof.Machine.execMovRm64R64 p rm g s
  | .movR8Rm8 p g rm => Sys2Proof.Machine.execMovR8Rm8 p g rm s
  | .movR8Rm8Rex p g rm => Sys2Proof.Machine.execMovR8Rm8Rex p g rm s
  | .movR16Rm16 p g rm => Sys2Proof.Machine.execMovR16Rm16 p g rm s
  | .movR32Rm32 p g rm => Sys2Proof.Machine.execMovR32Rm32 p g rm s
  | .movR64Rm64 p g rm => Sys2Proof.Machine.execMovR64Rm64 p g rm s
  | .movRm16Sreg p rm f => Sys2Proof.Machine.execMovRm16Sreg p rm f s
  | .movR32M16Sreg p rm f => Sys2Proof.Machine.execMovR32M16Sreg p rm f s
  | .movR64M16Sreg p rm f => Sys2Proof.Machine.execMovR64M16Sreg p rm f s
  | .movSregRm16 p f rm => Sys2Proof.Machine.execMovSregRm16 p f rm s
  | .movSregRm64 p f rm => Sys2Proof.Machine.execMovSregRm64 p f rm s
  | .movAlMoffs8 p o => Sys2Proof.Machine.execMovAlMoffs8 p o s
  | .movAlMoffs8RexW p o => Sys2Proof.Machine.execMovAlMoffs8RexW p o s
  | .movAxMoffs16 p o => Sys2Proof.Machine.execMovAxMoffs16 p o s
  | .movEaxMoffs32 p o => Sys2Proof.Machine.execMovEaxMoffs32 p o s
  | .movRaxMoffs64 p o => Sys2Proof.Machine.execMovRaxMoffs64 p o s
  | .movMoffs8Al p o => Sys2Proof.Machine.execMovMoffs8Al p o s
  | .movMoffs8AlRexW p o => Sys2Proof.Machine.execMovMoffs8AlRexW p o s
  | .movMoffs16Ax p o => Sys2Proof.Machine.execMovMoffs16Ax p o s
  | .movMoffs32Eax p o => Sys2Proof.Machine.execMovMoffs32Eax p o s
  | .movMoffs64Rax p o => Sys2Proof.Machine.execMovMoffs64Rax p o s
  | .movR8Imm8 p g imm => Sys2Proof.Machine.execMovR8Imm8 p g imm s
  | .movR8Imm8Rex p g imm => Sys2Proof.Machine.execMovR8Imm8Rex p g imm s
  | .movR16Imm16 p g imm => Sys2Proof.Machine.execMovR16Imm16 p g imm s
  | .movR32Imm32 p g imm => Sys2Proof.Machine.execMovR32Imm32 p g imm s
  | .movR64Imm64 p g imm => Sys2Proof.Machine.execMovR64Imm64 p g imm s
  | .movRm8Imm8 p rm imm => Sys2Proof.Machine.execMovRm8Imm8 p rm imm s
  | .movRm8Imm8Rex p rm imm => Sys2Proof.Machine.execMovRm8Imm8Rex p rm imm s
  | .movRm16Imm16 p rm imm => Sys2Proof.Machine.execMovRm16Imm16 p rm imm s
  | .movRm32Imm32 p rm imm => Sys2Proof.Machine.execMovRm32Imm32 p rm imm s
  | .movRm64Imm32 p rm imm => Sys2Proof.Machine.execMovRm64Imm32 p rm imm s
  | .movR32Cr p m g c => Sys2Proof.Machine.execMovR32Cr p m g c s
  | .movR64Cr p m g c => Sys2Proof.Machine.execMovR64Cr p m g c s
  | .movR64Cr8 p m g c => Sys2Proof.Machine.execMovR64Cr8 p m g c s
  | .movCrR32 p m c g => Sys2Proof.Machine.execMovCrR32 p m c g s
  | .movCrR64 p m c g => Sys2Proof.Machine.execMovCrR64 p m c g s
  | .movCr8R64 p m c g => Sys2Proof.Machine.execMovCr8R64 p m c g s
  | .movR32Dr p m g d => Sys2Proof.Machine.execMovR32Dr p m g d s
  | .movR64Dr p m g d => Sys2Proof.Machine.execMovR64Dr p m g d s
  | .movDrR32 p m d g => Sys2Proof.Machine.execMovDrR32 p m d g s
  | .movDrR64 p m d g => Sys2Proof.Machine.execMovDrR64 p m d g s

end Sys2Proof.Machine
end

