-- ==== Sys2Proof/Machine/Fetch.lean ====
section
/-! DEFINITION. Instruction fetch (20_memory.md R100, R98; 10_state.md R28; 30_encoding.md R137), what happens at an
instruction boundary (60_exceptions.md R334, R335), and placing an instruction where the next fetch reads it. -/

namespace Sys2Proof.Machine

/-- The physical address of instruction byte `k`, at CS:pc+k (20_memory.md R100): none where the byte is outside the
code-segment limit or the reach of `pc`, not canonical, or page-faults (log 29, log 30). -/
def State.fetchAddr (s : State) (k : Nat) : Option Nat :=
  let off := s.pc.toNat + k
  let lin := s.linear .cs (BitVec.ofNat 64 off)
  if (if s.long64 then decide (off < 2 ^ 64) && canonical s.params.vaBits lin
      else s.seg.cs.hid.attr.inLimit off 1 && decide (off < if s.default32 then 2 ^ 32 else 2 ^ 16)) then
    (s.translateByte .fetch lin).toOption
  else none

/-- Instruction byte `k`: supplied, of a byte that exists, and not written by a MOV of this run (20_memory.md R98, R100). -/
def State.fetchByte (s : State) (k : Nat) : Except Refusal Byte :=
  match s.fetchAddr k with
  | none => .error (.fetch s.pc)
  | some a =>
    if s.stored.contains a then .error (.selfModified a)
    else if !s.owns a then .error (.fetch s.pc)
    else
      match memGet s.mem a with
      | none => .error (.fetch s.pc)
      | some b => .ok b

/-- Up to `n` instruction bytes from byte `k` on, and why there are no more (log 29). -/
def State.fetchBytes (s : State) : Nat → Nat → List Byte × Option Refusal
  | 0, _ => ([], none)
  | n + 1, k =>
    match s.fetchByte k with
    | .error r => ([], some r)
    | .ok b => (b :: (s.fetchBytes n (k + 1)).1, (s.fetchBytes n (k + 1)).2)

/-- The instruction at CS:pc (30_encoding.md R141): at most 15 bytes are read (R137). Where the decoder needs a byte
that is not supplied, the reason is that byte's; where it needs a sixteenth, the instruction is too long. -/
def State.fetchInstr (s : State) : Except Refusal Instr :=
  match decode s.env (s.fetchBytes 15 0).1 with
  | .ok r =>
    if s.long64 && decide (2 ^ 64 ≤ s.pc.toNat + instrLength r.1) then .error (.pcPastTop s.pc) else .ok r.1
  | .error .truncated =>
    match (s.fetchBytes 15 0).2 with
    | some r => .error r
    | none => .error (.notAMov .tooLong s.pc)
  | .error why => .error (.notAMov why s.pc)

/-- The event delivered at the boundary before the next instruction, if the environment offers one and it is not
suppressed (60_exceptions.md R334, R335; 41_mov_sreg.md R215). -/
def State.delivered (s : State) : Option Fault :=
  match s.offers with
  | some .interrupt :: _ => if s.inhibit then none else some (.interrupted s.pc)
  | some (.debug k) :: _ =>
    if s.inhibit && s.params.debugSuppressed.contains k then none else some (.debugEvent k s.pc)
  | _ => none

/-- Past the boundary: the offer is used up, and `inhibit` ends with the instruction that now executes, unless that
instruction is itself a completed load of SS (60_exceptions.md R335). -/
def State.enter (s : State) : State := { s with inhibit := false, offers := s.offers.tail }

/-- Put a byte where instruction byte `k` is fetched, existing and not marked as written by a MOV. -/
def State.placeByte (s : State) (k : Nat) (b : Byte) : State :=
  match s.fetchAddr k with
  | none => s
  | some a =>
    { s with
      mem := memSet s.mem a b
      owned := if s.owns a then s.owned else { first := a, count := 1 } :: s.owned
      stored := s.stored.filter (· != a) }

/-- Put bytes where instruction bytes `k` and on are fetched. -/
def State.placeBytes (s : State) : Nat → List Byte → State
  | _, [] => s
  | k, b :: bs => (s.placeByte k b).placeBytes (k + 1) bs

/-- A run in which nothing stands before the next fetch: not ended, no event offered (log 1). -/
def State.ready (s : State) : State := { s with modeChanged := false, offers := [] }

end Sys2Proof.Machine
end

