-- ==== Sys2Proof/Machine/Step.lean ====
section
/-! DEFINITION. One step: the boundary, the fetch, the instruction (60_exceptions.md R335, 20_memory.md R100,
70_reset_and_hazards.md R371). -/

namespace Sys2Proof.Machine

/-- One step. A run that ended by a mode change goes no further (42_mov_cr.md R262); an event delivered at the boundary
ends it (60_exceptions.md R334); otherwise the instruction at CS:pc executes, past the boundary (R335). -/
def step (s : State) : Host.Outcome State Fault Refusal :=
  if s.modeChanged then .refused (.modeChange s.pc)
  else
    match s.delivered with
    | some f => .fault f
    | none =>
      match s.enter.fetchInstr with
      | .error r => .refused r
      | .ok i => exec i s.enter

/-- The state with the instruction of a table word, zeros after it, placed where the next fetch reads (log 1, log 33). -/
def State.withFetchWord (s : State) (nbits w : Nat) : State := s.ready.placeBytes 0 (tableBytes nbits w)

end Sys2Proof.Machine
end

