-- ==== Sys2Proof/Safety.lean ====
section
/-! DEFINITION. What claims about runs are stated in: which parameters and launch states the spec admits
(70_reset_and_hazards.md R361), what every step keeps, and what an instruction changed and what it left alone. -/

namespace Sys2Proof.Machine

/-! ### Parameters and launch states -/

/-- Parameters the spec admits: the named fields of CR0 are not reserved (10_state.md R41), what a debug register keeps
of a write does not set bits 63:32 of DR6 or DR7 (R50, R51), nor of any register without `HAS_INTEL64` (R48), a linear
address has 1 to 64 bits (20_memory.md R80), and `SREG_UPPER_ZERO` and CR4 come with `HAS_INTEL64` (41_mov_sreg.md R219,
93 U24). -/
def paramsWf (q : Params) : Bool :=
  q.cr0Reserved &&& 0xE0000001#64 == 0#64 &&
  !(q.cr0EtSticky && q.cr0Reserved.getLsbD 4) &&
  q.drRules.all (fun x => (q.hasIntel64 && !(x.reg == .dr6 || x.reg == .dr7)) || x.set.extractLsb' 32 32 == 0#32) &&
  decide (1 ≤ q.vaBits) && decide (q.vaBits ≤ 64) &&
  (!q.hasIntel64 || (q.sregUpperZero && q.hasCr4))

/-- What R361 asks of a launch state and every step keeps, and what it asks of `Mode` until the run has ended by a mode
change (42_mov_cr.md R262). Without `HAS_INTEL64` CR8, registers 8 to 15 and bits 63:32 of the general, control and
debug registers are absent (10_state.md R20, R40, R45, R48): what holds their place stays 0. A byte with a value is one
that exists (20_memory.md R91). -/
structure Inv (s : State) : Prop where
  params : paramsWf s.params = true
  mem : Memory.wf s.mem = true
  memOwned : ∀ a, (memGet s.mem a).isSome = true → s.owns a = true
  stored : s.stored.Pairwise (· < ·)
  storedWritten : ∀ a ∈ s.stored, (memGet s.mem a).isSome = true
  cr0Reserved : s.cr.cr0 &&& s.params.cr0Reserved = 0#64
  cr0Et : s.params.cr0EtSticky = true → cr0ET s.cr.cr0 = true
  cr0Paging : cr0PG s.cr.cr0 = true → cr0PE s.cr.cr0 = true
  cr0Cache : cr0NW s.cr.cr0 = true → cr0CD s.cr.cr0 = true
  cr3Reserved : s.cr.cr3 &&& cr3Mask s.params = 0#64
  cr4Reserved : s.cr.cr4 &&& s.params.cr4Reserved = 0#64
  cr8Reserved : s.cr.cr8 &&& s.params.cr8Reserved = 0#64
  cr8Absent : s.params.hasIntel64 = false → s.cr.cr8 = 0#64
  highAbsent : s.params.hasIntel64 = false → ∀ r : Gpr, r.hi = true → s.gpr.get r = 0#64
  gprNarrow : s.params.hasIntel64 = false → ∀ r : Gpr, (s.gpr.get r).extractLsb' 32 32 = 0#32
  crNarrow : s.params.hasIntel64 = false → ∀ r : CrReg, (s.cr.get r).extractLsb' 32 32 = 0#32
  drNarrow : s.params.hasIntel64 = false → ∀ r : DrReg, (s.dr.get r).extractLsb' 32 32 = 0#32
  pcide : cr4PCIDE s.cr.cr4 = true → s.ia32e = true
  pae : s.ia32e = true → cr4PAE s.cr.cr4 = true
  paging : s.ia32e = true → cr0PG s.cr.cr0 = true ∨ s.modeChanged = true
  pagingLong : s.mode = .long64 → cr0PG s.cr.cr0 = true
  protection : s.modeChanged = false → (s.mode = .real ↔ cr0PE s.cr.cr0 = false)
  codeLong : s.mode = .long64 → s.seg.cs.hid.attr.l = true
  codeCompat : s.mode = .compat → s.seg.cs.hid.attr.l = false
  cplReal : s.mode = .real → s.cpl = 0#2
  cplV86 : s.mode = .v86 → s.cpl = 3#2
  intel64 : s.ia32e = true → s.params.hasIntel64 = true
  dr6 : s.dr.dr6.extractLsb' 32 32 = 0#32
  dr7 : s.dr.dr7.extractLsb' 32 32 = 0#32

/-- A launch state of 70_reset_and_hazards.md R361: what every step keeps, a run not ended, and no inhibition. -/
structure LaunchOk (s : State) : Prop where
  inv : Inv s
  running : s.modeChanged = false
  inhibit : s.inhibit = false

/-- What the hidden part of a data or stack segment register holds in the mode (10_state.md R34): a real segment in REAL
and V86 mode (41_mov_sreg.md R216); elsewhere NULL only with a NULL selector (R214), or a descriptor that the load
admits (R211, R213). -/
def hiddenOk (s : State) (r : Sreg) : Prop :=
  match s.mode with
  | .real | .v86 =>
    (s.seg.get r).hid.kind = .real ∧ (s.seg.get r).hid.base = (s.seg.get r).sel.setWidth 64 <<< 4
  | .prot | .compat | .long64 =>
    ((s.seg.get r).hid.kind = .null ∧ selNull (s.seg.get r).sel = true ∧
      (r = .ss → s.mode = .long64 ∧ s.cpl ≠ 3#2 ∧ selRpl (s.seg.get r).sel = s.cpl)) ∨
    ((s.seg.get r).hid.kind = .desc ∧ selNull (s.seg.get r).sel = false ∧ (s.seg.get r).hid.attr.present = true ∧
      if r = .ss then
        (s.seg.get r).hid.attr.writable = true ∧ (s.seg.get r).hid.attr.dpl = s.cpl ∧
          selRpl (s.seg.get r).sel = s.cpl
      else (s.seg.get r).hid.attr.isData = true ∨ (s.seg.get r).hid.attr.readable = true)

/-- Every segment register that MOV can load holds what a load leaves there. -/
def SegmentsOk (s : State) : Prop := ∀ r : Sreg, r ≠ .cs → hiddenOk s r

/-! ### Outcomes of an instruction -/

/-- The instruction completes, and its next state is as `post` says. -/
def Completes (i : Instr) (s : State) (post : State → Prop) : Prop := ∃ t, exec i s = .next t ∧ post t

/-- The instruction raises the exception (60_exceptions.md R329). -/
def Raises (i : Instr) (s : State) (cls : ExcClass) (info : ExcInfo) : Prop :=
  exec i s = .fault (.exception cls info s.pc)

/-- May control and debug registers be moved: at privilege level 0, or in REAL mode; never in V86 mode
(42_mov_cr.md R250, 43_mov_dr.md R305). -/
def MayMoveSystem (s : State) : Prop := s.mode = .real ∨ (s.mode ≠ .v86 ∧ s.cpl = 0#2)

/-! ### Registers and bytes -/

/-- The register and the lowest bit of a byte register: without REX the numbers 4 to 7 name bits 15:8 of registers 0 to 3
(10_state.md R22). -/
def byteHome (rex : Bool) (r : Gpr) : Gpr × Nat :=
  if rex = false ∧ 4 ≤ r.num.toNat ∧ r.num.toNat ≤ 7 then (Gpr.ofNum (r.num - 4#4), 8) else (r, 0)

/-- The value of a register of the width, zero-extended (10_state.md R22 to R25). -/
def regValue (x : Gprs) (w : Width) (rex : Bool) (r : Gpr) : Word :=
  match w with
  | .b8 => (x.get (byteHome rex r).1 >>> (byteHome rex r).2) &&& 0xFF#64
  | .b16 => x.get r &&& 0xFFFF#64
  | .b32 => x.get r &&& 0xFFFFFFFF#64
  | .b64 => x.get r

/-- Registers `y` are registers `x` after the low bits of `v` are written to a register of the width, bit by bit: the
other bits stay after an 8- or 16-bit write; bits 63:32 become 0 in LONG64, and are anything elsewhere, after a 32-bit
write; the other registers stay (10_state.md R22 to R25, R27). -/
def RegWritten (w : Width) (rex long64 : Bool) (r : Gpr) (v : Word) (x y : Gprs) : Prop :=
  match w with
  | .b8 =>
    ∀ g k, k < 64 → (y.get g).getLsbD k =
      if g = (byteHome rex r).1 ∧ (byteHome rex r).2 ≤ k ∧ k < (byteHome rex r).2 + 8 then
        v.getLsbD (k - (byteHome rex r).2)
      else (x.get g).getLsbD k
  | .b16 => ∀ g k, k < 64 → (y.get g).getLsbD k = if g = r ∧ k < 16 then v.getLsbD k else (x.get g).getLsbD k
  | .b32 =>
    (∀ k, k < 32 → (y.get r).getLsbD k = v.getLsbD k) ∧
    (long64 = true → ∀ k, 32 ≤ k → k < 64 → (y.get r).getLsbD k = false) ∧
    ∀ g, g ≠ r → y.get g = x.get g
  | .b64 => y.get r = v ∧ ∀ g, g ≠ r → y.get g = x.get g

/-- The bytes at the addresses are the `n` low bytes of `v`, the least significant first (20_memory.md R72). -/
def BytesAre (m : Memory) (pas : List Nat) (n : Nat) (v : Word) : Prop :=
  ∀ k, k < n → memGet m (pas.getD k 0) = some (v.extractLsb' (8 * k) 8)

/-! ### What stayed -/

/-- What no MOV writes (10_state.md R37, R54, R59; 20_memory.md R91; 42_mov_cr.md R262). -/
structure FixedSame (s t : State) : Prop where
  ac : t.ac = s.ac
  cpl : t.cpl = s.cpl
  mode : t.mode = s.mode
  gdtr : t.gdtr = s.gdtr
  ldtr : t.ldtr = s.ldtr
  owned : t.owned = s.owned
  offers : t.offers = s.offers
  params : t.params = s.params

/-- Control registers and what goes with them stayed. -/
structure ControlSame (s t : State) : Prop where
  cr : t.cr = s.cr
  epoch : t.epoch = s.epoch
  tlb : t.tlb = s.tlb
  modeChanged : t.modeChanged = s.modeChanged

/-- Segment registers and the inhibition stayed. -/
structure SegmentsSame (s t : State) : Prop where
  seg : t.seg = s.seg
  inhibit : t.inhibit = s.inhibit

/-- Segment, control and debug registers, CPL, `Mode` and `inhibit` stayed (40_mov_data.md R163). -/
structure SystemSame (s t : State) : Prop where
  fixed : FixedSame s t
  control : ControlSame s t
  segments : SegmentsSame s t
  dr : t.dr = s.dr

/-- Every byte of memory reads as before, and none is noted as written. -/
structure MemorySame (s t : State) : Prop where
  bytes : ∀ a, memGet t.mem a = memGet s.mem a
  stored : t.stored = s.stored

/-! ### What an instruction of `len` bytes did -/

/-- It wrote `v` to a register of the width and did nothing else (40_mov_data.md R163, R161). -/
structure WroteReg (s t : State) (len : Nat) (w : Width) (rex : Bool) (r : Gpr) (v : Word) : Prop where
  gpr : RegWritten w rex s.long64 r v s.gpr t.gpr
  pc : t.pc = s.pc + BitVec.ofNat 64 len
  flags : t.flags = s.flags
  system : SystemSame s t
  memory : MemorySame s t

/-- Memory took the `n` low bytes of `v` at the addresses, and no other byte changed (20_memory.md R72, R73, R86). Where
translation puts two bytes of the access at one address, the byte there is not said. -/
structure StoredAt (s t : State) (pas : List Nat) (n : Nat) (v : Word) : Prop where
  bytes : pas.Nodup → BytesAre t.mem pas n v
  outside : ∀ a, a ∉ pas → memGet t.mem a = memGet s.mem a
  stored : ∀ a, a ∈ t.stored ↔ a ∈ s.stored ∨ a ∈ pas

/-- It stored the `n` low bytes of `v` and did nothing else (40_mov_data.md R163). -/
structure WroteMem (s t : State) (len : Nat) (pas : List Nat) (n : Nat) (v : Word) : Prop where
  mem : StoredAt s t pas n v
  gpr : t.gpr = s.gpr
  pc : t.pc = s.pc + BitVec.ofNat 64 len
  flags : t.flags = s.flags
  system : SystemSame s t

/-- It loaded a segment register, and did nothing else but what the load does to memory (41_mov_sreg.md R200, R210). -/
structure LoadedSeg (s t : State) (len : Nat) (r : Sreg) (sel : Half) : Prop where
  sel : (t.seg.get r).sel = sel
  others : ∀ q, q ≠ r → t.seg.get q = s.seg.get q
  inhibit : t.inhibit = (s.inhibit || r == .ss)
  gpr : t.gpr = s.gpr
  pc : t.pc = s.pc + BitVec.ofNat 64 len
  flags : t.flags = s.flags
  fixed : FixedSame s t
  control : ControlSame s t
  dr : t.dr = s.dr

/-- It moved a control or debug register to a general register; the six status flags are anything (42_mov_cr.md R251,
R259; 43_mov_dr.md R300, R302). -/
structure ReadSystem (s t : State) (len : Nat) (w : Width) (g : Gpr) (v : Word) : Prop where
  gpr : RegWritten w false s.long64 g v s.gpr t.gpr
  pc : t.pc = s.pc + BitVec.ofNat 64 len
  system : SystemSame s t
  memory : MemorySame s t

/-- It wrote control register `r` and left every other register alone; the six status flags, the translation caches and
whether the run goes on are said elsewhere (42_mov_cr.md R252 to R262). -/
structure WroteCr (s t : State) (len : Nat) (r : CrReg) : Prop where
  others : ∀ q, q ≠ r → t.cr.get q = s.cr.get q
  gpr : t.gpr = s.gpr
  pc : t.pc = s.pc + BitVec.ofNat 64 len
  fixed : FixedSame s t
  segments : SegmentsSame s t
  dr : t.dr = s.dr
  memory : MemorySame s t

/-- It wrote debug register `r` with `v` and did nothing else; the six status flags are anything (43_mov_dr.md R301,
R302). -/
structure WroteDr (s t : State) (len : Nat) (r : DrReg) (v : Word) : Prop where
  value : t.dr.get r = v
  others : ∀ q, q ≠ r → t.dr.get q = s.dr.get q
  gpr : t.gpr = s.gpr
  pc : t.pc = s.pc + BitVec.ofNat 64 len
  fixed : FixedSame s t
  control : ControlSame s t
  segments : SegmentsSame s t
  memory : MemorySame s t

/-! ### The one data access of an instruction (20_memory.md R87) -/

/-- A data access: `n` bytes at `seg:off`, read or written. -/
structure DataAccess where
  seg : Sreg
  off : Word
  n : Nat
  acc : Access
  deriving DecidableEq, Repr

/-- The access of an r/m operand, if it is in memory. -/
def rmAccess (s : State) (p : Pfx) (len n : Nat) (acc : Access) : RmOp → Option DataAccess
  | .reg _ => none
  | .mem m => some { seg := s.memSeg p m, off := s.effAddr p len m, n := n, acc := acc }

/-- The access of a moffs operand. -/
def moffsAccess (s : State) (p : Pfx) (n : Nat) (acc : Access) (o : Moffs) : Option DataAccess :=
  some { seg := s.moffsSeg p, off := moffsValue o, n := n, acc := acc }

/-- Does the reg field of opcode 8C name a segment register (41_mov_sreg.md R209)? -/
def namesSreg : SregField → Bool
  | .reg _ => true
  | .num6 => false
  | .num7 => false

/-- Does the reg field of opcode 8E name a segment register that can be loaded (41_mov_sreg.md R208, R209)? -/
def loadsSreg : SregField → Bool
  | .reg .cs => false
  | .reg .es | .reg .ss | .reg .ds | .reg .fs | .reg .gs => true
  | .num6 => false
  | .num7 => false

/-- The data access of an instruction without a LOCK prefix: 1, 2, 4 or 8 bytes, as its row says (20_memory.md R87,
41_mov_sreg.md R201, R205 to R209). -/
def dataAccess (i : Instr) (s : State) : Option DataAccess :=
  let len := instrLength i
  match i with
  | .movRm8R8 p rm _ => rmAccess s p len 1 .write rm
  | .movRm8R8Rex p rm _ => rmAccess s p len 1 .write rm
  | .movRm16R16 p rm _ => rmAccess s p len 2 .write rm
  | .movRm32R32 p rm _ => rmAccess s p len 4 .write rm
  | .movRm64R64 p rm _ => rmAccess s p len 8 .write rm
  | .movR8Rm8 p _ rm => rmAccess s p len 1 .read rm
  | .movR8Rm8Rex p _ rm => rmAccess s p len 1 .read rm
  | .movR16Rm16 p _ rm => rmAccess s p len 2 .read rm
  | .movR32Rm32 p _ rm => rmAccess s p len 4 .read rm
  | .movR64Rm64 p _ rm => rmAccess s p len 8 .read rm
  | .movRm16Sreg p rm f => if namesSreg f then rmAccess s p len 2 .write rm else none
  | .movR32M16Sreg p rm f => if namesSreg f then rmAccess s p len 2 .write rm else none
  | .movR64M16Sreg p rm f => if namesSreg f then rmAccess s p len 2 .write rm else none
  | .movSregRm16 p f rm => if loadsSreg f then rmAccess s p len 2 .read rm else none
  | .movSregRm64 p f rm => if loadsSreg f then rmAccess s p len s.sregLoadWidth .read rm else none
  | .movAlMoffs8 p o => moffsAccess s p 1 .read o
  | .movAlMoffs8RexW p o => moffsAccess s p 1 .read o
  | .movAxMoffs16 p o => moffsAccess s p 2 .read o
  | .movEaxMoffs32 p o => moffsAccess s p 4 .read o
  | .movRaxMoffs64 p o => moffsAccess s p 8 .read o
  | .movMoffs8Al p o => moffsAccess s p 1 .write o
  | .movMoffs8AlRexW p o => moffsAccess s p 1 .write o
  | .movMoffs16Ax p o => moffsAccess s p 2 .write o
  | .movMoffs32Eax p o => moffsAccess s p 4 .write o
  | .movMoffs64Rax p o => moffsAccess s p 8 .write o
  | .movR8Imm8 _ _ _ => none
  | .movR8Imm8Rex _ _ _ => none
  | .movR16Imm16 _ _ _ => none
  | .movR32Imm32 _ _ _ => none
  | .movR64Imm64 _ _ _ => none
  | .movRm8Imm8 p rm _ => rmAccess s p len 1 .write rm
  | .movRm8Imm8Rex p rm _ => rmAccess s p len 1 .write rm
  | .movRm16Imm16 p rm _ => rmAccess s p len 2 .write rm
  | .movRm32Imm32 p rm _ => rmAccess s p len 4 .write rm
  | .movRm64Imm32 p rm _ => rmAccess s p len 8 .write rm
  | .movR32Cr _ _ _ _ => none
  | .movR64Cr _ _ _ _ => none
  | .movR64Cr8 _ _ _ _ => none
  | .movCrR32 _ _ _ _ => none
  | .movCrR64 _ _ _ _ => none
  | .movCr8R64 _ _ _ _ => none
  | .movR32Dr _ _ _ _ => none
  | .movR64Dr _ _ _ _ => none
  | .movDrR32 _ _ _ _ => none
  | .movDrR64 _ _ _ _ => none

/-! ### Kinds of instruction -/

/-- Rows 36 to 45, which move control and debug registers and leave the status flags undefined. -/
def movesSystem : Instr → Bool
  | .movR32Cr _ _ _ _ | .movR64Cr _ _ _ _ | .movR64Cr8 _ _ _ _ => true
  | .movCrR32 _ _ _ _ | .movCrR64 _ _ _ _ | .movCr8R64 _ _ _ _ => true
  | .movR32Dr _ _ _ _ | .movR64Dr _ _ _ _ | .movDrR32 _ _ _ _ | .movDrR64 _ _ _ _ => true
  | .movRm8R8 _ _ _ | .movRm8R8Rex _ _ _ | .movRm16R16 _ _ _ | .movRm32R32 _ _ _ | .movRm64R64 _ _ _ => false
  | .movR8Rm8 _ _ _ | .movR8Rm8Rex _ _ _ | .movR16Rm16 _ _ _ | .movR32Rm32 _ _ _ | .movR64Rm64 _ _ _ => false
  | .movRm16Sreg _ _ _ | .movR32M16Sreg _ _ _ | .movR64M16Sreg _ _ _ => false
  | .movSregRm16 _ _ _ | .movSregRm64 _ _ _ => false
  | .movAlMoffs8 _ _ | .movAlMoffs8RexW _ _ | .movAxMoffs16 _ _ | .movEaxMoffs32 _ _ | .movRaxMoffs64 _ _ => false
  | .movMoffs8Al _ _ | .movMoffs8AlRexW _ _ | .movMoffs16Ax _ _ | .movMoffs32Eax _ _ | .movMoffs64Rax _ _ => false
  | .movR8Imm8 _ _ _ | .movR8Imm8Rex _ _ _ | .movR16Imm16 _ _ _ | .movR32Imm32 _ _ _ | .movR64Imm64 _ _ _ => false
  | .movRm8Imm8 _ _ _ | .movRm8Imm8Rex _ _ _ | .movRm16Imm16 _ _ _ | .movRm32Imm32 _ _ _ => false
  | .movRm64Imm32 _ _ _ => false

/-- The segment register an instruction loads, if it is one of opcode 8E. -/
def sregLoaded : Instr → Option SregField
  | .movSregRm16 _ f _ | .movSregRm64 _ f _ => some f
  | .movR32Cr _ _ _ _ | .movR64Cr _ _ _ _ | .movR64Cr8 _ _ _ _ => none
  | .movCrR32 _ _ _ _ | .movCrR64 _ _ _ _ | .movCr8R64 _ _ _ _ => none
  | .movR32Dr _ _ _ _ | .movR64Dr _ _ _ _ | .movDrR32 _ _ _ _ | .movDrR64 _ _ _ _ => none
  | .movRm8R8 _ _ _ | .movRm8R8Rex _ _ _ | .movRm16R16 _ _ _ | .movRm32R32 _ _ _ | .movRm64R64 _ _ _ => none
  | .movR8Rm8 _ _ _ | .movR8Rm8Rex _ _ _ | .movR16Rm16 _ _ _ | .movR32Rm32 _ _ _ | .movR64Rm64 _ _ _ => none
  | .movRm16Sreg _ _ _ | .movR32M16Sreg _ _ _ | .movR64M16Sreg _ _ _ => none
  | .movAlMoffs8 _ _ | .movAlMoffs8RexW _ _ | .movAxMoffs16 _ _ | .movEaxMoffs32 _ _ | .movRaxMoffs64 _ _ => none
  | .movMoffs8Al _ _ | .movMoffs8AlRexW _ _ | .movMoffs16Ax _ _ | .movMoffs32Eax _ _ | .movMoffs64Rax _ _ => none
  | .movR8Imm8 _ _ _ | .movR8Imm8Rex _ _ _ | .movR16Imm16 _ _ _ | .movR32Imm32 _ _ _ | .movR64Imm64 _ _ _ => none
  | .movRm8Imm8 _ _ _ | .movRm8Imm8Rex _ _ _ | .movRm16Imm16 _ _ _ | .movRm32Imm32 _ _ _ => none
  | .movRm64Imm32 _ _ _ => none

/-! ### Completing with a result -/

/-- It completes, having written `v` to a register of the width. -/
def MovesToReg (i : Instr) (s : State) (w : Width) (rex : Bool) (r : Gpr) (v : Word) : Prop :=
  Completes i s fun t => WroteReg s t (instrLength i) w rex r v

/-- It completes, having stored the `n` low bytes of `v` at the addresses. -/
def MovesToMem (i : Instr) (s : State) (pas : List Nat) (n : Nat) (v : Word) : Prop :=
  Completes i s fun t => WroteMem s t (instrLength i) pas n v

/-- All tests of the instruction's data access pass, and its bytes are at these physical addresses (20_memory.md R84 to
R86). -/
def Reaches (i : Instr) (s : State) (pas : List Nat) : Prop :=
  ∃ d, dataAccess i s = some d ∧ s.physBytes d.seg d.off d.n d.acc = .ok pas

/-! ### The tests of an access, by mode (20_memory.md R77 to R80) -/

/-- The segment-level tests pass: the limit in REAL and V86 mode; NULL, limit and writability in PROT and COMPAT mode;
the canonical form of every byte in LONG64 mode. -/
def SegmentPasses (s : State) (d : DataAccess) : Prop :=
  match s.mode with
  | .real | .v86 => (s.seg.get d.seg).hid.attr.inLimit d.off.toNat d.n = true
  | .prot | .compat =>
    ¬ (isDataSreg d.seg = true ∧ (s.seg.get d.seg).hid.kind = .null) ∧
    (s.seg.get d.seg).hid.attr.inLimit d.off.toNat d.n = true ∧
    (d.acc = .write → (s.seg.get d.seg).hid.attr.writable = true)
  | .long64 => ∀ k, k < d.n → canonical s.params.vaBits ((s.linear d.seg d.off + k) % 2 ^ 64) = true

/-- The alignment check applies to this access and it is not aligned (20_memory.md R82). -/
def Misaligned (s : State) (d : DataAccess) : Prop :=
  cr0AM s.cr.cr0 = true ∧ s.ac = true ∧ s.linear d.seg d.off % d.n ≠ 0 ∧
  (s.mode = .v86 ∨ (s.mode ≠ .real ∧ s.cpl = 3#2))

/-- What `Translate` answers for the access. -/
def translateAccess (s : State) (d : DataAccess) : Except Nat (List Nat) :=
  s.translate d.acc (s.linearBytes (s.linear d.seg d.off) d.n)

/-! ### Addresses (20_memory.md R74, 30_encoding.md R118 to R121) -/

/-- The width of an offset. -/
def addrBits : AddrSize → Nat
  | .a16 => 16
  | .a32 => 32
  | .a64 => 64

/-- A displacement as a signed number. -/
def dispInt {w : Nat} : Disp w → Int
  | .none => 0
  | .d8 v => v.toInt
  | .full v => v.toInt

/-- The registers of a 16-bit base (30_encoding.md R118). -/
def base16Regs : Base16 → List Gpr
  | .bxSi => [.rbx, .rsi]
  | .bxDi => [.rbx, .rdi]
  | .bpSi => [.rbp, .rsi]
  | .bpDi => [.rbp, .rdi]
  | .si => [.rsi]
  | .di => [.rdi]
  | .bp => [.rbp]
  | .bx => [.rbx]

/-- Is the prefix a segment override? -/
def isSegPfx : LegacyPfx → Bool
  | .seg _ => true
  | .opSize => false
  | .addrSize => false
  | .lock => false
  | .staleRex _ => false

/-! ### Loads of segment registers -/

/-- The selector that a load of `n` bytes takes (41_mov_sreg.md R205 to R207). -/
def SelectorIs (s : State) (p : Pfx) (len n : Nat) (rm : RmOp) (sel : Half) : Prop :=
  match rm with
  | .reg g => sel = (s.gpr.get g).extractLsb' 0 16
  | .mem m => ∃ pas v, s.physBytes (s.memSeg p m) (s.effAddr p len m) n .read = .ok pas ∧ BytesAre s.mem pas n v ∧
      sel = v.extractLsb' 0 16

/-- The instruction is a load of segment register `r`, without a LOCK prefix, and its source operand is the selector. -/
def LoadOf (i : Instr) (s : State) (r : Sreg) (sel : Half) : Prop :=
  ∃ p rm, p.locked = false ∧
    ((i = .movSregRm16 p (.reg r) rm ∧ SelectorIs s p (instrLength i) 2 rm sel) ∨
     (i = .movSregRm64 p (.reg r) rm ∧ SelectorIs s p (instrLength i) s.sregLoadWidth rm sel))

/-- DS, ES, FS or GS. -/
def DataSreg (r : Sreg) : Prop := r = .ds ∨ r = .es ∨ r = .fs ∨ r = .gs

/-- PROT, COMPAT or LONG64 mode, where loads make checks (41_mov_sreg.md R210). -/
def CheckedMode (s : State) : Prop := s.mode = .prot ∨ s.mode = .compat ∨ s.mode = .long64

/-- The tests of a load of DS, ES, FS or GS that give #GP(selector) (41_mov_sreg.md R213 (1)). -/
def DataDescriptorBad (s : State) (sel : Half) (d : SegAttr) : Prop :=
  ¬ (d.isData = true ∨ (d.isCode = true ∧ d.readable = true)) ∨
  ((d.isData = true ∨ (d.isCode = true ∧ d.conforming = false)) ∧
    ((selRpl sel).toNat > d.dpl.toNat ∨ s.cpl.toNat > d.dpl.toNat))

/-- The tests of a load of SS that give #GP(selector) (41_mov_sreg.md R211 (2)). -/
def StackDescriptorBad (s : State) (sel : Half) (d : SegAttr) : Prop :=
  selRpl sel ≠ s.cpl ∨ ¬ (d.isData = true ∧ d.writable = true) ∨ d.dpl ≠ s.cpl

/-- What a load from descriptor `d`, with its bytes at the addresses, leaves in memory: the Accessed bit set in its sixth
byte, and nothing else changed (10_state.md R59; log 21). -/
def AccessedSet (s t : State) (d : Word) (pas : List Nat) : Prop :=
  (d.getLsbD 40 = true → MemorySame s t) ∧
  (d.getLsbD 40 = false →
    memGet t.mem (pas.getD 5 0) = some (d.extractLsb' 40 8 ||| 1#8) ∧
    ∀ a, a ≠ pas.getD 5 0 → memGet t.mem a = memGet s.mem a)

/-! ### Writes of control and debug registers -/

/-- The instruction moves `v`, zero-extended from a general register, to control register number `c`, without a LOCK
prefix (42_mov_cr.md R247, R248). -/
def CrWriteOf (i : Instr) (s : State) (c : CrNum) (v : Word) : Prop :=
  ∃ p m g, p.locked = false ∧
    ((i = .movCrR32 p m c g ∧ v = regValue s.gpr .b32 false g) ∨ (i = .movCrR64 p m c g ∧ v = s.gpr.get g))

/-- The condition of the PDPT, a parameter (42_mov_cr.md R258). -/
def PdptFaults (s : State) (r : CrReg) (v : Word) : Prop :=
  ∃ q ∈ s.params.pdptFaults, q.epoch = s.epoch ∧ (∀ c ∈ q.conds, s.condHolds c = true) ∧ q.reg = r ∧ v &&& q.value.mask = q.value.pat

/-- The values a write of CR0 refuses (42_mov_cr.md R252). -/
def Cr0Bad (s : State) (v : Word) : Prop :=
  (v.getLsbD 31 = true ∧ v.getLsbD 0 = false) ∨ (v.getLsbD 30 = false ∧ v.getLsbD 29 = true) ∨
  (∃ q ∈ s.params.cr0Invalid, v &&& q.mask = q.pat) ∨
  (s.mode = .compat ∧ s.cr.cr0.getLsbD 31 = true ∧ v.getLsbD 31 = false ∧ s.cr.cr4.getLsbD 17 = true) ∨
  (s.mode = .long64 ∧ s.cr.cr0.getLsbD 31 = true ∧ v.getLsbD 31 = false) ∨
  (s.mode = .prot ∧ PdptFaults s .cr0 v)

/-- The values a write of CR3 refuses (42_mov_cr.md R255): in COMPAT and LONG64 a 1 in a reserved bit, bit 63 being one
unless CR4.PCIDE is 1. -/
def Cr3Bad (s : State) (v : Word) : Prop :=
  ((s.mode = .compat ∨ s.mode = .long64) ∧
    ∃ k, k < 64 ∧ v.getLsbD k = true ∧
      ((k < 63 ∧ s.params.cr3Reserved.getLsbD k = true) ∨ (k = 63 ∧ s.cr.cr4.getLsbD 17 = false))) ∨
  (s.mode = .prot ∧ PdptFaults s .cr3 v)

/-- The values a write of CR4 refuses (42_mov_cr.md R256). -/
def Cr4Bad (s : State) (v : Word) : Prop :=
  v &&& s.params.cr4Reserved ≠ 0#64 ∨
  ((s.mode = .real ∨ s.mode = .prot) ∧ v.getLsbD 17 = true) ∨
  ((s.mode = .compat ∨ s.mode = .long64) ∧
    ((s.cr.cr4.getLsbD 17 = false ∧ v.getLsbD 17 = true ∧ s.cr.cr3.extractLsb' 0 12 ≠ 0#12) ∨
     (s.cr.cr4.getLsbD 5 = true ∧ v.getLsbD 5 = false))) ∨
  (s.mode = .prot ∧ PdptFaults s .cr4 v)

/-- A move of debug register number `d` reaches the register: no REX.R in LONG64 (43_mov_dr.md R295), no DR4 or DR5
with CR4.DE set (R293), the privilege (R305), and no general detect (R294). -/
def DrAllowed (s : State) (p : Pfx) (d : DrNum) : Prop :=
  ¬ (s.mode = .long64 ∧ p.rexR = true) ∧
  ¬ ((d = .dr4 ∨ d = .dr5) ∧ s.params.hasCr4 = true ∧ s.cr.cr4.getLsbD 3 = true) ∧
  MayMoveSystem s ∧ s.dr.dr7.getLsbD 13 = false

/-- The instruction moves `v`, zero-extended from a general register, to debug register number `d`, under prefixes `p`
(43_mov_dr.md R298, R299). -/
def DrWriteOf (i : Instr) (s : State) (p : Pfx) (d : DrNum) (v : Word) : Prop :=
  ∃ m g, (i = .movDrR32 p m d g ∧ v = regValue s.gpr .b32 false g) ∨ (i = .movDrR64 p m d g ∧ v = s.gpr.get g)

/-- The instruction moves debug register number `d`, in either direction, under prefixes `p`. -/
def DrMoveOf (i : Instr) (p : Pfx) (d : DrNum) : Prop :=
  ∃ m g, i = .movR32Dr p m g d ∨ i = .movR64Dr p m g d ∨ i = .movDrR32 p m d g ∨ i = .movDrR64 p m d g

/-- The instruction moves control register `r`, in either direction, without a LOCK prefix (42_mov_cr.md R243). -/
def CrMoveOf (i : Instr) (r : CrReg) : Prop :=
  ∃ p m g, p.locked = false ∧
    ((∃ c, (c, r) ∈ [(CrNum.cr0, CrReg.cr0), (.cr2, .cr2), (.cr3, .cr3), (.cr4, .cr4)] ∧
        (i = .movR32Cr p m g c ∨ i = .movR64Cr p m g c ∨ i = .movCrR32 p m c g ∨ i = .movCrR64 p m c g)) ∨
     (r = .cr8 ∧ (i = .movR64Cr8 p m g .cr8 ∨ i = .movCr8R64 p m .cr8 g)))

end Sys2Proof.Machine
end

