-- ==== Sys2Proof/WellFormed.lean ====
section
/-! DEFINITION. Which instructions an encoding exists for in a decoding environment (30_encoding.md R110 to R132): the
conditions that tie the prefixes, the attributes of R123 and R124 and the operands together. -/

namespace Sys2Proof

def LegacyPfx.isStale : LegacyPfx → Bool
  | .staleRex _ => true
  | _ => false

/-- Prefixes that can stand before an opcode: REX bytes only in LONG64 (R113), and an ignored REX byte only where
another prefix follows it (R112). -/
def Pfx.wf (e : DecodeEnv) (p : Pfx) : Bool :=
  (e.long64 || (p.rex.isNone && !p.legacy.any LegacyPfx.isStale)) &&
  (p.rex.isSome || !(p.legacy.getLast?.any LegacyPfx.isStale))

def Disp.isNone {w : Nat} : Disp w → Bool
  | .none => true
  | _ => false

/-- The index register agrees with REX.X and is not number 0100 (R120). -/
def indexWf (p : Pfx) : Option Gpr → Bool
  | none => !p.rexX
  | some r => r != .rsp && r.hi == p.rexX

/-- A memory operand the address size has a form for (R118 to R121). -/
def MemOp.wf (e : DecodeEnv) (p : Pfx) : MemOp → Bool
  | .based16 b d => addrSize e p == .a16 && !(b == .bp && d.isNone)
  | .abs16 _ => addrSize e p == .a16
  | .based r d => addrSize e p != .a16 && r.hi == p.rexB && r.lo != 4#3 && !(r.lo == 5#3 && d.isNone)
  | .sib _ idx b d => addrSize e p != .a16 && indexWf p idx && b.hi == p.rexB && !(b.lo == 5#3 && d.isNone)
  | .sibNoBase _ idx _ => addrSize e p != .a16 && indexWf p idx
  | .abs32 _ => addrSize e p != .a16 && !e.long64
  | .rip _ => addrSize e p != .a16 && e.long64

/-- The r/m operand (R117 to R121). -/
def RmOp.wf (e : DecodeEnv) (p : Pfx) : RmOp → Bool
  | .reg r => r.hi == p.rexB
  | .mem m => m.wf e p

/-- A moffs offset of the width of the address size (R127). -/
def Moffs.wf (e : DecodeEnv) (p : Pfx) : Moffs → Bool
  | .m16 _ => addrSize e p == .a16
  | .m32 _ => addrSize e p == .a32
  | .m64 _ => addrSize e p == .a64

/-- What a row asks of the prefixes and operands besides `Pfx.wf` and the length (R130 to R132). -/
def Instr.rowWf (e : DecodeEnv) : Instr → Bool
  | .movRm8R8 p rm g => p.rex.isNone && rm.wf e p && g.hi == p.rexR
  | .movRm8R8Rex p rm g => p.rex.isSome && rm.wf e p && g.hi == p.rexR
  | .movRm16R16 p rm g => opSize e p == .o16 && rm.wf e p && g.hi == p.rexR
  | .movRm32R32 p rm g => opSize e p == .o32 && rm.wf e p && g.hi == p.rexR
  | .movRm64R64 p rm g => opSize e p == .o64 && rm.wf e p && g.hi == p.rexR
  | .movR8Rm8 p g rm => p.rex.isNone && rm.wf e p && g.hi == p.rexR
  | .movR8Rm8Rex p g rm => p.rex.isSome && rm.wf e p && g.hi == p.rexR
  | .movR16Rm16 p g rm => opSize e p == .o16 && rm.wf e p && g.hi == p.rexR
  | .movR32Rm32 p g rm => opSize e p == .o32 && rm.wf e p && g.hi == p.rexR
  | .movR64Rm64 p g rm => opSize e p == .o64 && rm.wf e p && g.hi == p.rexR
  | .movRm16Sreg p rm _ => opSize e p == .o16 && rm.wf e p
  | .movR32M16Sreg p rm _ => opSize e p == .o32 && rm.wf e p
  | .movR64M16Sreg p rm _ => opSize e p == .o64 && rm.wf e p
  | .movSregRm16 p _ rm => opSize e p != .o64 && rm.wf e p
  | .movSregRm64 p _ rm => opSize e p == .o64 && rm.wf e p
  | .movAlMoffs8 p o => !p.rexW && o.wf e p
  | .movAlMoffs8RexW p o => p.rexW && o.wf e p
  | .movAxMoffs16 p o => opSize e p == .o16 && o.wf e p
  | .movEaxMoffs32 p o => opSize e p == .o32 && o.wf e p
  | .movRaxMoffs64 p o => opSize e p == .o64 && o.wf e p
  | .movMoffs8Al p o => !p.rexW && o.wf e p
  | .movMoffs8AlRexW p o => p.rexW && o.wf e p
  | .movMoffs16Ax p o => opSize e p == .o16 && o.wf e p
  | .movMoffs32Eax p o => opSize e p == .o32 && o.wf e p
  | .movMoffs64Rax p o => opSize e p == .o64 && o.wf e p
  | .movR8Imm8 p g _ => p.rex.isNone && g.hi == p.rexB
  | .movR8Imm8Rex p g _ => p.rex.isSome && g.hi == p.rexB
  | .movR16Imm16 p g _ => opSize e p == .o16 && g.hi == p.rexB
  | .movR32Imm32 p g _ => opSize e p == .o32 && g.hi == p.rexB
  | .movR64Imm64 p g _ => opSize e p == .o64 && g.hi == p.rexB
  | .movRm8Imm8 p rm _ => p.rex.isNone && rm.wf e p
  | .movRm8Imm8Rex p rm _ => p.rex.isSome && rm.wf e p
  | .movRm16Imm16 p rm _ => opSize e p == .o16 && rm.wf e p
  | .movRm32Imm32 p rm _ => opSize e p == .o32 && rm.wf e p
  | .movRm64Imm32 p rm _ => opSize e p == .o64 && rm.wf e p
  | .movR32Cr p _ g _ => !e.long64 && g.hi == p.rexB
  | .movR64Cr p _ g _ => e.long64 && !p.rexR && g.hi == p.rexB
  | .movR64Cr8 p _ g _ => e.long64 && p.rexR && g.hi == p.rexB
  | .movCrR32 p _ _ g => !e.long64 && g.hi == p.rexB
  | .movCrR64 p _ _ g => e.long64 && !p.rexR && g.hi == p.rexB
  | .movCr8R64 p _ _ g => e.long64 && p.rexR && g.hi == p.rexB
  | .movR32Dr p _ g _ => !e.long64 && g.hi == p.rexB
  | .movR64Dr p _ g _ => e.long64 && g.hi == p.rexB
  | .movDrR32 p _ _ g => !e.long64 && g.hi == p.rexB
  | .movDrR64 p _ _ g => e.long64 && g.hi == p.rexB

/-- An instruction that an encoding of at most 15 bytes exists for (R130 to R132, R137). -/
def Instr.wf (e : DecodeEnv) (i : Instr) : Bool :=
  (instrPfx i).wf e && i.rowWf e && decide (instrLength i ≤ 15)

end Sys2Proof
end

