-- ==== Sys2Proof/Certificates/Slice0/Obligations.lean ====
section
/-! DEFINITION. The statements for the provers. Each docstring names the rules of spec/ it rests on. -/

section

open Sys2Proof Sys2Proof.Machine

/-! ### Encoding -/

/-- Decoding the encoding of a well-formed instruction gives the instruction back, with the bytes after it: no operand,
at any value its encoding admits, is lost (30_encoding.md R110 to R141). -/
def Obligations.DecodeEncode : Prop :=
  ∀ (e : DecodeEnv) (i : Instr) (rest : List Byte), i.wf e = true → decode e (encode i ++ rest) = .ok (i, rest)

/-- Bytes the decoder accepts are the encoding of a well-formed instruction: at most 15 bytes long (R137), of a row that
exists in the environment (R130 to R132), and no bit of them is dropped (R110 to R135). -/
def Obligations.EncodeDecode : Prop :=
  ∀ (e : DecodeEnv) (bs rest : List Byte) (i : Instr), decode e bs = .ok (i, rest) →
    i.wf e = true ∧ encode i ++ rest = bs

/-- A few words written out from the encodings of the spec: a sanity statement (40_mov_data.md R165, R168, R189, R192,
41_mov_sreg.md R206, 42_mov_cr.md R249, 43_mov_dr.md R298; 30_encoding.md R135). -/
def Obligations.DecodeSamples : Prop :=
  decode ⟨true, false⟩ [0x88#8, 0xDC#8] =
    .ok (.movRm8R8 ⟨[], none⟩ (.reg .rsp) .rbx, []) ∧
  decode ⟨true, false⟩ [0x89#8, 0xC3#8] =
    .ok (.movRm32R32 ⟨[], none⟩ (.reg .rbx) .rax, []) ∧
  decode ⟨true, false⟩ [0x49#8, 0xBB#8, 0x88#8, 0x77#8, 0x66#8, 0x55#8, 0x44#8, 0x33#8, 0x22#8, 0x11#8] =
    .ok (.movR64Imm64 ⟨[], some ⟨true, false, false, true⟩⟩ .r11 0x1122334455667788#64, []) ∧
  decode ⟨false, false⟩ [0xC7#8, 0x06#8, 0x00#8, 0x20#8, 0xEF#8, 0xBE#8] =
    .ok (.movRm16Imm16 ⟨[], none⟩ (.mem (.abs16 0x2000#16)) 0xBEEF#16, []) ∧
  decode ⟨false, true⟩ [0x8E#8, 0xD0#8] =
    .ok (.movSregRm16 ⟨[], none⟩ (.reg .ss) (.reg .rax), []) ∧
  decode ⟨true, false⟩ [0x44#8, 0x0F#8, 0x22#8, 0xC1#8] =
    .ok (.movCr8R64 ⟨[], some ⟨false, true, false, false⟩⟩ 3#2 .cr8 .rcx, []) ∧
  decode ⟨false, true⟩ [0x0F#8, 0x23#8, 0xF9#8] =
    .ok (.movDrR32 ⟨[], none⟩ 3#2 .dr7 .rcx, []) ∧
  decode ⟨true, false⟩ [0xC6#8, 0x0B#8, 0x01#8] = .error (.groupReg 1#3) ∧
  decode ⟨true, false⟩ [0xF3#8, 0x89#8, 0xC3#8] = .error (.repeatPfx 0xF3#8) ∧
  decode ⟨false, true⟩ [0x48#8, 0x89#8, 0xC3#8] = .error (.opcode 0x48#8)

/-! ### Steps -/

/-- Where the run goes on, no event is delivered at the boundary, and the bytes at CS:pc decode to an instruction (in
LONG64 mode one that ends below the top of the address space), a step is `exec` of that instruction past the boundary:
the inhibition ends and the environment's offer is used up (20_memory.md R100, 60_exceptions.md R335). -/
def Obligations.StepRunsDecoded : Prop :=
  ∀ (s : State) (i : Instr) (rest : List Byte),
    s.modeChanged = false → s.delivered = none →
    decode s.env (s.fetchBytes 15 0).1 = .ok (i, rest) →
    (s.mode = .long64 → s.pc.toNat + instrLength i < 2 ^ 64) →
    step s = exec i { s with inhibit := false, offers := s.offers.tail }

/-- Where the bytes of the encoding of a well-formed instruction are fetched at CS:pc, one by one, a step runs that
instruction, whatever stands after it (30_encoding.md R110, R141; 20_memory.md R100). -/
def Obligations.StepRunsEncoded : Prop :=
  ∀ (s : State) (i : Instr),
    s.modeChanged = false → s.delivered = none → i.wf s.env = true →
    (∀ k, k < (encode i).length → s.fetchByte k = .ok ((encode i).getD k 0#8)) →
    (s.mode = .long64 → s.pc.toNat + (encode i).length < 2 ^ 64) →
    step s = exec i { s with inhibit := false, offers := s.offers.tail }

/-- What is not run: an instruction of which a byte that the decoder needs, the first or a later one, is not supplied or was
written by a MOV of this run (the step is refused with that byte's reason: not supplied are the bytes that cannot be
fetched, do not exist or have no value); bytes the decoder rejects; fifteen bytes after which the decoder needs one more; in
LONG64 mode an instruction that ends past the top of the address space. Nothing is executed then (20_memory.md R98, R100;
30_encoding.md R135, R137; 10_state.md R28). That these end the run are decisions of the spec (D3, D10, D13, D17); their form
is the model's (log 7, log 28 to log 31). -/
def Obligations.FetchRefused : Prop :=
  ∀ (s : State), s.modeChanged = false → s.delivered = none →
    (∀ r, s.fetchByte 0 = .error r → step s = .refused r) ∧
    (∀ a, s.fetchAddr 0 = some a → a ∈ s.stored → step s = .refused (.selfModified a)) ∧
    (∀ (bs : List Byte) r, bs.length < 15 → (∀ j, j < bs.length → s.fetchByte j = .ok (bs.getD j 0#8)) →
      decode s.env bs = .error .truncated → s.fetchByte bs.length = .error r → step s = .refused r) ∧
    (∀ k a, s.fetchAddr k = some a → a ∈ s.stored → s.fetchByte k = .error (.selfModified a)) ∧
    (∀ k, (∀ a, s.fetchAddr k = some a → a ∉ s.stored ∧ (s.owns a = false ∨ memGet s.mem a = none)) →
      s.fetchByte k = .error (.fetch s.pc)) ∧
    (∀ why, decode s.env (s.fetchBytes 15 0).1 = .error why → why ≠ .truncated →
      step s = .refused (.notAMov why s.pc)) ∧
    (∀ bs : List Byte, bs.length = 15 → (∀ j, j < 15 → s.fetchByte j = .ok (bs.getD j 0#8)) →
      decode s.env bs = .error .truncated → step s = .refused (.notAMov .tooLong s.pc)) ∧
    (∀ i rest, decode s.env (s.fetchBytes 15 0).1 = .ok (i, rest) → s.mode = .long64 →
      2 ^ 64 ≤ s.pc.toNat + instrLength i → step s = .refused (.pcPastTop s.pc))

/-- At a boundary without inhibition an offered interrupt ends the run, and so does an offered debug exception; with
inhibition the interrupt is not delivered, nor is a debug exception of the suppressed set, and the step is the one without
the offer (60_exceptions.md R334, R335; 41_mov_sreg.md R215). The model's choice (log 25): a delivered debug exception ends
the run as an interrupt does (R334 says it of the interrupt only), the offers of the environment are a list, and a suppressed
offer is used up with its boundary (R335 leaves open whether it is held or lost). -/
def Obligations.BoundaryEvents : Prop :=
  ∀ (s : State) (rest : List (Option Event)), s.modeChanged = false →
    (s.offers = some .interrupt :: rest → s.inhibit = false → step s = .fault (.interrupted s.pc)) ∧
    (∀ k, s.offers = some (.debug k) :: rest → (s.inhibit = false ∨ k ∉ s.params.debugSuppressed) →
      step s = .fault (.debugEvent k s.pc)) ∧
    (s.offers = some .interrupt :: rest → s.inhibit = true → step s = step { s with offers := none :: rest }) ∧
    (∀ k, s.offers = some (.debug k) :: rest → s.inhibit = true → k ∈ s.params.debugSuppressed →
      step s = step { s with offers := none :: rest })

/-- After a step the inhibition is in force exactly if the instruction was a load of SS that completed: it lasts for one
boundary (10_state.md R53, 41_mov_sreg.md R215, 60_exceptions.md R335). -/
def Obligations.InhibitionLastsOneStep : Prop :=
  ∀ (s t : State), step s = .next t →
    (t.inhibit = true ↔ ∃ i, s.enter.fetchInstr = .ok i ∧ sregLoaded i = some (.reg .ss))

/-! ### Reset and invariants -/

/-- The state after reset is a launch state the spec admits (70_reset_and_hazards.md R361), and its segment registers hold
what loads in REAL mode leave. -/
def Obligations.ResetIsLaunchState : Prop := LaunchOk State.reset ∧ SegmentsOk State.reset

/-- The power-up values of the table of 10_state.md R58 (from general knowledge; log 2; EDX is the model's choice, log 3). -/
def Obligations.ResetValues : Prop :=
  State.reset.mode = .real ∧ State.reset.cpl = 0#2 ∧ State.reset.pc = 0xFFF0#64 ∧
  (∀ r : Gpr, State.reset.gpr.get r = 0#64) ∧
  State.reset.flags = { of := false, sf := false, zf := false, af := false, pf := false, cf := false } ∧
  State.reset.cr = { cr0 := 0x60000010#64, cr2 := 0#64, cr3 := 0#64, cr4 := 0#64, cr8 := 0#64 } ∧
  State.reset.dr = { dr0 := 0#64, dr1 := 0#64, dr2 := 0#64, dr3 := 0#64, dr6 := 0xFFFF0FF0#64, dr7 := 0x400#64 } ∧
  State.reset.inhibit = false ∧
  State.reset.seg.cs.sel = 0xF000#16 ∧ State.reset.seg.cs.hid.base = 0xFFFF0000#64 ∧
  State.reset.seg.cs.hid.attr.readable = true ∧
  (∀ r : Sreg, (State.reset.seg.get r).hid.attr.byteLimit = 0xFFFF ∧
    (State.reset.seg.get r).hid.attr.present = true ∧
    (r ≠ .cs → (State.reset.seg.get r).sel = 0#16 ∧ (State.reset.seg.get r).hid.base = 0#64 ∧
      (State.reset.seg.get r).hid.attr.writable = true)) ∧
  (∀ a, memGet State.reset.mem a = none)

/-- Every step keeps what R361 asks: memory in its canonical form, the reserved bits of CR0, CR3, CR4 and CR8 clear, no
invalid combination in CR0, ET sticky, PCIDE only in IA-32e mode, paging and PAE on there, `Mode` in agreement with CR0 until
the run has ended, bits 63:32 of DR6 and DR7 clear; without `HAS_INTEL64` neither COMPAT nor LONG64, and nothing in CR8, in
registers 8 to 15 and in bits 63:32 of any register, which are absent (70_reset_and_hazards.md R361; 10_state.md R20, R40 to
R51). That what is absent holds 0 (log 37), and what the invariant says of memory and of the parameters (log 5, log 7,
log 28), is the model's form. -/
def Obligations.StepKeepsInv : Prop := ∀ (s t : State), Inv s → step s = .next t → Inv t

/-- Every step keeps the segment registers as loads leave them: in REAL and V86 mode the base is the selector times 16
(41_mov_sreg.md R216); elsewhere a NULL segment only under a NULL selector, in SS only in LONG64 below privilege level 3
(R211, R212, R214), and otherwise a present descriptor of a kind the register admits (R211, R213). -/
def Obligations.StepKeepsSegments : Prop := ∀ (s t : State), SegmentsOk s → step s = .next t → SegmentsOk t

/-! ### What holds of every instruction -/

/-- An instruction that completes advances `pc` by its length, the count of all its bytes (10_state.md R28,
30_encoding.md R137). -/
def Obligations.PcAdvances : Prop :=
  ∀ (i : Instr) (s t : State), exec i s = .next t → t.pc = s.pc + BitVec.ofNat 64 (encode i).length

/-- A LOCK prefix on any of the 45 rows raises #UD, whether or not there is a memory operand (20_memory.md R89). -/
def Obligations.LockRaises : Prop :=
  ∀ (i : Instr) (s : State), (instrPfx i).locked = true → Raises i s .ud .none

/-- No MOV writes CPL, `Mode`, the AC flag, the registers that locate the descriptor tables, or CS, and none changes which
bytes exist (10_state.md R37, R39, R59; 41_mov_sreg.md R208; 20_memory.md R91). -/
def Obligations.FixedNeverWritten : Prop :=
  ∀ (i : Instr) (s t : State), exec i s = .next t → FixedSame s t ∧ t.seg.cs = s.seg.cs

/-- Where control and debug registers may not be moved, no instruction changes one or learns one: rows 36 to 45 do not
complete (42_mov_cr.md R250, 43_mov_dr.md R305). -/
def Obligations.UnprivilegedKeepsSystem : Prop :=
  ∀ (i : Instr) (s t : State), ¬ MayMoveSystem s → exec i s = .next t →
    t.cr = s.cr ∧ t.dr = s.dr ∧ movesSystem i = false

/-- A byte that an instruction changes is one of those of its own write access, or the byte of the descriptor that a load of
a segment register marks accessed (20_memory.md R73, R86, R87; 10_state.md R59, which is general knowledge and not in the
source). That a load changes that one byte, at the physical address it was read at, and no other is the model's choice
(log 21): R210 gives no such write, and R56 forbids to assume that there is none. -/
def Obligations.StoresOnlyItsOperand : Prop :=
  ∀ (i : Instr) (s t : State) (a : Nat), exec i s = .next t → memGet t.mem a ≠ memGet s.mem a →
    (∃ d pas, dataAccess i s = some d ∧ d.acc = .write ∧
      s.physBytes d.seg d.off d.n d.acc = .ok pas ∧ a ∈ pas) ∨
    (∃ r sel d pas, LoadOf i s r sel ∧ s.descLookup sel = .ok (.found d pas) ∧ a = pas.getD 5 0 ∧ d.getLsbD 40 = false)

/-- Rows 1 to 35 change no flag (10_state.md R29, 40_mov_data.md R163, 41_mov_sreg.md R200). -/
def Obligations.FlagsUntouched : Prop :=
  ∀ (i : Instr) (s t : State), movesSystem i = false → exec i s = .next t → t.flags = s.flags ∧ t.ac = s.ac

/-- After rows 36 to 45 the six status flags are taken from a free value that no earlier instruction used: the model's form
of "undefined" (42_mov_cr.md R259, 43_mov_dr.md R302; log 11, log 13). -/
def Obligations.FlagsFree : Prop :=
  ∀ (i : Instr) (s t : State), movesSystem i = true → exec i s = .next t →
    ∃ n, s.draws ≤ n ∧ n < t.draws ∧ t.flags = Flags.ofDraw (Config.draw n)

/-! ### MOV between general registers and memory (40_mov_data.md) -/

/-- Rows 1 to 5 with a register destination: the destination takes the source at the row's width, and nothing else but `pc`
changes (R161, R163, R165 to R169). -/
def Obligations.RmFromRegRegister : Prop :=
  ∀ (s : State) (p : Pfx) (d g : Gpr), p.locked = false →
    MovesToReg (.movRm8R8 p (.reg d) g) s .b8 false d (regValue s.gpr .b8 false g) ∧
    MovesToReg (.movRm8R8Rex p (.reg d) g) s .b8 true d (regValue s.gpr .b8 true g) ∧
    MovesToReg (.movRm16R16 p (.reg d) g) s .b16 false d (regValue s.gpr .b16 false g) ∧
    MovesToReg (.movRm32R32 p (.reg d) g) s .b32 false d (regValue s.gpr .b32 false g) ∧
    MovesToReg (.movRm64R64 p (.reg d) g) s .b64 false d (regValue s.gpr .b64 false g)

/-- Rows 1 to 5 with a memory destination whose tests pass: the bytes of the operand, at the addresses computed from the
operand's segment and effective address, take the source, and nothing else but `pc` changes (R161, R163, R165 to R169;
20_memory.md R72, R86). -/
def Obligations.RmFromRegMemory : Prop :=
  ∀ (s : State) (p : Pfx) (m : MemOp) (g : Gpr) (pas : List Nat), p.locked = false →
    (Reaches (.movRm8R8 p (.mem m) g) s pas →
      MovesToMem (.movRm8R8 p (.mem m) g) s pas 1 (regValue s.gpr .b8 false g)) ∧
    (Reaches (.movRm8R8Rex p (.mem m) g) s pas →
      MovesToMem (.movRm8R8Rex p (.mem m) g) s pas 1 (regValue s.gpr .b8 true g)) ∧
    (Reaches (.movRm16R16 p (.mem m) g) s pas →
      MovesToMem (.movRm16R16 p (.mem m) g) s pas 2 (regValue s.gpr .b16 false g)) ∧
    (Reaches (.movRm32R32 p (.mem m) g) s pas →
      MovesToMem (.movRm32R32 p (.mem m) g) s pas 4 (regValue s.gpr .b32 false g)) ∧
    (Reaches (.movRm64R64 p (.mem m) g) s pas →
      MovesToMem (.movRm64R64 p (.mem m) g) s pas 8 (regValue s.gpr .b64 false g))

/-- Rows 6 to 10 with a register source: the destination takes the source at the row's width, and nothing else but `pc`
changes (R161, R163, R170 to R174). -/
def Obligations.RegFromRmRegister : Prop :=
  ∀ (s : State) (p : Pfx) (d g : Gpr), p.locked = false →
    MovesToReg (.movR8Rm8 p d (.reg g)) s .b8 false d (regValue s.gpr .b8 false g) ∧
    MovesToReg (.movR8Rm8Rex p d (.reg g)) s .b8 true d (regValue s.gpr .b8 true g) ∧
    MovesToReg (.movR16Rm16 p d (.reg g)) s .b16 false d (regValue s.gpr .b16 false g) ∧
    MovesToReg (.movR32Rm32 p d (.reg g)) s .b32 false d (regValue s.gpr .b32 false g) ∧
    MovesToReg (.movR64Rm64 p d (.reg g)) s .b64 false d (regValue s.gpr .b64 false g)

/-- Rows 6 to 10 with a memory source whose tests pass and whose bytes have values: the destination takes them, the least
significant first, and nothing else but `pc` changes, memory included (R161, R163, R170 to R174; 20_memory.md R72, R85). -/
def Obligations.RegFromRmMemory : Prop :=
  ∀ (s : State) (p : Pfx) (d : Gpr) (m : MemOp) (pas : List Nat) (v : Word), p.locked = false →
    (Reaches (.movR8Rm8 p d (.mem m)) s pas → BytesAre s.mem pas 1 v →
      MovesToReg (.movR8Rm8 p d (.mem m)) s .b8 false d v) ∧
    (Reaches (.movR8Rm8Rex p d (.mem m)) s pas → BytesAre s.mem pas 1 v →
      MovesToReg (.movR8Rm8Rex p d (.mem m)) s .b8 true d v) ∧
    (Reaches (.movR16Rm16 p d (.mem m)) s pas → BytesAre s.mem pas 2 v →
      MovesToReg (.movR16Rm16 p d (.mem m)) s .b16 false d v) ∧
    (Reaches (.movR32Rm32 p d (.mem m)) s pas → BytesAre s.mem pas 4 v →
      MovesToReg (.movR32Rm32 p d (.mem m)) s .b32 false d v) ∧
    (Reaches (.movR64Rm64 p d (.mem m)) s pas → BytesAre s.mem pas 8 v →
      MovesToReg (.movR64Rm64 p d (.mem m)) s .b64 false d v)

/-- Rows 16 to 20 where the tests of the access pass and its bytes have values: AL, AX, EAX or RAX takes them, one byte in
both byte rows, and nothing else but `pc` changes (R163, R175 to R179). -/
def Obligations.AccFromMoffs : Prop :=
  ∀ (s : State) (p : Pfx) (o : Moffs) (pas : List Nat) (v : Word), p.locked = false →
    (Reaches (.movAlMoffs8 p o) s pas → BytesAre s.mem pas 1 v →
      MovesToReg (.movAlMoffs8 p o) s .b8 p.hasRex .rax v) ∧
    (Reaches (.movAlMoffs8RexW p o) s pas → BytesAre s.mem pas 1 v →
      MovesToReg (.movAlMoffs8RexW p o) s .b8 p.hasRex .rax v) ∧
    (Reaches (.movAxMoffs16 p o) s pas → BytesAre s.mem pas 2 v →
      MovesToReg (.movAxMoffs16 p o) s .b16 false .rax v) ∧
    (Reaches (.movEaxMoffs32 p o) s pas → BytesAre s.mem pas 4 v →
      MovesToReg (.movEaxMoffs32 p o) s .b32 false .rax v) ∧
    (Reaches (.movRaxMoffs64 p o) s pas → BytesAre s.mem pas 8 v →
      MovesToReg (.movRaxMoffs64 p o) s .b64 false .rax v)

/-- Rows 21 to 25 where the tests of the access pass: the bytes of the operand take AL, AX, EAX or RAX, one byte in both
byte rows, and nothing else but `pc` changes (R163, R180 to R184). -/
def Obligations.MoffsFromAcc : Prop :=
  ∀ (s : State) (p : Pfx) (o : Moffs) (pas : List Nat), p.locked = false →
    (Reaches (.movMoffs8Al p o) s pas → MovesToMem (.movMoffs8Al p o) s pas 1 s.gpr.rax) ∧
    (Reaches (.movMoffs8AlRexW p o) s pas → MovesToMem (.movMoffs8AlRexW p o) s pas 1 s.gpr.rax) ∧
    (Reaches (.movMoffs16Ax p o) s pas → MovesToMem (.movMoffs16Ax p o) s pas 2 s.gpr.rax) ∧
    (Reaches (.movMoffs32Eax p o) s pas → MovesToMem (.movMoffs32Eax p o) s pas 4 s.gpr.rax) ∧
    (Reaches (.movMoffs64Rax p o) s pas → MovesToMem (.movMoffs64Rax p o) s pas 8 s.gpr.rax)

/-- Rows 26 to 30: the register takes the immediate at the row's width, not sign-extended, and nothing else but `pc` changes
(R163, R185 to R189). -/
def Obligations.RegFromImm : Prop :=
  ∀ (s : State) (p : Pfx) (g : Gpr) (b : Byte) (h : Half) (d : Dword) (w : Word), p.locked = false →
    MovesToReg (.movR8Imm8 p g b) s .b8 false g (b.setWidth 64) ∧
    MovesToReg (.movR8Imm8Rex p g b) s .b8 true g (b.setWidth 64) ∧
    MovesToReg (.movR16Imm16 p g h) s .b16 false g (h.setWidth 64) ∧
    MovesToReg (.movR32Imm32 p g d) s .b32 false g (d.setWidth 64) ∧
    MovesToReg (.movR64Imm64 p g w) s .b64 false g w

/-- Rows 31 to 35 with a register destination: it takes the immediate, sign-extended in the 64-bit row, and nothing else but
`pc` changes (R160, R163, R190 to R194). -/
def Obligations.RmFromImmRegister : Prop :=
  ∀ (s : State) (p : Pfx) (g : Gpr) (b : Byte) (h : Half) (d : Dword), p.locked = false →
    MovesToReg (.movRm8Imm8 p (.reg g) b) s .b8 false g (b.setWidth 64) ∧
    MovesToReg (.movRm8Imm8Rex p (.reg g) b) s .b8 true g (b.setWidth 64) ∧
    MovesToReg (.movRm16Imm16 p (.reg g) h) s .b16 false g (h.setWidth 64) ∧
    MovesToReg (.movRm32Imm32 p (.reg g) d) s .b32 false g (d.setWidth 64) ∧
    MovesToReg (.movRm64Imm32 p (.reg g) d) s .b64 false g (BitVec.ofInt 64 d.toInt)

/-- Rows 31 to 35 with a memory destination whose tests pass: the bytes of the operand take the immediate, sign-extended in
the 64-bit row, and nothing else but `pc` changes (R160, R163, R190 to R194). -/
def Obligations.RmFromImmMemory : Prop :=
  ∀ (s : State) (p : Pfx) (m : MemOp) (b : Byte) (h : Half) (d : Dword) (pas : List Nat), p.locked = false →
    (Reaches (.movRm8Imm8 p (.mem m) b) s pas →
      MovesToMem (.movRm8Imm8 p (.mem m) b) s pas 1 (b.setWidth 64)) ∧
    (Reaches (.movRm8Imm8Rex p (.mem m) b) s pas →
      MovesToMem (.movRm8Imm8Rex p (.mem m) b) s pas 1 (b.setWidth 64)) ∧
    (Reaches (.movRm16Imm16 p (.mem m) h) s pas →
      MovesToMem (.movRm16Imm16 p (.mem m) h) s pas 2 (h.setWidth 64)) ∧
    (Reaches (.movRm32Imm32 p (.mem m) d) s pas →
      MovesToMem (.movRm32Imm32 p (.mem m) d) s pas 4 (d.setWidth 64)) ∧
    (Reaches (.movRm64Imm32 p (.mem m) d) s pas →
      MovesToMem (.movRm64Imm32 p (.mem m) d) s pas 8 (BitVec.ofInt 64 d.toInt))

/-! ### Memory operands (20_memory.md) -/

/-- The effective address of each addressing form, as a number: the sum of its registers and its displacement modulo 2 to
the address size (R74; 30_encoding.md R118 to R121). -/
def Obligations.EffectiveAddress : Prop :=
  ∀ (s : State) (p : Pfx) (len : Nat),
    (∀ b d, ((s.effAddr p len (.based16 b d)).toNat : Int) =
      (((base16Regs b).map fun r => ((s.gpr.get r).toNat : Int)).sum + dispInt d) % 2 ^ 16) ∧
    (∀ d, (s.effAddr p len (.abs16 d)).toNat = d.toNat) ∧
    (∀ r d, ((s.effAddr p len (.based r d)).toNat : Int) =
      ((s.gpr.get r).toNat + dispInt d) % 2 ^ addrBits (addrSize s.env p)) ∧
    (∀ sc x b d, ((s.effAddr p len (.sib sc (some x) b d)).toNat : Int) =
      ((s.gpr.get b).toNat + (s.gpr.get x).toNat * 2 ^ sc.toNat + dispInt d) % 2 ^ addrBits (addrSize s.env p)) ∧
    (∀ sc b d, ((s.effAddr p len (.sib sc none b d)).toNat : Int) =
      ((s.gpr.get b).toNat + dispInt d) % 2 ^ addrBits (addrSize s.env p)) ∧
    (∀ sc x d, ((s.effAddr p len (.sibNoBase sc (some x) d)).toNat : Int) =
      ((s.gpr.get x).toNat * 2 ^ sc.toNat + d.toInt) % 2 ^ addrBits (addrSize s.env p)) ∧
    (∀ sc d, ((s.effAddr p len (.sibNoBase sc none d)).toNat : Int) = d.toInt % 2 ^ addrBits (addrSize s.env p)) ∧
    (∀ d, ((s.effAddr p len (.abs32 d)).toNat : Int) = d.toInt % 2 ^ addrBits (addrSize s.env p)) ∧
    (∀ d, ((s.effAddr p len (.rip d)).toNat : Int) =
      (s.pc.toNat + len + d.toInt) % 2 ^ addrBits (addrSize s.env p))

/-- The segment of an operand in memory, for each addressing form. With no segment override: SS for the 16-bit forms with BP
(BP+SI, BP+DI, BP) and for a base of (E/R)BP or (E/R)SP, with or without a SIB byte; DS for every other 16-bit base, for
another base, for a form without a base, and for a moffs (R75; 30_encoding.md R118 to R121, R127). The last override gives
the segment, of which in LONG64 mode only those of FS and GS count (30_encoding.md R111, R112). That an override of ES, CS,
SS or DS in LONG64 mode leaves an earlier one of FS or GS in force is the model's reading (log 32). -/
def Obligations.OperandSegment : Prop :=
  ∀ (s : State) (xs ys : List LegacyPfx) (rex : Option Rex) (q : Sreg),
    (∀ y, y ∈ ys → isSegPfx y = false) →
    ((s.mode ≠ .long64 ∨ q = .fs ∨ q = .gs) →
      (∀ m, s.memSeg ⟨xs ++ .seg q :: ys, rex⟩ m = q) ∧ s.moffsSeg ⟨xs ++ .seg q :: ys, rex⟩ = q) ∧
    (s.mode = .long64 → q ≠ .fs → q ≠ .gs →
      (∀ m, s.memSeg ⟨xs ++ .seg q :: ys, rex⟩ m = s.memSeg ⟨xs ++ ys, rex⟩ m) ∧
      s.moffsSeg ⟨xs ++ .seg q :: ys, rex⟩ = s.moffsSeg ⟨xs ++ ys, rex⟩) ∧
    (∀ b d, s.memSeg ⟨ys, rex⟩ (.based16 b d) = if b = .bpSi ∨ b = .bpDi ∨ b = .bp then .ss else .ds) ∧
    (∀ d, s.memSeg ⟨ys, rex⟩ (.abs16 d) = .ds) ∧
    (∀ r d, s.memSeg ⟨ys, rex⟩ (.based r d) = if r = .rsp ∨ r = .rbp then .ss else .ds) ∧
    (∀ sc idx b d, s.memSeg ⟨ys, rex⟩ (.sib sc idx b d) = if b = .rsp ∨ b = .rbp then .ss else .ds) ∧
    (∀ sc idx d, s.memSeg ⟨ys, rex⟩ (.sibNoBase sc idx d) = .ds) ∧
    (∀ d, s.memSeg ⟨ys, rex⟩ (.abs32 d) = .ds) ∧
    (∀ d, s.memSeg ⟨ys, rex⟩ (.rip d) = .ds) ∧
    s.moffsSeg ⟨ys, rex⟩ = .ds

/-- What the tests of an access mean for each of its bytes: `InLimit` holds exactly if every byte lies within the segment
(10_state.md R35, R59), and a linear address is canonical exactly if bits 63 down to `VA_BITS − 1` are all equal
(R80). -/
def Obligations.LimitAndCanonicalMeaning : Prop :=
  (∀ (d : SegAttr) (off n : Nat), 0 < n →
    (d.inLimit off n = true ↔
      ∀ k, k < n → if d.expandDown = true then d.byteLimit < off + k ∧ off + k < (if d.db = true then 2 ^ 32 else 2 ^ 16)
        else off + k ≤ d.byteLimit)) ∧
  (∀ (va : Nat) (lin : Word), 1 ≤ va → va ≤ 64 →
    (canonical va lin.toNat = true ↔ ∀ k, va - 1 ≤ k → k < 64 → lin.getLsbD k = lin.getLsbD 63))

/-- Where the segment-level tests pass, the access is not misaligned or not checked, its bytes exist, and paging is off, the
bytes of an access are at consecutive physical addresses from the segment base plus the offset, modulo the linear space; with
paging on they are where `Translate` puts them (R76, R77 to R80, R82 to R86, R91). That the bytes after the first wrap modulo
the linear space one by one is the model's reading (log 34; R76 gives the sum for the first byte), and so are when the
alignment check applies (`Misaligned`; log 22, R54 leaves it a parameter) and the form of which bytes exist (log 7). -/
def Obligations.AccessReaches : Prop :=
  ∀ (s : State) (d : DataAccess) (pas : List Nat), SegmentPasses s d → ¬ Misaligned s d →
    (∀ a, a ∈ pas → s.owns a = true) →
    ((s.mode = .real ∨ s.cr.cr0.getLsbD 31 = false) →
      pas = ((List.range d.n).map fun k =>
          (((if s.mode = .long64 ∧ d.seg ≠ .fs ∧ d.seg ≠ .gs then 0 else (s.seg.get d.seg).hid.base.toNat) +
            d.off.toNat) % (if s.mode = .long64 then 2 ^ 64 else 2 ^ 32) + k) %
              (if s.mode = .long64 then 2 ^ 64 else 2 ^ 32)) →
      s.physBytes d.seg d.off d.n d.acc = .ok pas) ∧
    (translateAccess s d = .ok pas → s.physBytes d.seg d.off d.n d.acc = .ok pas)

/-- The segment-level faults of every row with a memory operand, before any other test: in PROT and COMPAT mode #GP(0) for a
NULL segment, then #SS(0) or #GP(0) for the limit, then #GP(0) for a write to a segment that is not writable; in V86 mode
the limit's, with code 0, and in REAL mode without a code; in LONG64 mode #SS(0) or #GP(0) for a byte that is not
canonical, and no other (R77 to R81, R84). Which of two different segment-level exceptions comes first, NULL before the limit
before writability, is the model's choice (log 9): R84 and R330 fix no order among them that a claim about the processor may
rely on. -/
def Obligations.SegmentFaults : Prop :=
  ∀ (i : Instr) (s : State) (d : DataAccess), (instrPfx i).locked = false → dataAccess i s = some d →
    ((s.mode = .prot ∨ s.mode = .compat) → DataSreg d.seg → (s.seg.get d.seg).hid.kind = .null →
      Raises i s .gp (.code 0)) ∧
    ((s.mode = .prot ∨ s.mode = .compat) → ¬ (DataSreg d.seg ∧ (s.seg.get d.seg).hid.kind = .null) →
      (s.seg.get d.seg).hid.attr.inLimit d.off.toNat d.n = false →
      Raises i s (if d.seg = .ss then .ss else .gp) (.code 0)) ∧
    ((s.mode = .prot ∨ s.mode = .compat) → ¬ (DataSreg d.seg ∧ (s.seg.get d.seg).hid.kind = .null) →
      (s.seg.get d.seg).hid.attr.inLimit d.off.toNat d.n = true → d.acc = .write →
      (s.seg.get d.seg).hid.attr.writable = false → Raises i s .gp (.code 0)) ∧
    (s.mode = .v86 → (s.seg.get d.seg).hid.attr.inLimit d.off.toNat d.n = false →
      Raises i s (if d.seg = .ss then .ss else .gp) (.code 0)) ∧
    (s.mode = .real → (s.seg.get d.seg).hid.attr.inLimit d.off.toNat d.n = false →
      Raises i s (if d.seg = .ss then .ss else .gp) .none) ∧
    (s.mode = .long64 → (∃ k, k < d.n ∧ canonical s.params.vaBits ((s.linear d.seg d.off + k) % 2 ^ 64) = false) →
      Raises i s (if d.seg = .ss then .ss else .gp) (.code 0))

/-- The faults of every row with a memory operand after the segment-level tests: #AC(0) for a misaligned access where the
check applies, #PF with the code of `Translate` where there is one, and one of the two where both apply (R82 to R84); after
all tests, an access to a byte that does not exist stops (R90, R91: the launch memory says which exist), and so does a read of
a byte that nothing has written. When the alignment check applies (CR0.AM and AC set; R54 leaves it a parameter) is presumed
by the model (log 22), and that these stops are faults named `notOwned` and `unwritten`, taken for the first such byte, is
the model's choice (log 7). -/
def Obligations.AlignmentAndPageFaults : Prop :=
  ∀ (i : Instr) (s : State) (d : DataAccess), (instrPfx i).locked = false → dataAccess i s = some d →
    SegmentPasses s d →
    (∀ pas, translateAccess s d = .ok pas → Misaligned s d → Raises i s .ac (.code 0)) ∧
    (∀ code, translateAccess s d = .error code → ¬ Misaligned s d → Raises i s .pf (.code code)) ∧
    (∀ code, translateAccess s d = .error code → Misaligned s d →
      Raises i s .ac (.code 0) ∨ Raises i s .pf (.code code)) ∧
    (∀ pas k, translateAccess s d = .ok pas → ¬ Misaligned s d → k < d.n →
      s.owns (pas.getD k 0) = false → (∀ j, j < k → s.owns (pas.getD j 0) = true) →
      exec i s = .fault (.notOwned (pas.getD k 0))) ∧
    (∀ pas k, translateAccess s d = .ok pas → ¬ Misaligned s d → d.acc = .read → k < d.n →
      (∀ a, a ∈ pas → s.owns a = true) → memGet s.mem (pas.getD k 0) = none → (∀ j, j < k → (memGet s.mem (pas.getD j 0)).isSome = true) →
      exec i s = .fault (.unwritten (pas.getD k 0)))

/-- Little-endian memory: what a store of `n` bytes wrote is what reading those bytes gives, and a byte at any of the
addresses is that byte of the value (R72, R73). -/
def Obligations.ReadAfterWrite : Prop :=
  ∀ (s t : State) (r : Sreg) (off : Word) (n : Nat) (v : Word), n ≤ 8 → s.logWrite r off n v = .ok t →
    ∀ pas, s.physBytes r off n .write = .ok pas → pas.Nodup →
      BytesAre t.mem pas n v ∧
      (t.physBytes r off n .read = .ok pas → ∃ w, t.logRead r off n = .ok w ∧ w.toNat = v.toNat % 2 ^ (8 * n))

/-! ### Segment registers (41_mov_sreg.md) -/

/-- Rows 11 to 13 with a register destination: bits 15:0 take the selector; above them the 16-bit row keeps the register's
bits, the 64-bit row writes 0, and the 32-bit row writes 0 in bits 31:16 where `SREG_UPPER_ZERO` or `HAS_INTEL64` is true and
leaves them anything where both are false; nothing else but `pc` changes (R200 to R204, R219). That `HAS_INTEL64` alone makes
them 0 is the model's reading of parameters R219 does not admit (log 14). -/
def Obligations.SregToRegister : Prop :=
  ∀ (s : State) (p : Pfx) (g : Gpr) (r : Sreg), p.locked = false →
    MovesToReg (.movRm16Sreg p (.reg g) (.reg r)) s .b16 false g ((s.seg.get r).sel.setWidth 64) ∧
    (∃ v : Word, v.extractLsb' 0 16 = (s.seg.get r).sel ∧
      ((s.params.sregUpperZero = true ∨ s.params.hasIntel64 = true) → v = (s.seg.get r).sel.setWidth 64) ∧
      MovesToReg (.movR32M16Sreg p (.reg g) (.reg r)) s .b32 false g v) ∧
    MovesToReg (.movR64M16Sreg p (.reg g) (.reg r)) s .b64 false g ((s.seg.get r).sel.setWidth 64)

/-- Rows 11 to 13 with a memory destination whose tests pass: two bytes take the selector, in every row, and nothing else but
`pc` changes (R200 to R204). -/
def Obligations.SregToMemory : Prop :=
  ∀ (s : State) (p : Pfx) (m : MemOp) (r : Sreg) (pas : List Nat), p.locked = false →
    (Reaches (.movRm16Sreg p (.mem m) (.reg r)) s pas →
      MovesToMem (.movRm16Sreg p (.mem m) (.reg r)) s pas 2 ((s.seg.get r).sel.setWidth 64)) ∧
    (Reaches (.movR32M16Sreg p (.mem m) (.reg r)) s pas →
      MovesToMem (.movR32M16Sreg p (.mem m) (.reg r)) s pas 2 ((s.seg.get r).sel.setWidth 64)) ∧
    (Reaches (.movR64M16Sreg p (.mem m) (.reg r)) s pas →
      MovesToMem (.movR64M16Sreg p (.mem m) (.reg r)) s pas 2 ((s.seg.get r).sel.setWidth 64))

/-- A reg field of 6 or 7 in opcodes 8C and 8E raises #UD, in both directions and in every mode (R209). -/
def Obligations.SregNumbersUndefined : Prop :=
  ∀ (s : State) (p : Pfx) (rm : RmOp) (f : SregField), f = .num6 ∨ f = .num7 →
    Raises (.movRm16Sreg p rm f) s .ud .none ∧ Raises (.movR32M16Sreg p rm f) s .ud .none ∧
    Raises (.movR64M16Sreg p rm f) s .ud .none ∧ Raises (.movSregRm16 p f rm) s .ud .none ∧
    Raises (.movSregRm64 p f rm) s .ud .none

/-- A load of CS raises #UD in every mode, with either row, whatever the source operand (R208; that the test stands before the
read of the operand is a decision of the spec, D5). -/
def Obligations.LoadCsUndefined : Prop :=
  ∀ (s : State) (p : Pfx) (rm : RmOp),
    Raises (.movSregRm16 p (.reg .cs) rm) s .ud .none ∧ Raises (.movSregRm64 p (.reg .cs) rm) s .ud .none

/-- A load in REAL mode takes any selector, without a check: the base is the selector times 16, the limit and the attributes
stay, and memory stays; a load of SS inhibits events at the next boundary (R200, R215, R216). -/
def Obligations.LoadSregReal : Prop :=
  ∀ (i : Instr) (s : State) (r : Sreg) (sel : Half), LoadOf i s r sel → r ≠ .cs → s.mode = .real →
    Completes i s fun t => LoadedSeg s t (instrLength i) r sel ∧ MemorySame s t ∧
      (t.seg.get r).hid.kind = .real ∧ (t.seg.get r).hid.base.toNat = 16 * sel.toNat ∧
      (t.seg.get r).hid.attr = (s.seg.get r).hid.attr

/-- A load in V86 mode takes any selector, without a check: the base is the selector times 16 and the limit FFFFh, and memory
stays (R200, R215, R216). -/
def Obligations.LoadSregV86 : Prop :=
  ∀ (i : Instr) (s : State) (r : Sreg) (sel : Half), LoadOf i s r sel → r ≠ .cs → s.mode = .v86 →
    Completes i s fun t => LoadedSeg s t (instrLength i) r sel ∧ MemorySame s t ∧
      (t.seg.get r).hid.kind = .real ∧ (t.seg.get r).hid.base.toNat = 16 * sel.toNat ∧
      ∀ off n, 0 < n → ((t.seg.get r).hid.attr.inLimit off n = true ↔ off + n ≤ 0x10000)

/-- A NULL selector loads into DS, ES, FS and GS without an exception: the register keeps the selector with its RPL, its hidden
part records the NULL segment, and memory stays (R214). -/
def Obligations.LoadSregNull : Prop :=
  ∀ (i : Instr) (s : State) (r : Sreg) (sel : Half), LoadOf i s r sel → CheckedMode s → DataSreg r → sel.toNat ≤ 3 →
    Completes i s fun t => LoadedSeg s t (instrLength i) r sel ∧ MemorySame s t ∧ (t.seg.get r).hid.kind = .null

/-- A NULL selector for SS raises #GP(0) in PROT and COMPAT mode; in LONG64 mode it raises #GP(0) at CPL 3 or where its RPL is
not CPL, and loads otherwise (R211 (1), R212 (1)). -/
def Obligations.LoadSsNull : Prop :=
  ∀ (i : Instr) (s : State) (sel : Half), LoadOf i s .ss sel → CheckedMode s → sel.toNat ≤ 3 →
    (s.mode ≠ .long64 → Raises i s .gp (.code 0)) ∧
    (s.mode = .long64 → (s.cpl = 3#2 ∨ selRpl sel ≠ s.cpl) → Raises i s .gp (.code 0)) ∧
    (s.mode = .long64 → s.cpl ≠ 3#2 → selRpl sel = s.cpl →
      Completes i s fun t => LoadedSeg s t (instrLength i) .ss sel ∧ MemorySame s t ∧ (t.seg.get .ss).hid.kind = .null)

/-- A load of DS, ES, FS or GS from a descriptor that passes the tests: the register takes the selector and the descriptor, and
the descriptor in memory is marked accessed (R213; 10_state.md R59, which is general knowledge and not in the source). The
write of the Accessed bit is the model's choice (log 21): it has no test of its own, goes to the physical address the byte was
read at, sets that one bit and changes no other byte, and leaves the hidden part as read. -/
def Obligations.LoadSregDescriptor : Prop :=
  ∀ (i : Instr) (s : State) (r : Sreg) (sel : Half) (d : Word) (pas : List Nat),
    LoadOf i s r sel → CheckedMode s → DataSreg r → 3 < sel.toNat → s.descLookup sel = .ok (.found d pas) →
    ¬ DataDescriptorBad s sel (descAttr d) → (descAttr d).present = true →
    Completes i s fun t => LoadedSeg s t (instrLength i) r sel ∧ AccessedSet s t d pas ∧
      (t.seg.get r).hid = { kind := .desc, base := descBase d, attr := descAttr d }

/-- A load of SS from a descriptor that passes the tests: SS takes the selector and the descriptor, the descriptor in memory is
marked accessed, and events are inhibited at the next boundary (R211, R212, R215; 10_state.md R59, which is general knowledge
and not in the source). The write of the Accessed bit is the model's choice (log 21): it has no test of its own, goes to the
physical address the byte was read at, sets that one bit and changes no other byte, and leaves the hidden part as read. -/
def Obligations.LoadSsDescriptor : Prop :=
  ∀ (i : Instr) (s : State) (sel : Half) (d : Word) (pas : List Nat),
    LoadOf i s .ss sel → CheckedMode s → 3 < sel.toNat → s.descLookup sel = .ok (.found d pas) →
    ¬ StackDescriptorBad s sel (descAttr d) → (descAttr d).present = true →
    Completes i s fun t => LoadedSeg s t (instrLength i) .ss sel ∧ AccessedSet s t d pas ∧ t.inhibit = true ∧
      (t.seg.get .ss).hid = { kind := .desc, base := descBase d, attr := descAttr d }

/-- The faults of a load from a descriptor, in the order of the listing: #PF of the descriptor's fetch; #GP(selector) for a
selector outside the table, a descriptor access that is not canonical, or a descriptor that fails the tests; then for one that
is not present #SS(selector) for SS and #NP(selector) for the others. The code is the selector with its RPL bits 0 (R210 to
R213, R220; 60_exceptions.md R321). -/
def Obligations.LoadDescriptorFaults : Prop :=
  ∀ (i : Instr) (s : State) (r : Sreg) (sel : Half), LoadOf i s r sel → CheckedMode s → r ≠ .cs → 3 < sel.toNat →
    (∀ code, s.descLookup sel = .ok (.pageFault code) → Raises i s .pf (.code code)) ∧
    (s.descLookup sel = .ok .outsideLimit → Raises i s .gp (.code (sel.toNat - sel.toNat % 4))) ∧
    (s.descLookup sel = .ok .nonCanonical → Raises i s .gp (.code (sel.toNat - sel.toNat % 4))) ∧
    (∀ d pas, s.descLookup sel = .ok (.found d pas) →
      (r = .ss → StackDescriptorBad s sel (descAttr d) → Raises i s .gp (.code (sel.toNat - sel.toNat % 4))) ∧
      (r = .ss → ¬ StackDescriptorBad s sel (descAttr d) → (descAttr d).present = false →
        Raises i s .ss (.code (sel.toNat - sel.toNat % 4))) ∧
      (r ≠ .ss → DataDescriptorBad s sel (descAttr d) → Raises i s .gp (.code (sel.toNat - sel.toNat % 4))) ∧
      (r ≠ .ss → ¬ DataDescriptorBad s sel (descAttr d) → (descAttr d).present = false →
        Raises i s .np (.code (sel.toNat - sel.toNat % 4))))

/-- Where a descriptor is: outside the table if its last byte passes the limit, or if the selector means an LDT and none is
valid; in LONG64 mode not canonical if a byte of it is not; otherwise the eight bytes at the table's base plus 8 times the
index, where the processor's own accesses are translated to, the least significant byte first; the first byte that
page-faults gives the code; a byte that does not exist, or that nothing has written, stops (10_state.md R36, R59;
20_memory.md R91, R92). Where the tables are read from, and the form of the stops, are the model's choice (log 7, log 20). -/
def Obligations.DescriptorLookup : Prop :=
  ∀ (s : State) (sel : Half) (base : Word) (limit space : Nat),
    space = (if s.mode = .long64 then 2 ^ 64 else 2 ^ 32) →
    (sel.getLsbD 2 = true → s.ldtr.valid = false → s.descLookup sel = .ok .outsideLimit) ∧
    ((sel.getLsbD 2 = false ∧ base = s.gdtr.base ∧ limit = s.gdtr.limit.toNat) ∨
      (sel.getLsbD 2 = true ∧ s.ldtr.valid = true ∧ base = s.ldtr.base ∧ limit = s.ldtr.limit.toNat) →
      (limit < 8 * (sel.toNat / 8) + 7 → s.descLookup sel = .ok .outsideLimit) ∧
      (8 * (sel.toNat / 8) + 7 ≤ limit → s.mode = .long64 →
        (∃ k, k < 8 ∧ canonical s.params.vaBits ((base.toNat + 8 * (sel.toNat / 8) + k) % space) = false) →
        s.descLookup sel = .ok .nonCanonical) ∧
      (8 * (sel.toNat / 8) + 7 ≤ limit →
        (s.mode = .long64 →
          ∀ k, k < 8 → canonical s.params.vaBits ((base.toNat + 8 * (sel.toNat / 8) + k) % space) = true) →
        ∀ (pa : Nat → Nat),
          ((∀ k, k < 8 →
              s.translateByte .table ((base.toNat + 8 * (sel.toNat / 8) + k) % space) = .ok (pa k)) →
            (∀ d : Word, (∀ k, k < 8 → s.owns (pa k) = true) →
              (∀ k, k < 8 → memGet s.mem (pa k) = some (d.extractLsb' (8 * k) 8)) →
              s.descLookup sel = .ok (.found d ((List.range 8).map pa))) ∧
            (∀ k, k < 8 → s.owns (pa k) = false → (∀ j, j < k → s.owns (pa j) = true) →
              s.descLookup sel = .error (.fault (.notOwned (pa k)))) ∧
            (∀ k, k < 8 → (∀ j, j < 8 → s.owns (pa j) = true) →
              memGet s.mem (pa k) = none → (∀ j, j < k → (memGet s.mem (pa j)).isSome = true) →
              s.descLookup sel = .error (.fault (.unwritten (pa k))))) ∧
          (∀ k code, k < 8 →
            (∀ j, j < k →
              s.translateByte .table ((base.toNat + 8 * (sel.toNat / 8) + j) % space) = .ok (pa j)) →
            s.translateByte .table ((base.toNat + 8 * (sel.toNat / 8) + k) % space) = .error code →
            s.descLookup sel = .ok (.pageFault code))))

/-! ### Control registers (42_mov_cr.md) -/

/-- Rows 36 to 38 where the register exists and may be moved: the general register takes the control register at the row's
width, and nothing else but `pc` and the status flags changes (R243 to R246, R250, R251, R259). -/
def Obligations.ReadCr : Prop :=
  ∀ (s : State) (p : Pfx) (m : BitVec 2) (g : Gpr), p.locked = false → MayMoveSystem s →
    (∀ c r, (c, r) ∈ [(CrNum.cr0, CrReg.cr0), (.cr2, .cr2), (.cr3, .cr3), (.cr4, .cr4)] →
      (r = .cr4 → s.params.hasCr4 = true) →
      (Completes (.movR32Cr p m g c) s fun t =>
        ReadSystem s t (instrLength (.movR32Cr p m g c)) .b32 g (s.cr.get r)) ∧
      (Completes (.movR64Cr p m g c) s fun t =>
        ReadSystem s t (instrLength (.movR64Cr p m g c)) .b64 g (s.cr.get r))) ∧
    (Completes (.movR64Cr8 p m g .cr8) s fun t =>
      ReadSystem s t (instrLength (.movR64Cr8 p m g .cr8)) .b64 g s.cr.cr8)

/-- CR1, CR5, CR6, CR7 and CR9 to CR15 do not exist: rows 36 to 41 raise #UD for them, in every mode and at every privilege
level, and for every register under a LOCK prefix (R243, R265). -/
def Obligations.CrNumbersUndefined : Prop :=
  ∀ (s : State) (p : Pfx) (m : BitVec 2) (g : Gpr),
    (∀ c, (p.locked = true ∨ c ∈ [CrNum.cr1, .cr5, .cr6, .cr7]) →
      Raises (.movR32Cr p m g c) s .ud .none ∧ Raises (.movR64Cr p m g c) s .ud .none ∧
      Raises (.movCrR32 p m c g) s .ud .none ∧ Raises (.movCrR64 p m c g) s .ud .none) ∧
    (∀ c, (p.locked = true ∨ c ≠ CrHigh.cr8) →
      Raises (.movR64Cr8 p m g c) s .ud .none ∧ Raises (.movCr8R64 p m c g) s .ud .none)

/-- A move of a control register that exists raises #GP(0) in V86 mode, and in PROT, COMPAT and LONG64 mode at a privilege
level other than 0, whatever the values (R250, R265); without CR4 on the processor a move of CR4 is outside the spec, and the
model refuses it (10_state.md R44, 93 U24; log 35). -/
def Obligations.CrPrivilege : Prop :=
  ∀ (i : Instr) (s : State) (r : CrReg), CrMoveOf i r →
    ((r = .cr4 → s.params.hasCr4 = true) → (s.mode = .v86 ∨ (s.mode ≠ .real ∧ s.cpl ≠ 0#2)) →
      Raises i s .gp (.code 0)) ∧
    (r = .cr4 → s.params.hasCr4 = false → exec i s = .refused .noCr4)

/-- A write of CR0: refused with #GP(0), without a code in REAL mode, for the values R252 names; otherwise CR0 takes the value
with its reserved bits clear and, with `CR0_ET_STICKY`, ET set, and no other register changes (R247, R248, R252, R253, R261;
20_memory.md R99; 60_exceptions.md R321). That the epoch of `Translate` grows by one is the model's form of R99 and R261, by
which it may answer differently afterwards (log 16). -/
def Obligations.WriteCr0 : Prop :=
  ∀ (i : Instr) (s : State) (v : Word), CrWriteOf i s .cr0 v → MayMoveSystem s →
    (Cr0Bad s v → Raises i s .gp (if s.mode = .real then .none else .code 0)) ∧
    (¬ Cr0Bad s v → Completes i s fun t =>
      WroteCr s t (instrLength i) .cr0 ∧ t.epoch = s.epoch + 1 ∧
      ∀ k, k < 64 → t.cr.cr0.getLsbD k =
        ((s.params.cr0EtSticky && k == 4) || (v.getLsbD k && !s.params.cr0Reserved.getLsbD k)))

/-- A write of CR2 has no test of the value: CR2 takes it, zero-extended from 32 bits in the 32-bit row (R242, by the spec's
decision D32), and no other register changes (R247, R248, R254). It is no write after which `Translate` may answer differently
(R261; 20_memory.md R99; 70_reset_and_hazards.md R369) or that ends the run (R262); that the epoch of `Translate` and the note
on the translation caches stay as they were is the model's form of that (log 16). -/
def Obligations.WriteCr2 : Prop :=
  ∀ (i : Instr) (s : State) (v : Word), CrWriteOf i s .cr2 v → MayMoveSystem s →
    Completes i s fun t =>
      WroteCr s t (instrLength i) .cr2 ∧ ControlSame { s with cr := t.cr } t ∧ t.cr.cr2 = v

/-- A write of CR3: refused with #GP(0) for the values R255 names; otherwise CR3 takes the value with its reserved bits and bit
63 clear, and no other register changes. With CR4.PCIDE set, bit 63 of the source is accepted, not stored, and kept as what
decides the invalidation (R247, R248, R255, R261; 20_memory.md R99). That the epoch of `Translate` grows by one and that the
bit is kept in a note are the model's form of R99 and R261 (log 16); that bit 63 is reserved and never stored whatever
`CR3_RESERVED` says is its reading of R255 (log 36). -/
def Obligations.WriteCr3 : Prop :=
  ∀ (i : Instr) (s : State) (v : Word), CrWriteOf i s .cr3 v → MayMoveSystem s →
    (Cr3Bad s v → Raises i s .gp (.code 0)) ∧
    (¬ Cr3Bad s v → Completes i s fun t =>
      WroteCr s t (instrLength i) .cr3 ∧ t.epoch = s.epoch + 1 ∧ t.modeChanged = s.modeChanged ∧
      (∀ k, k < 64 → t.cr.cr3.getLsbD k = (v.getLsbD k && !s.params.cr3Reserved.getLsbD k && k != 63)) ∧
      (s.cr.cr4.getLsbD 17 = true → t.tlb = .byBit63 (v.getLsbD 63)))

/-- A write of CR4: refused with #GP(0), without a code in REAL mode, for the values R256 names; otherwise CR4 takes the value,
and no other register changes (R247, R248, R256, R261; 20_memory.md R99; 60_exceptions.md R321). That the epoch of `Translate`
grows by one is the model's form of R99 and R261, by which it may answer differently afterwards (log 16). -/
def Obligations.WriteCr4 : Prop :=
  ∀ (i : Instr) (s : State) (v : Word), CrWriteOf i s .cr4 v → MayMoveSystem s → s.params.hasCr4 = true →
    (Cr4Bad s v → Raises i s .gp (if s.mode = .real then .none else .code 0)) ∧
    (¬ Cr4Bad s v → Completes i s fun t =>
      WroteCr s t (instrLength i) .cr4 ∧ t.epoch = s.epoch + 1 ∧ t.cr.cr4 = v)

/-- A write of CR8: #GP(0) for a 1 in a reserved bit; otherwise CR8 takes the value, and no other register changes
(R249, R257). It is no write after which `Translate` may answer differently (R261; 20_memory.md R99; 70_reset_and_hazards.md
R369) or that ends the run (R262); that the epoch of `Translate` and the note on the translation caches stay as they were is
the model's form of that (log 16). -/
def Obligations.WriteCr8 : Prop :=
  ∀ (s : State) (p : Pfx) (m : BitVec 2) (g : Gpr), p.locked = false → s.mode = .long64 → s.cpl = 0#2 →
    (s.gpr.get g &&& s.params.cr8Reserved ≠ 0#64 → Raises (.movCr8R64 p m .cr8 g) s .gp (.code 0)) ∧
    (s.gpr.get g &&& s.params.cr8Reserved = 0#64 → Completes (.movCr8R64 p m .cr8 g) s fun t =>
      WroteCr s t (instrLength (.movCr8R64 p m .cr8 g)) .cr8 ∧ ControlSame { s with cr := t.cr } t ∧
      t.cr.cr8 = s.gpr.get g)

/-- A completed instruction ends the run exactly if it changed CR0.PE, CR0.PG or CR4.PAE; `Mode`, `CPL` and the segment
registers stay as they are then, and the next step is refused at the next instruction's address (R262). -/
def Obligations.ModeChangeEndsRun : Prop :=
  ∀ (i : Instr) (s t : State), s.modeChanged = false → exec i s = .next t →
    (t.modeChanged = true ↔
      t.cr.cr0.getLsbD 0 ≠ s.cr.cr0.getLsbD 0 ∨ t.cr.cr0.getLsbD 31 ≠ s.cr.cr0.getLsbD 31 ∨
      t.cr.cr4.getLsbD 5 ≠ s.cr.cr4.getLsbD 5) ∧
    (t.modeChanged = true → t.mode = s.mode ∧ t.cpl = s.cpl ∧ t.seg = s.seg ∧
      step t = .refused (.modeChange t.pc))

/-- How addresses are translated changes only by a write of CR0, CR3 or CR4, or by a change of what `Translate` asks of the
state (a byte of a page table, a register), and a write of CR0 or CR4 that modifies PE, PG, PSE or PAE flushes all entries
with `TLB_FLUSH_ON_MODE_BITS` (00_scope.md R6, 20_memory.md R83, R99, R261). Epoch, conditions and note are the model's form
(log 15, log 16). -/
def Obligations.TranslationChanges : Prop :=
  ∀ (i : Instr) (s t : State), exec i s = .next t →
    (t.epoch ≠ s.epoch → ∃ c v, CrWriteOf i s c v ∧ (c = .cr0 ∨ c = .cr3 ∨ c = .cr4)) ∧
    (t.epoch = s.epoch → (∀ q ∈ s.params.translate, ∀ c ∈ q.conds, t.condHolds c = s.condHolds c) →
      ∀ acc lin, t.translateByte acc lin = s.translateByte acc lin) ∧
    (s.params.tlbFlushOnModeBits = true →
      (t.cr.cr0.getLsbD 0 ≠ s.cr.cr0.getLsbD 0 ∨ t.cr.cr0.getLsbD 31 ≠ s.cr.cr0.getLsbD 31 ∨
        t.cr.cr4.getLsbD 4 ≠ s.cr.cr4.getLsbD 4 ∨ t.cr.cr4.getLsbD 5 ≠ s.cr.cr4.getLsbD 5) →
      t.tlb = .allEntries)

/-! ### Debug registers (43_mov_dr.md) -/

/-- Rows 42 and 43 where the register may be read: the general register takes the debug register at the row's width, DR4 and
DR5 being DR6 and DR7, and nothing else but `pc` and the status flags changes (R293, R296, R297, R300, R302). -/
def Obligations.ReadDr : Prop :=
  ∀ (s : State) (p : Pfx) (m : BitVec 2) (g : Gpr) (d : DrNum) (r : DrReg),
    (d, r) ∈ [(DrNum.dr0, DrReg.dr0), (.dr1, .dr1), (.dr2, .dr2), (.dr3, .dr3), (.dr4, .dr6), (.dr5, .dr7),
      (.dr6, .dr6), (.dr7, .dr7)] →
    p.locked = false → DrAllowed s p d →
    (Completes (.movR32Dr p m g d) s fun t =>
      ReadSystem s t (instrLength (.movR32Dr p m g d)) .b32 g (s.dr.get r)) ∧
    (Completes (.movR64Dr p m g d) s fun t =>
      ReadSystem s t (instrLength (.movR64Dr p m g d)) .b64 g (s.dr.get r))

/-- Rows 44 and 45 where the register may be written: in LONG64 mode #GP(0) for a 1 in bits 63:32 of DR6 or DR7, also under the
names DR4 and DR5; otherwise the register takes the value (what `DrStored` keeps of it, where the parameter has a rule), and
nothing else but `pc` and the status flags changes (R293, R298, R299, R301, R302). -/
def Obligations.WriteDr : Prop :=
  ∀ (i : Instr) (s : State) (p : Pfx) (d : DrNum) (r : DrReg) (v : Word),
    (d, r) ∈ [(DrNum.dr0, DrReg.dr0), (.dr1, .dr1), (.dr2, .dr2), (.dr3, .dr3), (.dr4, .dr6), (.dr5, .dr7),
      (.dr6, .dr6), (.dr7, .dr7)] →
    DrWriteOf i s p d v → p.locked = false → DrAllowed s p d →
    (s.mode = .long64 → (r = .dr6 ∨ r = .dr7) → 2 ^ 32 ≤ v.toNat → Raises i s .gp (.code 0)) ∧
    ((s.mode ≠ .long64 ∨ (r ≠ .dr6 ∧ r ≠ .dr7) ∨ v.toNat < 2 ^ 32) →
      Completes i s fun t => WroteDr s t (instrLength i) r (drStored s.params r v) ∧
        (s.params.drRules = [] → t.dr.get r = v))

/-- The faults of a move of a debug register: #UD for REX.R in LONG64 mode (R295) and for DR4 and DR5 with
CR4.DE set (R293), at any privilege; then #GP(0) for the privilege (R305); then #DB while DR7.GD is 1 (R294). Which of two different exceptions comes is a
decision of the spec (R304, 92 D5), on which R304 lets a model rely only between conditions that give the same exception;
taking it as the order is the model's choice (log 9). -/
def Obligations.DrFaults : Prop :=
  ∀ (i : Instr) (s : State) (p : Pfx) (d : DrNum), DrMoveOf i p d →
    (s.mode = .long64 → p.rexR = true → Raises i s .ud .none) ∧
    ((d = .dr4 ∨ d = .dr5) → s.params.hasCr4 = true → s.cr.cr4.getLsbD 3 = true → Raises i s .ud .none) ∧
    (p.locked = false → ¬ (s.mode = .long64 ∧ p.rexR = true) →
      ¬ ((d = .dr4 ∨ d = .dr5) ∧ s.params.hasCr4 = true ∧ s.cr.cr4.getLsbD 3 = true) →
      (¬ MayMoveSystem s → Raises i s .gp (.code 0)) ∧
      (MayMoveSystem s → s.dr.dr7.getLsbD 13 = true → Raises i s .db .none))

end
end

