-- ==== Sys2Proof/Laws/Memory.lean ====
section
/-! SUPPORT. Results of `Except`, and the laws of memory: a read after a write, a write leaves other places alone, and every
operation keeps the canonical form. -/

namespace Sys2Proof.Machine

/-! ### Computations that may stop -/

theorem bind_eq_ok {ε α β : Type} {x : Except ε α} {f : α → Except ε β} {b : β} :
    x.bind f = .ok b ↔ ∃ a, x = .ok a ∧ f a = .ok b := by
  cases x <;> simp [Except.bind]

theorem map_eq_ok {ε α β : Type} {x : Except ε α} {f : α → β} {b : β} :
    x.map f = .ok b ↔ ∃ a, x = .ok a ∧ f a = b := by
  cases x <;> simp [Except.map]

@[simp] theorem bind_ok {ε α β : Type} (a : α) (f : α → Except ε β) : (Except.ok a).bind f = f a := rfl
@[simp] theorem bind_error {ε α β : Type} (e : ε) (f : α → Except ε β) :
    (Except.error e : Except ε α).bind f = .error e := rfl
@[simp] theorem map_ok {ε α β : Type} (a : α) (f : α → β) : (Except.ok a : Except ε α).map f = .ok (f a) := rfl
@[simp] theorem map_error {ε α β : Type} (e : ε) (f : α → β) :
    (Except.error e : Except ε α).map f = .error e := rfl

theorem raise_ne_ok {α : Type} (s : State) (c : ExcClass) (i : ExcInfo) (a : α) : raise s c i ≠ .ok a := by
  simp [raise]

/-! ### One byte -/

theorem memGet_memSet (m : Memory) (a b : Nat) (v : Byte) :
    memGet (memSet m a v) b = if b = a then some v else memGet m b := by
  induction m with
  | nil => simp [memSet, memGet]
  | cons c m ih =>
    unfold memSet
    split
    · simp only [memGet]
    · split
      · next h => subst h; simp only [memGet]; split <;> rfl
      · next h =>
        simp only [memGet, ih]
        split
        · next h2 => subst h2; rw [if_neg (Ne.symm h)]
        · rfl

theorem memGet_memSet_same (m : Memory) (a : Nat) (v : Byte) : memGet (memSet m a v) a = some v := by
  simp [memGet_memSet]

theorem memGet_memSet_other (m : Memory) {a b : Nat} (v : Byte) (h : b ≠ a) :
    memGet (memSet m a v) b = memGet m b := by
  simp [memGet_memSet, h]

/-! ### The canonical form -/

theorem memory_wf_cons {c : Host.Cell} {m : Memory} :
    Memory.wf (c :: m) = true ↔ (∀ d ∈ m, c.1 < d.1) ∧ Memory.wf m = true := by
  simp [Memory.wf, List.all_eq_true]

theorem mem_memSet {m : Memory} {a : Nat} {v : Byte} {d : Host.Cell} (h : d ∈ memSet m a v) : d = (a, v) ∨ d ∈ m := by
  induction m with
  | nil => simpa [memSet] using h
  | cons c m ih =>
    unfold memSet at h
    split at h
    · simpa using h
    · split at h
      · rcases List.mem_cons.1 h with h | h
        · exact .inl h
        · exact .inr (List.mem_cons_of_mem _ h)
      · rcases List.mem_cons.1 h with h | h
        · exact .inr (h ▸ List.mem_cons_self)
        · exact (ih h).imp id (List.mem_cons_of_mem _)

theorem memSet_wf {m : Memory} (a : Nat) (v : Byte) (h : Memory.wf m = true) : Memory.wf (memSet m a v) = true := by
  induction m with
  | nil => rfl
  | cons c m ih =>
    obtain ⟨hlt, hm⟩ := memory_wf_cons.1 h
    unfold memSet
    split
    · next hac =>
      refine memory_wf_cons.2 ⟨fun d hd => ?_, h⟩
      rcases List.mem_cons.1 hd with rfl | hd
      · exact hac
      · exact lt_trans hac (hlt d hd)
    · split
      · next hac => exact memory_wf_cons.2 ⟨fun d hd => by rw [hac]; exact hlt d hd, hm⟩
      · refine memory_wf_cons.2 ⟨fun d hd => ?_, ih hm⟩
        rcases mem_memSet hd with rfl | hd
        · show c.1 < a; omega
        · exact hlt d hd

/-- Equal bytes at every address make equal memories, in canonical form. -/
theorem memory_ext {m n : Memory} (hm : Memory.wf m = true) (hn : Memory.wf n = true)
    (h : ∀ a, memGet m a = memGet n a) : m = n := by
  have none_of : ∀ {l : Memory} {a : Nat}, (∀ d ∈ l, a < d.1) → memGet l a = none := by
    intro l a hl
    induction l with
    | nil => rfl
    | cons c l ih =>
      have hc := hl c List.mem_cons_self
      rw [memGet, if_neg (by omega)]
      exact ih fun d hd => hl d (List.mem_cons_of_mem _ hd)
  induction m generalizing n with
  | nil =>
    cases n with
    | nil => rfl
    | cons c n => simpa [memGet] using h c.1
  | cons c m ih =>
    obtain ⟨hcm, hm'⟩ := memory_wf_cons.1 hm
    cases n with
    | nil => simpa [memGet] using h c.1
    | cons d n =>
      obtain ⟨hdn, hn'⟩ := memory_wf_cons.1 hn
      have key : c.1 = d.1 := by
        rcases Nat.lt_trichotomy c.1 d.1 with hlt | heq | hgt
        · have := h c.1
          rw [memGet, if_pos rfl, memGet, if_neg (by omega), none_of fun e he => lt_trans hlt (hdn e he)] at this
          cases this
        · exact heq
        · have := h d.1
          rw [memGet, if_neg (by omega), none_of fun e he => lt_trans hgt (hcm e he), memGet, if_pos rfl] at this
          cases this
      have hv : c.2 = d.2 := by simpa [memGet, key] using h c.1
      have hcd : c = d := Prod.ext key hv
      subst hcd
      rw [ih hm' hn' fun a => ?_]
      by_cases ha : a = c.1
      · subst ha; rw [none_of hcm, none_of hdn]
      · simpa [memGet, ha] using h a

/-! ### Several bytes -/

theorem memGet_memSetAll_outside {as : List Nat} {bs : List Byte} {m : Memory} {a : Nat} (h : a ∉ as) :
    memGet (memSetAll m as bs) a = memGet m a := by
  induction as generalizing m bs with
  | nil => cases bs <;> rfl
  | cons b as ih =>
    cases bs with
    | nil => rfl
    | cons v bs =>
      rw [memSetAll, ih (List.not_mem_of_not_mem_cons h), memGet_memSet_other]
      exact List.ne_of_not_mem_cons h

/-- The bytes written are there, where no address occurs twice. -/
theorem memGet_memSetAll {as : List Nat} {bs : List Byte} {m : Memory} (hd : as.Nodup) (hl : as.length = bs.length) {k : Nat}
    (hk : k < as.length) : memGet (memSetAll m as bs) (as.getD k 0) = some (bs.getD k 0) := by
  induction as generalizing m bs k with
  | nil => simp at hk
  | cons a as ih =>
    cases bs with
    | nil => simp at hl
    | cons v bs =>
      obtain ⟨hna, hd'⟩ := List.nodup_cons.1 hd
      rw [memSetAll]
      cases k with
      | zero => simp [memGet_memSetAll_outside hna, memGet_memSet_same]
      | succ k => simpa using ih (m := memSet m a v) hd' (by simpa using hl) (by simpa using hk)

theorem memGet_memSetAll_isSome {as : List Nat} {bs : List Byte} {m : Memory} (hl : as.length ≤ bs.length) {a : Nat}
    (h : a ∈ as ∨ (memGet m a).isSome = true) : (memGet (memSetAll m as bs) a).isSome = true := by
  induction as generalizing m bs with
  | nil => cases bs <;> simpa [memSetAll] using h
  | cons b as ih =>
    cases bs with
    | nil => simp at hl
    | cons v bs =>
      rw [memSetAll]
      refine ih (by simpa using hl) ?_
      by_cases hab : a = b
      · exact .inr (by rw [hab, memGet_memSet_same]; rfl)
      · rcases h with h | h
        · exact .inl ((List.mem_cons.1 h).resolve_left hab)
        · exact .inr (by rw [memGet_memSet_other _ _ hab]; exact h)

theorem memSetAll_wf {as : List Nat} {bs : List Byte} {m : Memory} (h : Memory.wf m = true) :
    Memory.wf (memSetAll m as bs) = true := by
  induction as generalizing m bs with
  | nil => cases bs <;> exact h
  | cons a as ih =>
    cases bs with
    | nil => exact h
    | cons v bs => exact ih (memSet_wf a v h)

theorem reset_memory_wf : Memory.wf State.reset.mem = true := rfl

theorem State.store_wf {s : State} (pas : List Nat) (bs : List Byte) (h : Memory.wf s.mem = true) :
    Memory.wf (s.store pas bs).mem = true := memSetAll_wf h

/-! ### The addresses noted as written -/

theorem mem_addAddr {l : List Nat} {a b : Nat} : b ∈ addAddr l a ↔ b = a ∨ b ∈ l := by
  induction l with
  | nil => simp [addAddr]
  | cons c l ih =>
    unfold addAddr
    split
    · simp
    · split
      · next h => subst h; simp
      · rw [List.mem_cons, ih, List.mem_cons]; tauto

theorem addAddr_sorted {l : List Nat} (a : Nat) (h : l.Pairwise (· < ·)) : (addAddr l a).Pairwise (· < ·) := by
  induction l with
  | nil => simp [addAddr]
  | cons c l ih =>
    obtain ⟨hc, hl⟩ := List.pairwise_cons.1 h
    unfold addAddr
    split
    · next hac =>
      refine List.pairwise_cons.2 ⟨fun b hb => ?_, h⟩
      rcases List.mem_cons.1 hb with rfl | hb
      · exact hac
      · exact lt_trans hac (hc b hb)
    · split
      · exact h
      · refine List.pairwise_cons.2 ⟨fun b hb => ?_, ih hl⟩
        rcases mem_addAddr.1 hb with rfl | hb
        · omega
        · exact hc b hb

theorem mem_addAddrs {l as : List Nat} {b : Nat} : b ∈ addAddrs l as ↔ b ∈ l ∨ b ∈ as := by
  induction as generalizing l with
  | nil => simp [addAddrs]
  | cons a as ih => rw [addAddrs, ih, mem_addAddr, List.mem_cons]; tauto

theorem addAddrs_sorted {l : List Nat} (as : List Nat) (h : l.Pairwise (· < ·)) : (addAddrs l as).Pairwise (· < ·) := by
  induction as generalizing l with
  | nil => exact h
  | cons a as ih => exact ih (addAddr_sorted a h)

/-! ### Little-endian bytes (20_memory.md R72) -/

@[simp] theorem leBytes_length (n v : Nat) : (leBytes n v).length = n := by
  induction n generalizing v with
  | zero => rfl
  | succ n ih => simp [leBytes, ih]

theorem leBytes_getD {n v k : Nat} (hk : k < n) : (leBytes n v).getD k 0 = BitVec.ofNat 8 (v / 2 ^ (8 * k)) := by
  induction n generalizing v k with
  | zero => omega
  | succ n ih =>
    cases k with
    | zero => simp [leBytes]
    | succ k =>
      have h := ih (v := v / 256) (k := k) (by omega)
      simp only [leBytes, List.getD_cons_succ, h, Nat.div_div_eq_div_mul]
      rw [show 8 * (k + 1) = 8 + 8 * k by ring, Nat.pow_add]

theorem leBytes_getD_word {n k : Nat} (v : Word) (hk : k < n) :
    (leBytes n v.toNat).getD k 0 = v.extractLsb' (8 * k) 8 := by
  rw [leBytes_getD hk]
  apply BitVec.eq_of_toNat_eq
  simp [Nat.shiftRight_eq_div_pow]

theorem leValue_leBytes (n v : Nat) : leValue (leBytes n v) = v % 2 ^ (8 * n) := by
  induction n generalizing v with
  | zero => simp [leBytes, leValue, Nat.mod_one]
  | succ n ih =>
    simp only [leBytes, leValue, ih, BitVec.toNat_ofNat]
    rw [show 8 * (n + 1) = 8 + 8 * n by ring, Nat.pow_add, Nat.mod_mul]

/-- Reading bytes that have values gives them, in order. -/
theorem readBytes_eq_ok {m : Memory} {as : List Nat} {bs : List Byte} :
    readBytes m as = .ok bs ↔ as.length = bs.length ∧ ∀ k, k < as.length → memGet m (as.getD k 0) = some (bs.getD k 0) := by
  induction as generalizing bs with
  | nil => cases bs <;> simp [readBytes]
  | cons a as ih =>
    rw [readBytes]
    cases ha : memGet m a with
    | none =>
      simp only [reduceCtorEq, false_iff, not_and]
      intro _ h
      have h0 := h 0 (by simp)
      rw [List.getD_cons_zero, ha] at h0
      cases h0
    | some v =>
      simp only [map_eq_ok, ih]
      constructor
      · rintro ⟨cs, ⟨hl, hc⟩, rfl⟩
        refine ⟨by simp [hl], fun k hk => ?_⟩
        cases k with
        | zero => simpa using ha
        | succ k => simpa using hc k (by simpa using hk)
      · rintro ⟨hl, h⟩
        cases bs with
        | nil => simp at hl
        | cons b bs =>
          have hb := h 0 (by simp)
          simp only [List.getD_cons_zero, ha, Option.some.injEq] at hb
          exact ⟨bs, ⟨by simpa using hl, fun k hk => by simpa using h (k + 1) (by simpa using hk)⟩, by rw [hb]⟩

/-- A stop of `readBytes` is a byte without a value. -/
theorem readBytes_error {m : Memory} {as : List Nat} {e : Stop} (h : readBytes m as = .error e) :
    ∃ a ∈ as, memGet m a = none ∧ e = .fault (.unwritten a) := by
  induction as with
  | nil => simp [readBytes] at h
  | cons a as ih =>
    rw [readBytes] at h
    cases ha : memGet m a with
    | none => rw [ha] at h; cases h; exact ⟨a, by simp, ha, rfl⟩
    | some v =>
      rw [ha] at h
      cases hr : readBytes m as with
      | ok bs => simp [hr] at h
      | error e' =>
        simp only [hr, map_error, Except.error.injEq] at h
        subst h
        obtain ⟨b, hb, hn, he⟩ := ih hr
        exact ⟨b, List.mem_cons_of_mem _ hb, hn, he⟩

/-- A read stops at the first byte that nothing has written (log 7). -/
theorem readBytes_unwritten {m : Memory} {as : List Nat} {k : Nat} (hk : k < as.length)
    (h : memGet m (as.getD k 0) = none) (hb : ∀ j, j < k → (memGet m (as.getD j 0)).isSome = true) :
    readBytes m as = .error (.fault (.unwritten (as.getD k 0))) := by
  induction as generalizing k with
  | nil => simp at hk
  | cons a as ih =>
    cases k with
    | zero => simp only [List.getD_cons_zero] at h ⊢; simp [readBytes, h]
    | succ k =>
      obtain ⟨b, ha⟩ := Option.isSome_iff_exists.1 (hb 0 (Nat.succ_pos k))
      simp only [List.getD_cons_zero] at ha
      simp only [List.getD_cons_succ] at h ⊢
      simp only [readBytes, ha, ih (by simpa using hk) h (fun j hj => by simpa using hb (j + 1) (by omega)), map_error]

end Sys2Proof.Machine
end

