-- ==== Sys2Proof/Laws/Registers.lean ====
section
/-! SUPPORT. Register files: reading after writing, and what reading and writing a register of a width does to each bit
(10_state.md R20 to R27). -/

namespace Sys2Proof.Machine

/-! ### Reading after writing -/

theorem Gprs.get_set (x : Gprs) (r g : Gpr) (v : Word) : (x.set r v).get g = if g = r then v else x.get g := by
  cases r <;> cases g <;> rfl

@[simp] theorem Gprs.get_set_same (x : Gprs) (r : Gpr) (v : Word) : (x.set r v).get r = v := by
  rw [Gprs.get_set, if_pos rfl]

theorem Gprs.get_set_other (x : Gprs) {r g : Gpr} (v : Word) (h : g ≠ r) : (x.set r v).get g = x.get g := by
  rw [Gprs.get_set, if_neg h]

theorem Sregs.get_set (x : Sregs) (r g : Sreg) (v : SegReg) : (x.set r v).get g = if g = r then v else x.get g := by
  cases r <;> cases g <;> rfl

@[simp] theorem Sregs.get_set_same (x : Sregs) (r : Sreg) (v : SegReg) : (x.set r v).get r = v := by
  rw [Sregs.get_set, if_pos rfl]

theorem Sregs.get_set_other (x : Sregs) {r g : Sreg} (v : SegReg) (h : g ≠ r) : (x.set r v).get g = x.get g := by
  rw [Sregs.get_set, if_neg h]

theorem Sregs.set_cs (x : Sregs) {r : Sreg} (v : SegReg) (h : r ≠ .cs) : (x.set r v).cs = x.cs := by
  cases r <;> first | rfl | exact absurd rfl h

theorem Crs.get_set (x : Crs) (r g : CrReg) (v : Word) : (x.set r v).get g = if g = r then v else x.get g := by
  cases r <;> cases g <;> rfl

@[simp] theorem Crs.get_set_same (x : Crs) (r : CrReg) (v : Word) : (x.set r v).get r = v := by
  rw [Crs.get_set, if_pos rfl]

theorem Crs.get_set_other (x : Crs) {r g : CrReg} (v : Word) (h : g ≠ r) : (x.set r v).get g = x.get g := by
  rw [Crs.get_set, if_neg h]

theorem Drs.get_set (x : Drs) (r g : DrReg) (v : Word) : (x.set r v).get g = if g = r then v else x.get g := by
  cases r <;> cases g <;> rfl

@[simp] theorem Drs.get_set_same (x : Drs) (r : DrReg) (v : Word) : (x.set r v).get r = v := by
  rw [Drs.get_set, if_pos rfl]

theorem Drs.get_set_other (x : Drs) {r g : DrReg} (v : Word) (h : g ≠ r) : (x.set r v).get g = x.get g := by
  rw [Drs.get_set, if_neg h]

/-! ### Byte registers -/

/-- The high-byte registers are those of `byteHome` at bit 8. -/
theorem highByteOwner_eq (rex : Bool) (r : Gpr) :
    byteHome rex r = match highByteOwner rex r with
      | some o => (o, 8)
      | none => (r, 0) := by
  cases rex <;> cases r <;> rfl

theorem regValue_readReg (s : State) (w : Width) (rex : Bool) (r : Gpr) : s.readReg w rex r = regValue s.gpr w rex r := by
  have hmask : ∀ (x : Word) (n : Nat), n ≤ 64 →
      (x.extractLsb' 0 n).setWidth 64 = x &&& BitVec.ofNat 64 (2 ^ n - 1) := by
    intro x n hn
    apply BitVec.eq_of_getLsbD_eq
    intro i hi
    simp only [BitVec.getLsbD_setWidth, BitVec.getLsbD_extractLsb', BitVec.getLsbD_and, BitVec.getLsbD_ofNat,
      Nat.testBit_two_pow_sub_one]
    simp [hi, Bool.and_comm]
  have hshift : ∀ (x : Word) (k : Nat), (x.extractLsb' k 8).setWidth 64 = x >>> k &&& 0xFF#64 := by
    intro x k
    have h := hmask (x >>> k) 8 (by omega)
    rw [show (0xFF#64) = BitVec.ofNat 64 (2 ^ 8 - 1) from rfl, ← h]
    congr 1
  cases w with
  | b8 =>
    simp only [State.readReg, Gprs.get8, regValue, highByteOwner_eq]
    cases highByteOwner rex r <;> exact hshift _ _
  | b16 => exact hmask _ 16 (by omega)
  | b32 => exact hmask _ 32 (by omega)
  | b64 => rfl

/-- Once for every width: what a register write does to each bit of each register. -/
theorem regsAfter_written (s : State) (w : Width) (rex : Bool) (r : Gpr) (v : Word) :
    RegWritten w rex s.long64 r v s.gpr (s.regsAfter w rex r v) := by
  cases w with
  | b8 =>
    intro g k hk
    simp only [State.regsAfter, Gprs.set8, highByteOwner_eq]
    cases ho : highByteOwner rex r with
    | some o =>
      simp only [Gprs.get_set]
      by_cases hg : g = o
      · subst hg
        rw [if_pos rfl]
        simp only [BitVec.getLsbD_append, BitVec.getLsbD_extractLsb', BitVec.getLsbD_setWidth, true_and]
        by_cases h1 : k < 8
        · simp [h1, show ¬ (8 ≤ k) by omega]
        · by_cases h2 : k < 16
          · simp [h1, h2, show k - 8 < 8 by omega, show 8 ≤ k by omega]
          · simp only [h1, h2, show ¬ (k - 8 < 8) by omega, if_false, and_false]
            simp [show k - 8 - 8 < 48 by omega, show 16 + (k - 8 - 8) = k by omega]
      · simp [hg]
    | none =>
      simp only [Gprs.get_set]
      by_cases hg : g = r
      · subst hg
        rw [if_pos rfl]
        simp only [BitVec.getLsbD_append, BitVec.getLsbD_extractLsb', BitVec.getLsbD_setWidth, true_and]
        by_cases h1 : k < 8
        · simp [h1]
        · simp [h1, show k - 8 < 56 by omega, show 8 + (k - 8) = k by omega]
      · simp [hg]
  | b16 =>
    intro g k hk
    simp only [State.regsAfter, Gprs.set16, Gprs.get_set]
    by_cases hg : g = r
    · subst hg
      simp only [BitVec.getLsbD_append, BitVec.getLsbD_extractLsb', BitVec.getLsbD_setWidth, true_and, if_true]
      by_cases h1 : k < 16
      · simp [h1]
      · simp [h1, show k - 16 < 48 by omega, show 16 + (k - 16) = k by omega]
    · simp [hg]
  | b32 =>
    refine ⟨fun k hk => ?_, fun hl k hk hk' => ?_, fun g hg => ?_⟩
    · simp only [State.regsAfter, Gprs.get_set_same, BitVec.getLsbD_append, BitVec.getLsbD_setWidth]
      simp [hk]
    · have hu : s.upper32 = 0#32 := by simp [State.upper32, State.upperDrawn, hl]
      simp only [State.regsAfter, Gprs.get_set_same, BitVec.getLsbD_append, hu]
      simp [show ¬ (k < 32) by omega]
    · simp [State.regsAfter, Gprs.get_set_other _ _ hg]
  | b64 => exact ⟨by simp [State.regsAfter], fun g hg => by simp [State.regsAfter, Gprs.get_set_other _ _ hg]⟩

/-- A write uses only the bits of its width. -/
theorem regWritten_congr {w : Width} {rex l : Bool} {r : Gpr} {v u : Word} {x y : Gprs}
    (h : ∀ k, k < 8 * w.bytes → v.getLsbD k = u.getLsbD k) (hw : RegWritten w rex l r v x y) :
    RegWritten w rex l r u x y := by
  cases w with
  | b8 =>
    intro g k hk
    rw [hw g k hk]
    split
    · next hc => exact h _ (by simp [Width.bytes]; omega)
    · rfl
  | b16 =>
    intro g k hk
    rw [hw g k hk]
    split
    · next hc => exact h _ (by simp [Width.bytes]; omega)
    · rfl
  | b32 => exact ⟨fun k hk => (hw.1 k hk).trans (h k (by simp [Width.bytes]; omega)), hw.2⟩
  | b64 =>
    refine ⟨?_, hw.2⟩
    rw [hw.1]
    exact BitVec.eq_of_getLsbD_eq fun k hk => h k (by simp [Width.bytes]; omega)

end Sys2Proof.Machine
end

