-- ==== Sys2Proof/Laws/State.lean ====
section
/-! SUPPORT. What each update of the state does to each field: the field it writes, and that it leaves the others. -/

namespace Sys2Proof.Machine

/-! ### `advance` -/

@[simp] theorem State.advance_gpr (s : State) (n : Nat) : (s.advance n).gpr = s.gpr := rfl
@[simp] theorem State.advance_pc (s : State) (n : Nat) : (s.advance n).pc = s.pc + BitVec.ofNat 64 n := rfl
@[simp] theorem State.advance_flags (s : State) (n : Nat) : (s.advance n).flags = s.flags := rfl
@[simp] theorem State.advance_ac (s : State) (n : Nat) : (s.advance n).ac = s.ac := rfl
@[simp] theorem State.advance_seg (s : State) (n : Nat) : (s.advance n).seg = s.seg := rfl
@[simp] theorem State.advance_cpl (s : State) (n : Nat) : (s.advance n).cpl = s.cpl := rfl
@[simp] theorem State.advance_mode (s : State) (n : Nat) : (s.advance n).mode = s.mode := rfl
@[simp] theorem State.advance_cr (s : State) (n : Nat) : (s.advance n).cr = s.cr := rfl
@[simp] theorem State.advance_dr (s : State) (n : Nat) : (s.advance n).dr = s.dr := rfl
@[simp] theorem State.advance_inhibit (s : State) (n : Nat) : (s.advance n).inhibit = s.inhibit := rfl
@[simp] theorem State.advance_gdtr (s : State) (n : Nat) : (s.advance n).gdtr = s.gdtr := rfl
@[simp] theorem State.advance_ldtr (s : State) (n : Nat) : (s.advance n).ldtr = s.ldtr := rfl
@[simp] theorem State.advance_mem (s : State) (n : Nat) : (s.advance n).mem = s.mem := rfl
@[simp] theorem State.advance_owned (s : State) (n : Nat) : (s.advance n).owned = s.owned := rfl
@[simp] theorem State.advance_stored (s : State) (n : Nat) : (s.advance n).stored = s.stored := rfl
@[simp] theorem State.advance_draws (s : State) (n : Nat) : (s.advance n).draws = s.draws := rfl
@[simp] theorem State.advance_epoch (s : State) (n : Nat) : (s.advance n).epoch = s.epoch := rfl
@[simp] theorem State.advance_tlb (s : State) (n : Nat) : (s.advance n).tlb = s.tlb := rfl
@[simp] theorem State.advance_modeChanged (s : State) (n : Nat) : (s.advance n).modeChanged = s.modeChanged := rfl
@[simp] theorem State.advance_offers (s : State) (n : Nat) : (s.advance n).offers = s.offers := rfl
@[simp] theorem State.advance_params (s : State) (n : Nat) : (s.advance n).params = s.params := rfl

/-! ### `writeReg` -/

@[simp] theorem State.writeReg_gpr (s : State) (w : Width) (x : Bool) (r : Gpr) (v : Word) :
    (s.writeReg w x r v).gpr = s.regsAfter w x r v := rfl
@[simp] theorem State.writeReg_pc (s : State) (w : Width) (x : Bool) (r : Gpr) (v : Word) :
    (s.writeReg w x r v).pc = s.pc := rfl
@[simp] theorem State.writeReg_flags (s : State) (w : Width) (x : Bool) (r : Gpr) (v : Word) :
    (s.writeReg w x r v).flags = s.flags := rfl
@[simp] theorem State.writeReg_ac (s : State) (w : Width) (x : Bool) (r : Gpr) (v : Word) :
    (s.writeReg w x r v).ac = s.ac := rfl
@[simp] theorem State.writeReg_seg (s : State) (w : Width) (x : Bool) (r : Gpr) (v : Word) :
    (s.writeReg w x r v).seg = s.seg := rfl
@[simp] theorem State.writeReg_cpl (s : State) (w : Width) (x : Bool) (r : Gpr) (v : Word) :
    (s.writeReg w x r v).cpl = s.cpl := rfl
@[simp] theorem State.writeReg_mode (s : State) (w : Width) (x : Bool) (r : Gpr) (v : Word) :
    (s.writeReg w x r v).mode = s.mode := rfl
@[simp] theorem State.writeReg_cr (s : State) (w : Width) (x : Bool) (r : Gpr) (v : Word) :
    (s.writeReg w x r v).cr = s.cr := rfl
@[simp] theorem State.writeReg_dr (s : State) (w : Width) (x : Bool) (r : Gpr) (v : Word) :
    (s.writeReg w x r v).dr = s.dr := rfl
@[simp] theorem State.writeReg_inhibit (s : State) (w : Width) (x : Bool) (r : Gpr) (v : Word) :
    (s.writeReg w x r v).inhibit = s.inhibit := rfl
@[simp] theorem State.writeReg_gdtr (s : State) (w : Width) (x : Bool) (r : Gpr) (v : Word) :
    (s.writeReg w x r v).gdtr = s.gdtr := rfl
@[simp] theorem State.writeReg_ldtr (s : State) (w : Width) (x : Bool) (r : Gpr) (v : Word) :
    (s.writeReg w x r v).ldtr = s.ldtr := rfl
@[simp] theorem State.writeReg_mem (s : State) (w : Width) (x : Bool) (r : Gpr) (v : Word) :
    (s.writeReg w x r v).mem = s.mem := rfl
@[simp] theorem State.writeReg_owned (s : State) (w : Width) (x : Bool) (r : Gpr) (v : Word) :
    (s.writeReg w x r v).owned = s.owned := rfl
@[simp] theorem State.writeReg_stored (s : State) (w : Width) (x : Bool) (r : Gpr) (v : Word) :
    (s.writeReg w x r v).stored = s.stored := rfl
@[simp] theorem State.writeReg_draws (s : State) (w : Width) (x : Bool) (r : Gpr) (v : Word) :
    (s.writeReg w x r v).draws = s.draws + s.drawsOfWrite w := rfl
@[simp] theorem State.writeReg_epoch (s : State) (w : Width) (x : Bool) (r : Gpr) (v : Word) :
    (s.writeReg w x r v).epoch = s.epoch := rfl
@[simp] theorem State.writeReg_tlb (s : State) (w : Width) (x : Bool) (r : Gpr) (v : Word) :
    (s.writeReg w x r v).tlb = s.tlb := rfl
@[simp] theorem State.writeReg_modeChanged (s : State) (w : Width) (x : Bool) (r : Gpr) (v : Word) :
    (s.writeReg w x r v).modeChanged = s.modeChanged := rfl
@[simp] theorem State.writeReg_offers (s : State) (w : Width) (x : Bool) (r : Gpr) (v : Word) :
    (s.writeReg w x r v).offers = s.offers := rfl
@[simp] theorem State.writeReg_params (s : State) (w : Width) (x : Bool) (r : Gpr) (v : Word) :
    (s.writeReg w x r v).params = s.params := rfl

/-! ### `store` -/

@[simp] theorem State.store_gpr (s : State) (pas : List Nat) (bs : List Byte) : (s.store pas bs).gpr = s.gpr := rfl
@[simp] theorem State.store_pc (s : State) (pas : List Nat) (bs : List Byte) : (s.store pas bs).pc = s.pc := rfl
@[simp] theorem State.store_flags (s : State) (pas : List Nat) (bs : List Byte) :
    (s.store pas bs).flags = s.flags := rfl
@[simp] theorem State.store_ac (s : State) (pas : List Nat) (bs : List Byte) : (s.store pas bs).ac = s.ac := rfl
@[simp] theorem State.store_seg (s : State) (pas : List Nat) (bs : List Byte) : (s.store pas bs).seg = s.seg := rfl
@[simp] theorem State.store_cpl (s : State) (pas : List Nat) (bs : List Byte) : (s.store pas bs).cpl = s.cpl := rfl
@[simp] theorem State.store_mode (s : State) (pas : List Nat) (bs : List Byte) : (s.store pas bs).mode = s.mode := rfl
@[simp] theorem State.store_cr (s : State) (pas : List Nat) (bs : List Byte) : (s.store pas bs).cr = s.cr := rfl
@[simp] theorem State.store_dr (s : State) (pas : List Nat) (bs : List Byte) : (s.store pas bs).dr = s.dr := rfl
@[simp] theorem State.store_inhibit (s : State) (pas : List Nat) (bs : List Byte) :
    (s.store pas bs).inhibit = s.inhibit := rfl
@[simp] theorem State.store_gdtr (s : State) (pas : List Nat) (bs : List Byte) : (s.store pas bs).gdtr = s.gdtr := rfl
@[simp] theorem State.store_ldtr (s : State) (pas : List Nat) (bs : List Byte) : (s.store pas bs).ldtr = s.ldtr := rfl
@[simp] theorem State.store_mem (s : State) (pas : List Nat) (bs : List Byte) :
    (s.store pas bs).mem = memSetAll s.mem pas bs := rfl
@[simp] theorem State.store_owned (s : State) (pas : List Nat) (bs : List Byte) :
    (s.store pas bs).owned = s.owned := rfl
@[simp] theorem State.store_stored (s : State) (pas : List Nat) (bs : List Byte) :
    (s.store pas bs).stored = addAddrs s.stored pas := rfl
@[simp] theorem State.store_draws (s : State) (pas : List Nat) (bs : List Byte) :
    (s.store pas bs).draws = s.draws := rfl
@[simp] theorem State.store_epoch (s : State) (pas : List Nat) (bs : List Byte) :
    (s.store pas bs).epoch = s.epoch := rfl
@[simp] theorem State.store_tlb (s : State) (pas : List Nat) (bs : List Byte) : (s.store pas bs).tlb = s.tlb := rfl
@[simp] theorem State.store_modeChanged (s : State) (pas : List Nat) (bs : List Byte) :
    (s.store pas bs).modeChanged = s.modeChanged := rfl
@[simp] theorem State.store_offers (s : State) (pas : List Nat) (bs : List Byte) :
    (s.store pas bs).offers = s.offers := rfl
@[simp] theorem State.store_params (s : State) (pas : List Nat) (bs : List Byte) :
    (s.store pas bs).params = s.params := rfl

/-! ### `undefineFlags` -/

@[simp] theorem State.undefineFlags_gpr (s : State) : (s.undefineFlags).gpr = s.gpr := rfl
@[simp] theorem State.undefineFlags_pc (s : State) : (s.undefineFlags).pc = s.pc := rfl
@[simp] theorem State.undefineFlags_flags (s : State) :
    (s.undefineFlags).flags = Flags.ofDraw (Config.draw s.draws) := rfl
@[simp] theorem State.undefineFlags_ac (s : State) : (s.undefineFlags).ac = s.ac := rfl
@[simp] theorem State.undefineFlags_seg (s : State) : (s.undefineFlags).seg = s.seg := rfl
@[simp] theorem State.undefineFlags_cpl (s : State) : (s.undefineFlags).cpl = s.cpl := rfl
@[simp] theorem State.undefineFlags_mode (s : State) : (s.undefineFlags).mode = s.mode := rfl
@[simp] theorem State.undefineFlags_cr (s : State) : (s.undefineFlags).cr = s.cr := rfl
@[simp] theorem State.undefineFlags_dr (s : State) : (s.undefineFlags).dr = s.dr := rfl
@[simp] theorem State.undefineFlags_inhibit (s : State) : (s.undefineFlags).inhibit = s.inhibit := rfl
@[simp] theorem State.undefineFlags_gdtr (s : State) : (s.undefineFlags).gdtr = s.gdtr := rfl
@[simp] theorem State.undefineFlags_ldtr (s : State) : (s.undefineFlags).ldtr = s.ldtr := rfl
@[simp] theorem State.undefineFlags_mem (s : State) : (s.undefineFlags).mem = s.mem := rfl
@[simp] theorem State.undefineFlags_owned (s : State) : (s.undefineFlags).owned = s.owned := rfl
@[simp] theorem State.undefineFlags_stored (s : State) : (s.undefineFlags).stored = s.stored := rfl
@[simp] theorem State.undefineFlags_draws (s : State) : (s.undefineFlags).draws = s.draws + 1 := rfl
@[simp] theorem State.undefineFlags_epoch (s : State) : (s.undefineFlags).epoch = s.epoch := rfl
@[simp] theorem State.undefineFlags_tlb (s : State) : (s.undefineFlags).tlb = s.tlb := rfl
@[simp] theorem State.undefineFlags_modeChanged (s : State) : (s.undefineFlags).modeChanged = s.modeChanged := rfl
@[simp] theorem State.undefineFlags_offers (s : State) : (s.undefineFlags).offers = s.offers := rfl
@[simp] theorem State.undefineFlags_params (s : State) : (s.undefineFlags).params = s.params := rfl

/-! ### `loaded` -/

@[simp] theorem State.loaded_gpr (s : State) (r : Sreg) (sel : Half) (h : Hidden) :
    (s.loaded r sel h).gpr = s.gpr := rfl
@[simp] theorem State.loaded_pc (s : State) (r : Sreg) (sel : Half) (h : Hidden) : (s.loaded r sel h).pc = s.pc := rfl
@[simp] theorem State.loaded_flags (s : State) (r : Sreg) (sel : Half) (h : Hidden) :
    (s.loaded r sel h).flags = s.flags := rfl
@[simp] theorem State.loaded_ac (s : State) (r : Sreg) (sel : Half) (h : Hidden) : (s.loaded r sel h).ac = s.ac := rfl
@[simp] theorem State.loaded_seg (s : State) (r : Sreg) (sel : Half) (h : Hidden) :
    (s.loaded r sel h).seg = s.seg.set r { sel := sel, hid := h } := rfl
@[simp] theorem State.loaded_cpl (s : State) (r : Sreg) (sel : Half) (h : Hidden) :
    (s.loaded r sel h).cpl = s.cpl := rfl
@[simp] theorem State.loaded_mode (s : State) (r : Sreg) (sel : Half) (h : Hidden) :
    (s.loaded r sel h).mode = s.mode := rfl
@[simp] theorem State.loaded_cr (s : State) (r : Sreg) (sel : Half) (h : Hidden) : (s.loaded r sel h).cr = s.cr := rfl
@[simp] theorem State.loaded_dr (s : State) (r : Sreg) (sel : Half) (h : Hidden) : (s.loaded r sel h).dr = s.dr := rfl
@[simp] theorem State.loaded_inhibit (s : State) (r : Sreg) (sel : Half) (h : Hidden) :
    (s.loaded r sel h).inhibit = (s.inhibit || r == .ss) := rfl
@[simp] theorem State.loaded_gdtr (s : State) (r : Sreg) (sel : Half) (h : Hidden) :
    (s.loaded r sel h).gdtr = s.gdtr := rfl
@[simp] theorem State.loaded_ldtr (s : State) (r : Sreg) (sel : Half) (h : Hidden) :
    (s.loaded r sel h).ldtr = s.ldtr := rfl
@[simp] theorem State.loaded_mem (s : State) (r : Sreg) (sel : Half) (h : Hidden) :
    (s.loaded r sel h).mem = s.mem := rfl
@[simp] theorem State.loaded_owned (s : State) (r : Sreg) (sel : Half) (h : Hidden) :
    (s.loaded r sel h).owned = s.owned := rfl
@[simp] theorem State.loaded_stored (s : State) (r : Sreg) (sel : Half) (h : Hidden) :
    (s.loaded r sel h).stored = s.stored := rfl
@[simp] theorem State.loaded_draws (s : State) (r : Sreg) (sel : Half) (h : Hidden) :
    (s.loaded r sel h).draws = s.draws := rfl
@[simp] theorem State.loaded_epoch (s : State) (r : Sreg) (sel : Half) (h : Hidden) :
    (s.loaded r sel h).epoch = s.epoch := rfl
@[simp] theorem State.loaded_tlb (s : State) (r : Sreg) (sel : Half) (h : Hidden) :
    (s.loaded r sel h).tlb = s.tlb := rfl
@[simp] theorem State.loaded_modeChanged (s : State) (r : Sreg) (sel : Half) (h : Hidden) :
    (s.loaded r sel h).modeChanged = s.modeChanged := rfl
@[simp] theorem State.loaded_offers (s : State) (r : Sreg) (sel : Half) (h : Hidden) :
    (s.loaded r sel h).offers = s.offers := rfl
@[simp] theorem State.loaded_params (s : State) (r : Sreg) (sel : Half) (h : Hidden) :
    (s.loaded r sel h).params = s.params := rfl

/-! ### `setAccessed` -/

@[simp] theorem State.setAccessed_gpr (s : State) (d : Word) (pas : List Nat) :
    (s.setAccessed d pas).gpr = s.gpr := by unfold State.setAccessed; split <;> rfl
@[simp] theorem State.setAccessed_pc (s : State) (d : Word) (pas : List Nat) :
    (s.setAccessed d pas).pc = s.pc := by unfold State.setAccessed; split <;> rfl
@[simp] theorem State.setAccessed_flags (s : State) (d : Word) (pas : List Nat) :
    (s.setAccessed d pas).flags = s.flags := by unfold State.setAccessed; split <;> rfl
@[simp] theorem State.setAccessed_ac (s : State) (d : Word) (pas : List Nat) :
    (s.setAccessed d pas).ac = s.ac := by unfold State.setAccessed; split <;> rfl
@[simp] theorem State.setAccessed_seg (s : State) (d : Word) (pas : List Nat) :
    (s.setAccessed d pas).seg = s.seg := by unfold State.setAccessed; split <;> rfl
@[simp] theorem State.setAccessed_cpl (s : State) (d : Word) (pas : List Nat) :
    (s.setAccessed d pas).cpl = s.cpl := by unfold State.setAccessed; split <;> rfl
@[simp] theorem State.setAccessed_mode (s : State) (d : Word) (pas : List Nat) :
    (s.setAccessed d pas).mode = s.mode := by unfold State.setAccessed; split <;> rfl
@[simp] theorem State.setAccessed_cr (s : State) (d : Word) (pas : List Nat) :
    (s.setAccessed d pas).cr = s.cr := by unfold State.setAccessed; split <;> rfl
@[simp] theorem State.setAccessed_dr (s : State) (d : Word) (pas : List Nat) :
    (s.setAccessed d pas).dr = s.dr := by unfold State.setAccessed; split <;> rfl
@[simp] theorem State.setAccessed_inhibit (s : State) (d : Word) (pas : List Nat) :
    (s.setAccessed d pas).inhibit = s.inhibit := by unfold State.setAccessed; split <;> rfl
@[simp] theorem State.setAccessed_gdtr (s : State) (d : Word) (pas : List Nat) :
    (s.setAccessed d pas).gdtr = s.gdtr := by unfold State.setAccessed; split <;> rfl
@[simp] theorem State.setAccessed_ldtr (s : State) (d : Word) (pas : List Nat) :
    (s.setAccessed d pas).ldtr = s.ldtr := by unfold State.setAccessed; split <;> rfl
@[simp] theorem State.setAccessed_owned (s : State) (d : Word) (pas : List Nat) :
    (s.setAccessed d pas).owned = s.owned := by unfold State.setAccessed; split <;> rfl
@[simp] theorem State.setAccessed_draws (s : State) (d : Word) (pas : List Nat) :
    (s.setAccessed d pas).draws = s.draws := by unfold State.setAccessed; split <;> rfl
@[simp] theorem State.setAccessed_epoch (s : State) (d : Word) (pas : List Nat) :
    (s.setAccessed d pas).epoch = s.epoch := by unfold State.setAccessed; split <;> rfl
@[simp] theorem State.setAccessed_tlb (s : State) (d : Word) (pas : List Nat) :
    (s.setAccessed d pas).tlb = s.tlb := by unfold State.setAccessed; split <;> rfl
@[simp] theorem State.setAccessed_modeChanged (s : State) (d : Word) (pas : List Nat) :
    (s.setAccessed d pas).modeChanged = s.modeChanged := by unfold State.setAccessed; split <;> rfl
@[simp] theorem State.setAccessed_offers (s : State) (d : Word) (pas : List Nat) :
    (s.setAccessed d pas).offers = s.offers := by unfold State.setAccessed; split <;> rfl
@[simp] theorem State.setAccessed_params (s : State) (d : Word) (pas : List Nat) :
    (s.setAccessed d pas).params = s.params := by unfold State.setAccessed; split <;> rfl

/-! ### `loadedDesc` -/

@[simp] theorem State.loadedDesc_gpr (s : State) (r : Sreg) (sel : Half) (d : Word) (pas : List Nat) :
    (s.loadedDesc r sel d pas).gpr = s.gpr := by simp [State.loadedDesc]
@[simp] theorem State.loadedDesc_pc (s : State) (r : Sreg) (sel : Half) (d : Word) (pas : List Nat) :
    (s.loadedDesc r sel d pas).pc = s.pc := by simp [State.loadedDesc]
@[simp] theorem State.loadedDesc_flags (s : State) (r : Sreg) (sel : Half) (d : Word) (pas : List Nat) :
    (s.loadedDesc r sel d pas).flags = s.flags := by simp [State.loadedDesc]
@[simp] theorem State.loadedDesc_ac (s : State) (r : Sreg) (sel : Half) (d : Word) (pas : List Nat) :
    (s.loadedDesc r sel d pas).ac = s.ac := by simp [State.loadedDesc]
@[simp] theorem State.loadedDesc_cpl (s : State) (r : Sreg) (sel : Half) (d : Word) (pas : List Nat) :
    (s.loadedDesc r sel d pas).cpl = s.cpl := by simp [State.loadedDesc]
@[simp] theorem State.loadedDesc_mode (s : State) (r : Sreg) (sel : Half) (d : Word) (pas : List Nat) :
    (s.loadedDesc r sel d pas).mode = s.mode := by simp [State.loadedDesc]
@[simp] theorem State.loadedDesc_cr (s : State) (r : Sreg) (sel : Half) (d : Word) (pas : List Nat) :
    (s.loadedDesc r sel d pas).cr = s.cr := by simp [State.loadedDesc]
@[simp] theorem State.loadedDesc_dr (s : State) (r : Sreg) (sel : Half) (d : Word) (pas : List Nat) :
    (s.loadedDesc r sel d pas).dr = s.dr := by simp [State.loadedDesc]
@[simp] theorem State.loadedDesc_gdtr (s : State) (r : Sreg) (sel : Half) (d : Word) (pas : List Nat) :
    (s.loadedDesc r sel d pas).gdtr = s.gdtr := by simp [State.loadedDesc]
@[simp] theorem State.loadedDesc_ldtr (s : State) (r : Sreg) (sel : Half) (d : Word) (pas : List Nat) :
    (s.loadedDesc r sel d pas).ldtr = s.ldtr := by simp [State.loadedDesc]
@[simp] theorem State.loadedDesc_mem (s : State) (r : Sreg) (sel : Half) (d : Word) (pas : List Nat) :
    (s.loadedDesc r sel d pas).mem = (s.setAccessed d pas).mem := rfl
@[simp] theorem State.loadedDesc_owned (s : State) (r : Sreg) (sel : Half) (d : Word) (pas : List Nat) :
    (s.loadedDesc r sel d pas).owned = s.owned := by simp [State.loadedDesc]
@[simp] theorem State.loadedDesc_stored (s : State) (r : Sreg) (sel : Half) (d : Word) (pas : List Nat) :
    (s.loadedDesc r sel d pas).stored = (s.setAccessed d pas).stored := rfl
@[simp] theorem State.loadedDesc_draws (s : State) (r : Sreg) (sel : Half) (d : Word) (pas : List Nat) :
    (s.loadedDesc r sel d pas).draws = s.draws := by simp [State.loadedDesc]
@[simp] theorem State.loadedDesc_epoch (s : State) (r : Sreg) (sel : Half) (d : Word) (pas : List Nat) :
    (s.loadedDesc r sel d pas).epoch = s.epoch := by simp [State.loadedDesc]
@[simp] theorem State.loadedDesc_tlb (s : State) (r : Sreg) (sel : Half) (d : Word) (pas : List Nat) :
    (s.loadedDesc r sel d pas).tlb = s.tlb := by simp [State.loadedDesc]
@[simp] theorem State.loadedDesc_modeChanged (s : State) (r : Sreg) (sel : Half) (d : Word) (pas : List Nat) :
    (s.loadedDesc r sel d pas).modeChanged = s.modeChanged := by simp [State.loadedDesc]
@[simp] theorem State.loadedDesc_offers (s : State) (r : Sreg) (sel : Half) (d : Word) (pas : List Nat) :
    (s.loadedDesc r sel d pas).offers = s.offers := by simp [State.loadedDesc]
@[simp] theorem State.loadedDesc_params (s : State) (r : Sreg) (sel : Half) (d : Word) (pas : List Nat) :
    (s.loadedDesc r sel d pas).params = s.params := by simp [State.loadedDesc]
@[simp] theorem State.loadedDesc_seg (s : State) (r : Sreg) (sel : Half) (d : Word) (pas : List Nat) :
    (s.loadedDesc r sel d pas).seg = s.seg.set r { sel := sel, hid := Hidden.ofDesc d } := by simp [State.loadedDesc]
@[simp] theorem State.loadedDesc_inhibit (s : State) (r : Sreg) (sel : Half) (d : Word) (pas : List Nat) :
    (s.loadedDesc r sel d pas).inhibit = (s.inhibit || r == .ss) := by simp [State.loadedDesc]

/-! ### `loadedNull` -/

@[simp] theorem State.loadedNull_gpr (s : State) (r : Sreg) (sel : Half) : (s.loadedNull r sel).gpr = s.gpr := rfl
@[simp] theorem State.loadedNull_pc (s : State) (r : Sreg) (sel : Half) : (s.loadedNull r sel).pc = s.pc := rfl
@[simp] theorem State.loadedNull_flags (s : State) (r : Sreg) (sel : Half) : (s.loadedNull r sel).flags = s.flags := rfl
@[simp] theorem State.loadedNull_ac (s : State) (r : Sreg) (sel : Half) : (s.loadedNull r sel).ac = s.ac := rfl
@[simp] theorem State.loadedNull_seg (s : State) (r : Sreg) (sel : Half) :
    (s.loadedNull r sel).seg =
      s.seg.set r { sel := sel, hid := { kind := .null, base := Config.draw s.draws, attr := descAttr (Config.draw (s.draws + 1)) } } := rfl
@[simp] theorem State.loadedNull_cpl (s : State) (r : Sreg) (sel : Half) : (s.loadedNull r sel).cpl = s.cpl := rfl
@[simp] theorem State.loadedNull_mode (s : State) (r : Sreg) (sel : Half) : (s.loadedNull r sel).mode = s.mode := rfl
@[simp] theorem State.loadedNull_cr (s : State) (r : Sreg) (sel : Half) : (s.loadedNull r sel).cr = s.cr := rfl
@[simp] theorem State.loadedNull_dr (s : State) (r : Sreg) (sel : Half) : (s.loadedNull r sel).dr = s.dr := rfl
@[simp] theorem State.loadedNull_inhibit (s : State) (r : Sreg) (sel : Half) :
    (s.loadedNull r sel).inhibit = (s.inhibit || r == .ss) := rfl
@[simp] theorem State.loadedNull_gdtr (s : State) (r : Sreg) (sel : Half) : (s.loadedNull r sel).gdtr = s.gdtr := rfl
@[simp] theorem State.loadedNull_ldtr (s : State) (r : Sreg) (sel : Half) : (s.loadedNull r sel).ldtr = s.ldtr := rfl
@[simp] theorem State.loadedNull_mem (s : State) (r : Sreg) (sel : Half) : (s.loadedNull r sel).mem = s.mem := rfl
@[simp] theorem State.loadedNull_owned (s : State) (r : Sreg) (sel : Half) : (s.loadedNull r sel).owned = s.owned := rfl
@[simp] theorem State.loadedNull_stored (s : State) (r : Sreg) (sel : Half) :
    (s.loadedNull r sel).stored = s.stored := rfl
@[simp] theorem State.loadedNull_draws (s : State) (r : Sreg) (sel : Half) :
    (s.loadedNull r sel).draws = s.draws + 2 := rfl
@[simp] theorem State.loadedNull_epoch (s : State) (r : Sreg) (sel : Half) : (s.loadedNull r sel).epoch = s.epoch := rfl
@[simp] theorem State.loadedNull_tlb (s : State) (r : Sreg) (sel : Half) : (s.loadedNull r sel).tlb = s.tlb := rfl
@[simp] theorem State.loadedNull_modeChanged (s : State) (r : Sreg) (sel : Half) :
    (s.loadedNull r sel).modeChanged = s.modeChanged := rfl
@[simp] theorem State.loadedNull_offers (s : State) (r : Sreg) (sel : Half) :
    (s.loadedNull r sel).offers = s.offers := rfl
@[simp] theorem State.loadedNull_params (s : State) (r : Sreg) (sel : Half) :
    (s.loadedNull r sel).params = s.params := rfl

/-! ### `loadedReal` -/

@[simp] theorem State.loadedReal_gpr (s : State) (r : Sreg) (sel : Half) : (s.loadedReal r sel).gpr = s.gpr := rfl
@[simp] theorem State.loadedReal_pc (s : State) (r : Sreg) (sel : Half) : (s.loadedReal r sel).pc = s.pc := rfl
@[simp] theorem State.loadedReal_flags (s : State) (r : Sreg) (sel : Half) : (s.loadedReal r sel).flags = s.flags := rfl
@[simp] theorem State.loadedReal_ac (s : State) (r : Sreg) (sel : Half) : (s.loadedReal r sel).ac = s.ac := rfl
@[simp] theorem State.loadedReal_seg (s : State) (r : Sreg) (sel : Half) :
    (s.loadedReal r sel).seg =
      s.seg.set r { sel := sel, hid := { kind := .real, base := sel.setWidth 64 <<< 4, attr := (s.seg.get r).hid.attr } } := rfl
@[simp] theorem State.loadedReal_cpl (s : State) (r : Sreg) (sel : Half) : (s.loadedReal r sel).cpl = s.cpl := rfl
@[simp] theorem State.loadedReal_mode (s : State) (r : Sreg) (sel : Half) : (s.loadedReal r sel).mode = s.mode := rfl
@[simp] theorem State.loadedReal_cr (s : State) (r : Sreg) (sel : Half) : (s.loadedReal r sel).cr = s.cr := rfl
@[simp] theorem State.loadedReal_dr (s : State) (r : Sreg) (sel : Half) : (s.loadedReal r sel).dr = s.dr := rfl
@[simp] theorem State.loadedReal_inhibit (s : State) (r : Sreg) (sel : Half) :
    (s.loadedReal r sel).inhibit = (s.inhibit || r == .ss) := rfl
@[simp] theorem State.loadedReal_gdtr (s : State) (r : Sreg) (sel : Half) : (s.loadedReal r sel).gdtr = s.gdtr := rfl
@[simp] theorem State.loadedReal_ldtr (s : State) (r : Sreg) (sel : Half) : (s.loadedReal r sel).ldtr = s.ldtr := rfl
@[simp] theorem State.loadedReal_mem (s : State) (r : Sreg) (sel : Half) : (s.loadedReal r sel).mem = s.mem := rfl
@[simp] theorem State.loadedReal_owned (s : State) (r : Sreg) (sel : Half) : (s.loadedReal r sel).owned = s.owned := rfl
@[simp] theorem State.loadedReal_stored (s : State) (r : Sreg) (sel : Half) :
    (s.loadedReal r sel).stored = s.stored := rfl
@[simp] theorem State.loadedReal_draws (s : State) (r : Sreg) (sel : Half) : (s.loadedReal r sel).draws = s.draws := rfl
@[simp] theorem State.loadedReal_epoch (s : State) (r : Sreg) (sel : Half) : (s.loadedReal r sel).epoch = s.epoch := rfl
@[simp] theorem State.loadedReal_tlb (s : State) (r : Sreg) (sel : Half) : (s.loadedReal r sel).tlb = s.tlb := rfl
@[simp] theorem State.loadedReal_modeChanged (s : State) (r : Sreg) (sel : Half) :
    (s.loadedReal r sel).modeChanged = s.modeChanged := rfl
@[simp] theorem State.loadedReal_offers (s : State) (r : Sreg) (sel : Half) :
    (s.loadedReal r sel).offers = s.offers := rfl
@[simp] theorem State.loadedReal_params (s : State) (r : Sreg) (sel : Half) :
    (s.loadedReal r sel).params = s.params := rfl

/-! ### `loadedV86` -/

@[simp] theorem State.loadedV86_gpr (s : State) (r : Sreg) (sel : Half) : (s.loadedV86 r sel).gpr = s.gpr := rfl
@[simp] theorem State.loadedV86_pc (s : State) (r : Sreg) (sel : Half) : (s.loadedV86 r sel).pc = s.pc := rfl
@[simp] theorem State.loadedV86_flags (s : State) (r : Sreg) (sel : Half) : (s.loadedV86 r sel).flags = s.flags := rfl
@[simp] theorem State.loadedV86_ac (s : State) (r : Sreg) (sel : Half) : (s.loadedV86 r sel).ac = s.ac := rfl
@[simp] theorem State.loadedV86_seg (s : State) (r : Sreg) (sel : Half) :
    (s.loadedV86 r sel).seg =
      s.seg.set r { sel := sel, hid := { kind := .real, base := sel.setWidth 64 <<< 4, attr := v86Attr (Config.draw s.draws) } } := rfl
@[simp] theorem State.loadedV86_cpl (s : State) (r : Sreg) (sel : Half) : (s.loadedV86 r sel).cpl = s.cpl := rfl
@[simp] theorem State.loadedV86_mode (s : State) (r : Sreg) (sel : Half) : (s.loadedV86 r sel).mode = s.mode := rfl
@[simp] theorem State.loadedV86_cr (s : State) (r : Sreg) (sel : Half) : (s.loadedV86 r sel).cr = s.cr := rfl
@[simp] theorem State.loadedV86_dr (s : State) (r : Sreg) (sel : Half) : (s.loadedV86 r sel).dr = s.dr := rfl
@[simp] theorem State.loadedV86_inhibit (s : State) (r : Sreg) (sel : Half) :
    (s.loadedV86 r sel).inhibit = (s.inhibit || r == .ss) := rfl
@[simp] theorem State.loadedV86_gdtr (s : State) (r : Sreg) (sel : Half) : (s.loadedV86 r sel).gdtr = s.gdtr := rfl
@[simp] theorem State.loadedV86_ldtr (s : State) (r : Sreg) (sel : Half) : (s.loadedV86 r sel).ldtr = s.ldtr := rfl
@[simp] theorem State.loadedV86_mem (s : State) (r : Sreg) (sel : Half) : (s.loadedV86 r sel).mem = s.mem := rfl
@[simp] theorem State.loadedV86_owned (s : State) (r : Sreg) (sel : Half) : (s.loadedV86 r sel).owned = s.owned := rfl
@[simp] theorem State.loadedV86_stored (s : State) (r : Sreg) (sel : Half) :
    (s.loadedV86 r sel).stored = s.stored := rfl
@[simp] theorem State.loadedV86_draws (s : State) (r : Sreg) (sel : Half) :
    (s.loadedV86 r sel).draws = s.draws + 1 := rfl
@[simp] theorem State.loadedV86_epoch (s : State) (r : Sreg) (sel : Half) : (s.loadedV86 r sel).epoch = s.epoch := rfl
@[simp] theorem State.loadedV86_tlb (s : State) (r : Sreg) (sel : Half) : (s.loadedV86 r sel).tlb = s.tlb := rfl
@[simp] theorem State.loadedV86_modeChanged (s : State) (r : Sreg) (sel : Half) :
    (s.loadedV86 r sel).modeChanged = s.modeChanged := rfl
@[simp] theorem State.loadedV86_offers (s : State) (r : Sreg) (sel : Half) :
    (s.loadedV86 r sel).offers = s.offers := rfl
@[simp] theorem State.loadedV86_params (s : State) (r : Sreg) (sel : Half) :
    (s.loadedV86 r sel).params = s.params := rfl

/-! ### `writeSelector32` -/

@[simp] theorem State.writeSelector32_gpr (s : State) (r : Gpr) (sel : Half) :
    (s.writeSelector32 r sel).gpr = s.regsAfter .b32 false r (s.selectorWord sel) := rfl
@[simp] theorem State.writeSelector32_pc (s : State) (r : Gpr) (sel : Half) : (s.writeSelector32 r sel).pc = s.pc := rfl
@[simp] theorem State.writeSelector32_flags (s : State) (r : Gpr) (sel : Half) :
    (s.writeSelector32 r sel).flags = s.flags := rfl
@[simp] theorem State.writeSelector32_ac (s : State) (r : Gpr) (sel : Half) : (s.writeSelector32 r sel).ac = s.ac := rfl
@[simp] theorem State.writeSelector32_seg (s : State) (r : Gpr) (sel : Half) :
    (s.writeSelector32 r sel).seg = s.seg := rfl
@[simp] theorem State.writeSelector32_cpl (s : State) (r : Gpr) (sel : Half) :
    (s.writeSelector32 r sel).cpl = s.cpl := rfl
@[simp] theorem State.writeSelector32_mode (s : State) (r : Gpr) (sel : Half) :
    (s.writeSelector32 r sel).mode = s.mode := rfl
@[simp] theorem State.writeSelector32_cr (s : State) (r : Gpr) (sel : Half) : (s.writeSelector32 r sel).cr = s.cr := rfl
@[simp] theorem State.writeSelector32_dr (s : State) (r : Gpr) (sel : Half) : (s.writeSelector32 r sel).dr = s.dr := rfl
@[simp] theorem State.writeSelector32_inhibit (s : State) (r : Gpr) (sel : Half) :
    (s.writeSelector32 r sel).inhibit = s.inhibit := rfl
@[simp] theorem State.writeSelector32_gdtr (s : State) (r : Gpr) (sel : Half) :
    (s.writeSelector32 r sel).gdtr = s.gdtr := rfl
@[simp] theorem State.writeSelector32_ldtr (s : State) (r : Gpr) (sel : Half) :
    (s.writeSelector32 r sel).ldtr = s.ldtr := rfl
@[simp] theorem State.writeSelector32_mem (s : State) (r : Gpr) (sel : Half) :
    (s.writeSelector32 r sel).mem = s.mem := rfl
@[simp] theorem State.writeSelector32_owned (s : State) (r : Gpr) (sel : Half) :
    (s.writeSelector32 r sel).owned = s.owned := rfl
@[simp] theorem State.writeSelector32_stored (s : State) (r : Gpr) (sel : Half) :
    (s.writeSelector32 r sel).stored = s.stored := rfl
@[simp] theorem State.writeSelector32_draws (s : State) (r : Gpr) (sel : Half) :
    (s.writeSelector32 r sel).draws =
      s.draws + s.drawsOfWrite .b32 + if s.params.sregUpperZero || s.params.hasIntel64 then 0 else 1 := rfl
@[simp] theorem State.writeSelector32_epoch (s : State) (r : Gpr) (sel : Half) :
    (s.writeSelector32 r sel).epoch = s.epoch := rfl
@[simp] theorem State.writeSelector32_tlb (s : State) (r : Gpr) (sel : Half) :
    (s.writeSelector32 r sel).tlb = s.tlb := rfl
@[simp] theorem State.writeSelector32_modeChanged (s : State) (r : Gpr) (sel : Half) :
    (s.writeSelector32 r sel).modeChanged = s.modeChanged := rfl
@[simp] theorem State.writeSelector32_offers (s : State) (r : Gpr) (sel : Half) :
    (s.writeSelector32 r sel).offers = s.offers := rfl
@[simp] theorem State.writeSelector32_params (s : State) (r : Gpr) (sel : Half) :
    (s.writeSelector32 r sel).params = s.params := rfl

/-! ### `enter` -/

@[simp] theorem State.enter_gpr (s : State) : (s.enter).gpr = s.gpr := rfl
@[simp] theorem State.enter_pc (s : State) : (s.enter).pc = s.pc := rfl
@[simp] theorem State.enter_flags (s : State) : (s.enter).flags = s.flags := rfl
@[simp] theorem State.enter_ac (s : State) : (s.enter).ac = s.ac := rfl
@[simp] theorem State.enter_seg (s : State) : (s.enter).seg = s.seg := rfl
@[simp] theorem State.enter_cpl (s : State) : (s.enter).cpl = s.cpl := rfl
@[simp] theorem State.enter_mode (s : State) : (s.enter).mode = s.mode := rfl
@[simp] theorem State.enter_cr (s : State) : (s.enter).cr = s.cr := rfl
@[simp] theorem State.enter_dr (s : State) : (s.enter).dr = s.dr := rfl
@[simp] theorem State.enter_inhibit (s : State) : (s.enter).inhibit = false := rfl
@[simp] theorem State.enter_gdtr (s : State) : (s.enter).gdtr = s.gdtr := rfl
@[simp] theorem State.enter_ldtr (s : State) : (s.enter).ldtr = s.ldtr := rfl
@[simp] theorem State.enter_mem (s : State) : (s.enter).mem = s.mem := rfl
@[simp] theorem State.enter_owned (s : State) : (s.enter).owned = s.owned := rfl
@[simp] theorem State.enter_stored (s : State) : (s.enter).stored = s.stored := rfl
@[simp] theorem State.enter_draws (s : State) : (s.enter).draws = s.draws := rfl
@[simp] theorem State.enter_epoch (s : State) : (s.enter).epoch = s.epoch := rfl
@[simp] theorem State.enter_tlb (s : State) : (s.enter).tlb = s.tlb := rfl
@[simp] theorem State.enter_modeChanged (s : State) : (s.enter).modeChanged = s.modeChanged := rfl
@[simp] theorem State.enter_offers (s : State) : (s.enter).offers = s.offers.tail := rfl
@[simp] theorem State.enter_params (s : State) : (s.enter).params = s.params := rfl

/-! ### `ready` -/

@[simp] theorem State.ready_gpr (s : State) : (s.ready).gpr = s.gpr := rfl
@[simp] theorem State.ready_pc (s : State) : (s.ready).pc = s.pc := rfl
@[simp] theorem State.ready_flags (s : State) : (s.ready).flags = s.flags := rfl
@[simp] theorem State.ready_ac (s : State) : (s.ready).ac = s.ac := rfl
@[simp] theorem State.ready_seg (s : State) : (s.ready).seg = s.seg := rfl
@[simp] theorem State.ready_cpl (s : State) : (s.ready).cpl = s.cpl := rfl
@[simp] theorem State.ready_mode (s : State) : (s.ready).mode = s.mode := rfl
@[simp] theorem State.ready_cr (s : State) : (s.ready).cr = s.cr := rfl
@[simp] theorem State.ready_dr (s : State) : (s.ready).dr = s.dr := rfl
@[simp] theorem State.ready_inhibit (s : State) : (s.ready).inhibit = s.inhibit := rfl
@[simp] theorem State.ready_gdtr (s : State) : (s.ready).gdtr = s.gdtr := rfl
@[simp] theorem State.ready_ldtr (s : State) : (s.ready).ldtr = s.ldtr := rfl
@[simp] theorem State.ready_mem (s : State) : (s.ready).mem = s.mem := rfl
@[simp] theorem State.ready_owned (s : State) : (s.ready).owned = s.owned := rfl
@[simp] theorem State.ready_stored (s : State) : (s.ready).stored = s.stored := rfl
@[simp] theorem State.ready_draws (s : State) : (s.ready).draws = s.draws := rfl
@[simp] theorem State.ready_epoch (s : State) : (s.ready).epoch = s.epoch := rfl
@[simp] theorem State.ready_tlb (s : State) : (s.ready).tlb = s.tlb := rfl
@[simp] theorem State.ready_modeChanged (s : State) : (s.ready).modeChanged = false := rfl
@[simp] theorem State.ready_offers (s : State) : (s.ready).offers = [] := rfl
@[simp] theorem State.ready_params (s : State) : (s.ready).params = s.params := rfl

end Sys2Proof.Machine
end

