-- ==== Sys2Proof/Laws/Access.lean ====
section
/-! SUPPORT. Once for each shared operation, what it can do: completing, the tests of an access, reading and writing
memory, and the operand forms. -/

namespace Sys2Proof.Machine

/-! ### Completing -/

theorem complete_eq_next {p : Pfx} {len : Nat} {s t : State} {body : Except Stop State} :
    complete p len s body = .next t ↔ p.locked = false ∧ ∃ u, body = .ok u ∧ t = u.advance len := by
  unfold complete
  cases hp : p.locked
  · rcases body with e | u
    · rcases e with f | r <;> simp
    · simp [eq_comm]
  · simp

theorem complete_ok {p : Pfx} {len : Nat} {s u : State} {body : Except Stop State} (hp : p.locked = false)
    (hb : body = .ok u) : complete p len s body = .next (u.advance len) :=
  complete_eq_next.2 ⟨hp, u, hb, rfl⟩

theorem complete_locked {p : Pfx} {len : Nat} {s : State} {body : Except Stop State} (hp : p.locked = true) :
    complete p len s body = .fault (.exception .ud .none s.pc) := by
  simp [complete, hp]

theorem complete_fault {p : Pfx} {len : Nat} {s : State} {body : Except Stop State} {f : Fault} (hp : p.locked = false)
    (hb : body = .error (.fault f)) : complete p len s body = .fault f := by
  simp [complete, hp, hb]

theorem complete_refused {p : Pfx} {len : Nat} {s : State} {body : Except Stop State} {r : Refusal}
    (hp : p.locked = false) (hb : body = .error (.refusal r)) : complete p len s body = .refused r := by
  simp [complete, hp, hb]

/-- A row whose own effect raises #UD raises it with a LOCK prefix too. -/
theorem complete_ud {p : Pfx} {len : Nat} {s : State} {body : Except Stop State} (hb : body = raise s .ud .none) :
    complete p len s body = .fault (.exception .ud .none s.pc) := by
  cases hp : p.locked
  · exact complete_fault hp hb
  · exact complete_locked hp

/-! ### The tests of an access -/

@[simp] theorem State.linearBytes_length (s : State) (lin n : Nat) : (s.linearBytes lin n).length = n := by
  simp [State.linearBytes]

theorem translate_length {s : State} {acc : Access} {ls pas : List Nat} (h : s.translate acc ls = .ok pas) :
    pas.length = ls.length := by
  induction ls generalizing pas with
  | nil => cases h; rfl
  | cons l ls ih =>
    rw [State.translate, bind_eq_ok] at h
    obtain ⟨pa, _, h⟩ := h
    obtain ⟨rest, hr, rfl⟩ := map_eq_ok.1 h
    simp [ih hr]

/-- Translating bytes one by one. -/
theorem translate_eq_ok {s : State} {acc : Access} {ls pas : List Nat} :
    s.translate acc ls = .ok pas ↔
      pas.length = ls.length ∧ ∀ k, k < ls.length → s.translateByte acc (ls.getD k 0) = .ok (pas.getD k 0) := by
  induction ls generalizing pas with
  | nil => cases pas <;> simp [State.translate]
  | cons l ls ih =>
    simp only [State.translate, bind_eq_ok, map_eq_ok, ih]
    constructor
    · rintro ⟨pa, hpa, rest, ⟨hl, hr⟩, rfl⟩
      refine ⟨by simp [hl], fun k hk => ?_⟩
      cases k with
      | zero => simpa using hpa
      | succ k => simpa using hr k (by simpa using hk)
    · rintro ⟨hl, h⟩
      cases pas with
      | nil => simp at hl
      | cons pa rest =>
        exact ⟨pa, by simpa using h 0 (by simp), rest,
          ⟨by simpa using hl, fun k hk => by simpa using h (k + 1) (by simpa using hk)⟩, rfl⟩

theorem translateByte_off {s : State} {acc : Access} {lin : Nat} (h : s.pagingOn = false) :
    s.translateByte acc lin = .ok lin := by
  simp [State.translateByte, h]

theorem translate_off {s : State} {acc : Access} (ls : List Nat) (h : s.pagingOn = false) :
    s.translate acc ls = .ok ls := by
  rw [translate_eq_ok]
  exact ⟨rfl, fun k _ => translateByte_off h⟩

theorem isDataSreg_iff (r : Sreg) : isDataSreg r = true ↔ DataSreg r := by
  cases r <;> simp [isDataSreg, DataSreg]

theorem segFaultClass_eq (r : Sreg) : segFaultClass r = if r = .ss then .ss else .gp := by
  cases r <;> rfl

theorem State.long64_iff (s : State) : s.long64 = true ↔ s.mode = .long64 := by
  simp [State.long64]

theorem State.linearSpace_long64 {s : State} (h : s.mode = .long64) : s.linearSpace = 2 ^ 64 := by
  simp [State.linearSpace, State.long64, h]

theorem linearBytes_all {s : State} {lin n : Nat} {q : Nat → Bool} :
    (s.linearBytes lin n).all q = true ↔ ∀ k, k < n → q ((lin + k) % s.linearSpace) = true := by
  simp [State.linearBytes]

/-- The segment-level tests pass exactly as 20_memory.md R77 to R80 say. -/
theorem checkSegment_eq_ok {s : State} {d : DataAccess} :
    s.checkSegment d.seg d.off d.n d.acc = .ok () ↔ SegmentPasses s d := by
  unfold State.checkSegment SegmentPasses
  cases hm : s.mode with
  | long64 =>
    have hall := linearBytes_all (s := s) (lin := s.linear d.seg d.off) (n := d.n) (q := canonical s.params.vaBits)
    rw [State.linearSpace_long64 hm] at hall
    simp only [← hall]
    split
    · next h => simp [h]
    · next h => simp [raise, h]
  | real => simp only; split <;> simp [raise, *]
  | v86 => simp only; split <;> simp [raise, *]
  | prot | compat =>
    simp only
    split
    · next h =>
      simp only [Bool.and_eq_true, beq_iff_eq] at h
      simp only [raise, reduceCtorEq, false_iff]
      exact fun h' => h'.1 h
    · next h =>
      split
      · next h2 => simp only [raise, reduceCtorEq, false_iff, not_and]; intro _ h3; simp [h3] at h2
      · next h2 =>
        split
        · next h3 =>
          simp only [raise, reduceCtorEq, false_iff, not_and]
          intro _ _ h4
          simp at h3
          simp [h4 h3.1] at h3
        · next h3 =>
          refine iff_of_true rfl ⟨by simpa using h, by simpa using h2, fun h4 => ?_⟩
          simpa [h4] using h3

theorem misaligned_iff {s : State} {d : DataAccess} :
    s.misaligned (s.linear d.seg d.off) d.n = true ↔ Misaligned s d := by
  unfold State.misaligned Misaligned State.alignCheckEnabled
  cases hm : s.mode <;> simp [and_assoc]

/-! ### The bytes that exist -/

/-- Which bytes exist is a matter of `owned` alone. -/
theorem owns_congr {s t : State} (h : t.owned = s.owned) (a : Nat) : t.owns a = s.owns a := by
  rw [State.owns, State.owns, h]

theorem owns_iff {s : State} {a : Nat} : s.owns a = true ↔ ∃ q ∈ s.owned, q.first ≤ a ∧ a < q.first + q.count := by
  simp [State.owns]

theorem memGet_isSome_mem {m : Memory} {a : Nat} (h : (memGet m a).isSome = true) : ∃ c ∈ m, c.1 = a := by
  induction m with
  | nil => simp [memGet] at h
  | cons c m ih =>
    by_cases hc : a = c.1
    · exact ⟨c, by simp, hc.symm⟩
    · rw [memGet, if_neg hc] at h
      obtain ⟨d, hd, he⟩ := ih h
      exact ⟨d, by simp [hd], he⟩

/-- A byte with a value exists, if every listed byte does. -/
theorem memOwned_of_all {s : State} (h : (s.mem.all fun c => s.owns c.1) = true) (a : Nat)
    (ha : (memGet s.mem a).isSome = true) : s.owns a = true := by
  obtain ⟨c, hc, rfl⟩ := memGet_isSome_mem ha
  exact List.all_eq_true.1 h c hc

/-- All bytes of an access exist. -/
theorem checkOwned_eq_ok {s : State} {pas : List Nat} :
    s.checkOwned pas = .ok () ↔ ∀ a ∈ pas, s.owns a = true := by
  induction pas with
  | nil => simp [State.checkOwned]
  | cons a as ih =>
    rw [State.checkOwned]
    split
    · next h => simp [ih, h]
    · next h => simp [h]

/-- The first byte that does not exist stops the machine. -/
theorem checkOwned_error {s : State} {pas : List Nat} {k : Nat} (hk : k < pas.length)
    (h : s.owns (pas.getD k 0) = false) (hb : ∀ j, j < k → s.owns (pas.getD j 0) = true) :
    s.checkOwned pas = .error (.fault (.notOwned (pas.getD k 0))) := by
  induction pas generalizing k with
  | nil => simp at hk
  | cons a as ih =>
    cases k with
    | zero => simp only [List.getD_cons_zero] at h ⊢; simp [State.checkOwned, h]
    | succ k =>
      have h0 := hb 0 (Nat.succ_pos k)
      simp only [List.getD_cons_zero] at h0
      simp only [List.getD_cons_succ] at h ⊢
      rw [State.checkOwned, if_pos h0]
      exact ih (by simpa using hk) h fun j hj => by simpa using hb (j + 1) (by omega)

/-- All tests of an access pass, and its bytes exist. -/
theorem physBytes_eq_ok {s : State} {d : DataAccess} {pas : List Nat} :
    s.physBytes d.seg d.off d.n d.acc = .ok pas ↔
      SegmentPasses s d ∧ translateAccess s d = .ok pas ∧ ¬ Misaligned s d ∧ ∀ a ∈ pas, s.owns a = true := by
  unfold State.physBytes translateAccess
  rw [bind_eq_ok]
  simp only [← misaligned_iff, ← checkSegment_eq_ok, ← checkOwned_eq_ok]
  constructor
  · rintro ⟨_, hc, h⟩
    refine ⟨hc, ?_⟩
    split at h
    · next hp =>
      split at h
      · simp [raise] at h
      · next hm =>
        obtain ⟨_, ho, rfl⟩ := map_eq_ok.1 h
        exact ⟨hp, hm, ho⟩
    · split at h <;> simp [raise] at h
  · rintro ⟨hc, hp, hm, ho⟩
    refine ⟨(), hc, ?_⟩
    rw [hp]
    simp [hm, ho]

/-- The bytes of an access that passes its tests exist. -/
theorem physBytes_owned {s : State} {r : Sreg} {off : Word} {n : Nat} {acc : Access} {pas : List Nat}
    (h : s.physBytes r off n acc = .ok pas) : ∀ a ∈ pas, s.owns a = true :=
  ((physBytes_eq_ok (d := ⟨r, off, n, acc⟩)).1 h).2.2.2

theorem physBytes_length {s : State} {r : Sreg} {off : Word} {n : Nat} {acc : Access} {pas : List Nat}
    (h : s.physBytes r off n acc = .ok pas) : pas.length = n := by
  have h2 := (physBytes_eq_ok (d := ⟨r, off, n, acc⟩)).1 h
  simpa using translate_length h2.2.1

/-- A segment-level fault is the fault of the access. -/
theorem physBytes_segment_error {s : State} {r : Sreg} {off : Word} {n : Nat} {acc : Access} {e : Stop}
    (h : s.checkSegment r off n acc = .error e) : s.physBytes r off n acc = .error e := by
  simp [State.physBytes, h]

/-! ### Reading and writing memory -/

theorem logRead_eq_ok {s : State} {r : Sreg} {off : Word} {n : Nat} {v : Word} :
    s.logRead r off n = .ok v ↔
      ∃ pas bs, s.physBytes r off n .read = .ok pas ∧ readBytes s.mem pas = .ok bs ∧
        v = BitVec.ofNat 64 (leValue bs) := by
  unfold State.logRead
  rw [bind_eq_ok]
  simp only [map_eq_ok]
  constructor
  · rintro ⟨pas, h, bs, hb, rfl⟩; exact ⟨pas, bs, h, hb, rfl⟩
  · rintro ⟨pas, bs, h, hb, rfl⟩; exact ⟨pas, h, bs, hb, rfl⟩

theorem logWrite_eq_ok {s t : State} {r : Sreg} {off : Word} {n : Nat} {v : Word} :
    s.logWrite r off n v = .ok t ↔ ∃ pas, s.physBytes r off n .write = .ok pas ∧ t = s.store pas (leBytes n v.toNat) := by
  unfold State.logWrite
  simp only [map_eq_ok, @eq_comm _ t]

/-- Bytes that are those of `v` are what reading gives. -/
theorem readBytes_of_bytesAre {m : Memory} {pas : List Nat} {n : Nat} {v : Word} (hl : pas.length = n)
    (h : BytesAre m pas n v) : readBytes m pas = .ok (leBytes n v.toNat) := by
  rw [readBytes_eq_ok]
  refine ⟨by simp [hl], fun k hk => ?_⟩
  rw [leBytes_getD_word v (by omega)]
  exact h k (by omega)

/-- A read whose tests pass and whose bytes are those of `v` gives `v` at the width. -/
theorem logRead_of_bytesAre {s : State} {r : Sreg} {off : Word} {n : Nat} {pas : List Nat} {v : Word}
    (hp : s.physBytes r off n .read = .ok pas) (hv : BytesAre s.mem pas n v) :
    s.logRead r off n = .ok (BitVec.ofNat 64 (v.toNat % 2 ^ (8 * n))) := by
  rw [logRead_eq_ok]
  refine ⟨pas, leBytes n v.toNat, hp, readBytes_of_bytesAre (physBytes_length hp) hv, ?_⟩
  rw [leValue_leBytes]

/-- The low bits of what a read gives. -/
theorem ofNat_mod_getLsbD (v : Word) {n k : Nat} (hk : k < 8 * n) (hn : n ≤ 8) :
    (BitVec.ofNat 64 (v.toNat % 2 ^ (8 * n))).getLsbD k = v.getLsbD k := by
  simp only [BitVec.getLsbD_ofNat, Nat.testBit_mod_two_pow, hk, decide_true, Bool.true_and,
    show k < 64 by omega]
  rfl

theorem bytesAre_of_readBytes {m : Memory} {pas : List Nat} {bs : List Byte} {n : Nat} (hl : pas.length = n) (hn : n ≤ 8)
    (h : readBytes m pas = .ok bs) : BytesAre m pas n (BitVec.ofNat 64 (leValue bs)) := by
  obtain ⟨hb, hg⟩ := readBytes_eq_ok.1 h
  have hle : ∀ (bs : List Byte) (k : Nat), k < bs.length → bs.length ≤ 8 →
      (BitVec.ofNat 64 (leValue bs)).extractLsb' (8 * k) 8 = bs.getD k 0 := by
    intro bs
    have hnat : ∀ (bs : List Byte) (k : Nat), k < bs.length → leValue bs / 2 ^ (8 * k) % 256 = (bs.getD k 0).toNat := by
      intro bs
      induction bs with
      | nil => intro k hk; simp at hk
      | cons b bs ih =>
        intro k hk
        cases k with
        | zero => simp [leValue]; omega
        | succ k =>
          have h := ih k (by simpa using hk)
          rw [List.getD_cons_succ, ← h, show 8 * (k + 1) = 8 + 8 * k by ring, Nat.pow_add, ← Nat.div_div_eq_div_mul]
          congr 2
          simp only [leValue]
          have := b.isLt
          omega
    intro k hk h8
    apply BitVec.eq_of_toNat_eq
    rw [← hnat bs k hk, BitVec.extractLsb'_toNat, BitVec.toNat_ofNat, Nat.shiftRight_eq_div_pow]
    have hd : (2 : Nat) ^ 64 = 2 ^ (8 * k) * 2 ^ (64 - 8 * k) := by
      rw [← Nat.pow_add]; congr 1; omega
    rw [hd, Nat.mod_mul_right_div_self, Nat.mod_mod_of_dvd]
    exact Nat.pow_dvd_pow 2 (show 8 ≤ 64 - 8 * k by omega)
  intro k hk
  rw [hg k (by omega), hle bs k (by omega) (by omega)]

/-- What a store leaves in memory. -/
theorem store_storedAt (s : State) {pas : List Nat} {n : Nat} (v : Word) (hl : pas.length = n) :
    StoredAt s (s.store pas (leBytes n v.toNat)) pas n v where
  bytes hd k hk := by
    rw [State.store_mem, memGet_memSetAll hd (by simp [hl]) (by omega), leBytes_getD_word v hk]
  outside a ha := by rw [State.store_mem, memGet_memSetAll_outside ha]
  stored a := by rw [State.store_stored, mem_addAddrs]

/-! ### Nothing but one thing changed -/

theorem FixedSame.refl (s : State) : FixedSame s s := ⟨rfl, rfl, rfl, rfl, rfl, rfl, rfl, rfl⟩

theorem SystemSame.refl (s : State) : SystemSame s s :=
  ⟨FixedSame.refl s, ⟨rfl, rfl, rfl, rfl⟩, ⟨rfl, rfl⟩, rfl⟩

theorem systemSame_writeReg (s : State) (w : Width) (x : Bool) (r : Gpr) (v : Word) (len : Nat) :
    SystemSame s ((s.writeReg w x r v).advance len) :=
  ⟨⟨rfl, rfl, rfl, rfl, rfl, rfl, rfl, rfl⟩, ⟨rfl, rfl, rfl, rfl⟩, ⟨rfl, rfl⟩, rfl⟩

theorem systemSame_store (s : State) (pas : List Nat) (bs : List Byte) (len : Nat) :
    SystemSame s ((s.store pas bs).advance len) :=
  ⟨⟨rfl, rfl, rfl, rfl, rfl, rfl, rfl, rfl⟩, ⟨rfl, rfl, rfl, rfl⟩, ⟨rfl, rfl⟩, rfl⟩

/-- A register write, and past the instruction: what it changed and what it did not. -/
theorem writeReg_wroteReg (s : State) (len : Nat) (w : Width) (x : Bool) (r : Gpr) (v : Word) :
    WroteReg s ((s.writeReg w x r v).advance len) len w x r v where
  gpr := regsAfter_written s w x r v
  pc := rfl
  flags := rfl
  system := systemSame_writeReg s w x r v len
  memory := ⟨fun _ => rfl, rfl⟩

/-- A store, and past the instruction: what it changed and what it did not. -/
theorem store_wroteMem (s : State) (len : Nat) {pas : List Nat} {n : Nat} (v : Word) (hl : pas.length = n) :
    WroteMem s ((s.store pas (leBytes n v.toNat)).advance len) len pas n v where
  mem := ⟨(store_storedAt s v hl).bytes, (store_storedAt s v hl).outside, (store_storedAt s v hl).stored⟩
  gpr := rfl
  pc := rfl
  flags := rfl
  system := systemSame_store s pas _ len

/-! ### Operand forms -/

/-- Writing an r/m operand: a register takes the value, or memory takes its bytes. -/
theorem writeRm_eq_ok {s t : State} {p : Pfx} {len : Nat} {w : Width} {x : Bool} {rm : RmOp} {v : Word} :
    s.writeRm p len w x rm v = .ok t ↔
      (∃ r, rm = .reg r ∧ t = s.writeReg w x r v) ∨
      (∃ m pas, rm = .mem m ∧ s.physBytes (s.memSeg p m) (s.effAddr p len m) w.bytes .write = .ok pas ∧
        t = s.store pas (leBytes w.bytes v.toNat)) := by
  cases rm with
  | reg r => simp [State.writeRm, eq_comm]
  | mem m => simp [State.writeRm, logWrite_eq_ok]

theorem loadRm_eq_ok {s t : State} {p : Pfx} {len : Nat} {w : Width} {x : Bool} {g : Gpr} {rm : RmOp} :
    s.loadRm p len w x g rm = .ok t ↔ ∃ v, s.readRm p len w x rm = .ok v ∧ t = s.writeReg w x g v := by
  simp only [State.loadRm, map_eq_ok, @eq_comm _ t]

theorem loadMoffs_eq_ok {s t : State} {p : Pfx} {w : Width} {o : Moffs} :
    s.loadMoffs p w o = .ok t ↔
      ∃ v, s.logRead (s.moffsSeg p) (moffsValue o) w.bytes = .ok v ∧ t = s.writeReg w p.hasRex .rax v := by
  simp only [State.loadMoffs, map_eq_ok, @eq_comm _ t]

theorem storeMoffs_eq_ok {s t : State} {p : Pfx} {w : Width} {o : Moffs} :
    s.storeMoffs p w o = .ok t ↔
      ∃ pas, s.physBytes (s.moffsSeg p) (moffsValue o) w.bytes .write = .ok pas ∧
        t = s.store pas (leBytes w.bytes (s.readReg w p.hasRex .rax).toNat) := logWrite_eq_ok

/-- `Translate` answers with the first byte that page-faults (log 15). -/
theorem translate_error {s : State} {acc : Access} {ls : List Nat} {k code : Nat} (hk : k < ls.length)
    (h : s.translateByte acc (ls.getD k 0) = .error code)
    (hb : ∀ j, j < k → ∃ a, s.translateByte acc (ls.getD j 0) = .ok a) : s.translate acc ls = .error code := by
  induction ls generalizing k with
  | nil => simp at hk
  | cons l ls ih =>
    cases k with
    | zero => simp only [List.getD_cons_zero] at h; simp [State.translate, h]
    | succ k =>
      obtain ⟨a, ha⟩ := hb 0 (Nat.succ_pos k)
      simp only [List.getD_cons_zero] at ha
      simp only [List.getD_cons_succ] at h
      simp only [State.translate, ha, bind_ok, ih (by simpa using hk) h (fun j hj => by simpa using hb (j + 1) (by omega)),
        map_error]

end Sys2Proof.Machine
end

