-- ==== Sys2Proof/Laws/Boundary.lean ====
section
/-! SUPPORT. Once, what a step can do, and what the fetch reads. -/

namespace Sys2Proof.Machine

/-! ### The boundary does not change what is fetched -/

@[simp] theorem enter_env (s : State) : s.enter.env = s.env := rfl
@[simp] theorem enter_fetchAddr (s : State) (k : Nat) : s.enter.fetchAddr k = s.fetchAddr k := rfl
@[simp] theorem enter_fetchByte (s : State) (k : Nat) : s.enter.fetchByte k = s.fetchByte k := rfl

@[simp] theorem enter_fetchBytes (s : State) (n k : Nat) : s.enter.fetchBytes n k = s.fetchBytes n k := by
  induction n generalizing k with
  | zero => rfl
  | succ n ih => simp only [State.fetchBytes, enter_fetchByte, ih]

@[simp] theorem enter_fetchInstr (s : State) : s.enter.fetchInstr = s.fetchInstr := by
  unfold State.fetchInstr
  simp only [enter_fetchBytes, enter_env, State.enter_pc, show s.enter.long64 = s.long64 from rfl]
  rfl

/-! ### Fetching -/

/-- Bytes that are supplied are the first of those fetched. -/
theorem fetchBytes_prefix {s : State} {bs : List Byte} {n k : Nat} (hn : bs.length ≤ n)
    (h : ∀ j, j < bs.length → s.fetchByte (k + j) = .ok (bs.getD j 0)) :
    ∃ rest, (s.fetchBytes n k).1 = bs ++ rest := by
  induction bs generalizing n k with
  | nil => exact ⟨_, rfl⟩
  | cons b bs ih =>
    cases n with
    | zero => simp at hn
    | succ n =>
      have h0 : s.fetchByte k = .ok b := by simpa using h 0 (by simp)
      obtain ⟨rest, hr⟩ := ih (n := n) (k := k + 1) (by simpa using hn) fun j hj => by
        have := h (j + 1) (by simpa using hj)
        rw [show k + 1 + j = k + (j + 1) by omega]
        simpa using this
      exact ⟨rest, by simp [State.fetchBytes, h0, hr]⟩

theorem fetchBytes_error {s : State} {r : Refusal} {n k : Nat} (h : s.fetchByte k = .error r) :
    s.fetchBytes (n + 1) k = ([], some r) := by
  simp [State.fetchBytes, h]

theorem fetchByte_stored {s : State} {k a : Nat} (h : s.fetchAddr k = some a) (ha : a ∈ s.stored) :
    s.fetchByte k = .error (.selfModified a) := by
  simp [State.fetchByte, h, ha]

theorem fetchInstr_eq_ok {s : State} {i : Instr} :
    s.fetchInstr = .ok i ↔
      (∃ rest, decode s.env (s.fetchBytes 15 0).1 = .ok (i, rest)) ∧
        (s.mode = .long64 → s.pc.toNat + instrLength i < 2 ^ 64) := by
  unfold State.fetchInstr
  cases hd : decode s.env (s.fetchBytes 15 0).1 with
  | ok r =>
    obtain ⟨j, rest⟩ := r
    have hl : (s.long64 && decide (2 ^ 64 ≤ s.pc.toNat + instrLength j)) = false ↔
        (s.mode = .long64 → s.pc.toNat + instrLength j < 2 ^ 64) := by
      simp [State.long64]
    simp only
    split
    · next h =>
      simp only [reduceCtorEq, Except.ok.injEq, Prod.mk.injEq, exists_and_left, exists_eq', and_true, false_iff, not_and]
      rintro rfl h'
      rw [← hl, h] at h'
      cases h'
    · next h =>
      simp only [Except.ok.injEq, Prod.mk.injEq, exists_and_left, exists_eq', and_true]
      constructor
      · rintro rfl; exact ⟨rfl, hl.1 (by simpa using h)⟩
      · exact fun h => h.1
  | error why =>
    cases why <;> simp only [reduceCtorEq, exists_false, false_and, iff_false]
    split <;> simp

/-! ### The step -/

/-- A step that goes on: the run had not ended, no event was delivered, and the instruction at CS:pc completed. -/
theorem step_eq_next {s t : State} :
    step s = .next t ↔
      s.modeChanged = false ∧ s.delivered = none ∧ ∃ i, s.fetchInstr = .ok i ∧ exec i s.enter = .next t := by
  unfold step
  rw [enter_fetchInstr]
  cases s.modeChanged
  · simp only [Bool.false_eq_true, if_false, true_and]
    cases s.delivered with
    | some f => simp
    | none =>
      cases s.fetchInstr with
      | error r => simp
      | ok i => simp
  · simp

theorem step_of_fetchInstr {s : State} {i : Instr} (hm : s.modeChanged = false) (hd : s.delivered = none)
    (hi : s.fetchInstr = .ok i) : step s = exec i s.enter := by
  simp [step, hm, hd, hi]

theorem step_of_fetchInstr_error {s : State} {r : Refusal} (hm : s.modeChanged = false) (hd : s.delivered = none)
    (hi : s.fetchInstr = .error r) : step s = .refused r := by
  simp [step, hm, hd, hi]

end Sys2Proof.Machine
end

