-- ==== Sys2Proof/Laws/Control.lean ====
section
/-! SUPPORT. Once for each shared operation of the control- and debug-register rows, what it can do (42_mov_cr.md,
43_mov_dr.md). -/

namespace Sys2Proof.Machine

/-! ### Who may -/

theorem privileged_iff (s : State) : s.privileged = true ↔ MayMoveSystem s := by
  unfold State.privileged MayMoveSystem
  cases s.mode <;> simp

theorem crGuard_eq_ok {s : State} {c : Option CrReg} {r : CrReg} :
    s.crGuard c = .ok r ↔ c = some r ∧ (r = .cr4 → s.params.hasCr4 = true) ∧ MayMoveSystem s := by
  unfold State.crGuard
  cases c with
  | none => simp [raise]
  | some q =>
    simp only [← privileged_iff]
    split
    · next h =>
      simp only [Bool.and_eq_true, beq_iff_eq, Bool.not_eq_true'] at h
      obtain ⟨rfl, h⟩ := h
      simp only [reduceCtorEq, Option.some.injEq, false_iff]
      rintro ⟨rfl, h', _⟩
      simp [h] at h'
    · next h =>
      simp only [Bool.and_eq_true, beq_iff_eq, Bool.not_eq_true', not_and, Bool.not_eq_false] at h
      cases s.privileged with
      | true =>
        simp only [if_true, Except.ok.injEq, Option.some.injEq, and_true]
        exact ⟨fun hq => ⟨hq, fun hr => h (hq.trans hr)⟩, fun hq => hq.1⟩
      | false => simp [raise]

theorem crGuard_absent (s : State) : s.crGuard none = raise s .ud .none := rfl

/-- Privilege is all that is left to refuse a register that exists. -/
theorem crGuard_unprivileged {s : State} {r : CrReg} (h4 : r = .cr4 → s.params.hasCr4 = true) (h : ¬ MayMoveSystem s) :
    s.crGuard (some r) = raise s .gp (.code 0) := by
  rw [← privileged_iff] at h
  unfold State.crGuard
  have : (r == .cr4 && !s.params.hasCr4) = false := by
    cases hr : r == CrReg.cr4
    · rfl
    · simp [h4 (by simpa using hr)]
  simp [this, h]

/-! ### Reading a control register -/

theorem readCr_eq_ok {s t : State} {w : Width} {g : Gpr} {c : Option CrReg} :
    s.readCr w g c = .ok t ↔
      ∃ r, c = some r ∧ (r = .cr4 → s.params.hasCr4 = true) ∧ MayMoveSystem s ∧
        t = (s.writeReg w false g (s.cr.get r)).undefineFlags := by
  unfold State.readCr
  simp only [map_eq_ok, crGuard_eq_ok, @eq_comm _ t, and_assoc]

/-! ### The values a write refuses -/

theorem pdptLoadFaults_iff {s : State} {r : CrReg} {v : Word} : s.pdptLoadFaults r v = true ↔ PdptFaults s r v := by
  simp [State.pdptLoadFaults, PdptFaults, patternHolds, and_assoc]

theorem cr0Refused_iff {s : State} {v : Word} : s.cr0Refused v = true ↔ Cr0Bad s v := by
  unfold State.cr0Refused Cr0Bad cr0Invalid
  simp only [← pdptLoadFaults_iff]
  cases s.mode <;>
    simp [cr0PG, cr0PE, cr0CD, cr0NW, cr4PCIDE, patternHolds, or_assoc, and_assoc]

theorem cr3Mask_getLsbD (q : Params) (k : Nat) : (cr3Mask q).getLsbD k = (q.cr3Reserved.getLsbD k || k == 63) := by
  unfold cr3Mask
  rw [BitVec.getLsbD_or]
  congr 1
  by_cases hk : k < 64
  · have : ∀ j, j < 64 → (0x8000000000000000#64).getLsbD j = (j == 63) := by decide
    exact this k hk
  · rw [BitVec.getLsbD_of_ge _ _ (by omega)]
    symm
    simpa using (by omega : k ≠ 63)

theorem and_ne_zero_iff (v m : Word) : v &&& m ≠ 0#64 ↔ ∃ k, k < 64 ∧ v.getLsbD k = true ∧ m.getLsbD k = true := by
  constructor
  · intro h
    by_contra hn
    refine h (BitVec.eq_of_getLsbD_eq fun k hk => ?_)
    rw [BitVec.getLsbD_and]
    simp only [BitVec.getLsbD_zero, Bool.and_eq_false_iff]
    by_contra hc
    simp only [not_or, Bool.not_eq_false] at hc
    exact hn ⟨k, hk, hc⟩
  · rintro ⟨k, _, hv, hm⟩ h
    have := congrArg (fun x => x.getLsbD k) h
    simp [BitVec.getLsbD_and, hv, hm] at this

theorem cr3Refused_iff {s : State} {v : Word} : s.cr3Refused v = true ↔ Cr3Bad s v := by
  have hmask : ∀ b : Bool, (v &&& (if b = true then cr3Mask s.params &&& 0x7FFFFFFFFFFFFFFF#64 else cr3Mask s.params)
      != 0#64) = true ↔
      ∃ k, k < 64 ∧ v.getLsbD k = true ∧
        ((k < 63 ∧ s.params.cr3Reserved.getLsbD k = true) ∨ (k = 63 ∧ b = false)) := by
    intro b
    rw [bne_iff_ne, and_ne_zero_iff]
    refine exists_congr fun k => and_congr_right fun hk => and_congr_right fun _ => ?_
    have h7 : ∀ j, j < 64 → (0x7FFFFFFFFFFFFFFF#64).getLsbD j = decide (j < 63) := by decide
    cases b with
    | true =>
      simp only [if_true, BitVec.getLsbD_and, cr3Mask_getLsbD, h7 k hk, Bool.and_eq_true, Bool.or_eq_true, beq_iff_eq,
        decide_eq_true_eq, reduceCtorEq, and_false, or_false]
      constructor
      · rintro ⟨h | h, h'⟩
        · exact ⟨h', h⟩
        · omega
      · exact fun h => ⟨.inl h.2, h.1⟩
    | false =>
      simp only [Bool.false_eq_true, if_false, cr3Mask_getLsbD, Bool.or_eq_true, beq_iff_eq, and_true]
      constructor
      · rintro (h | h)
        · by_cases h63 : k = 63
          · exact .inr h63
          · exact .inl ⟨by omega, h⟩
        · exact .inr h
      · rintro (h | h)
        · exact .inl h.2
        · exact .inr h
  have hm := hmask (s.cr.cr4.getLsbD 17)
  unfold State.cr3Refused Cr3Bad
  simp only [← pdptLoadFaults_iff]
  cases s.mode with
  | real => simp
  | v86 => simp
  | prot => simp
  | compat => simpa [cr4PCIDE] using hm
  | long64 => simpa [cr4PCIDE] using hm

theorem cr4Refused_iff {s : State} {v : Word} (hm : s.mode ≠ .v86) : s.cr4Refused v = true ↔ Cr4Bad s v := by
  unfold State.cr4Refused Cr4Bad
  simp only [← pdptLoadFaults_iff]
  cases h : s.mode <;> simp [cr4PCIDE, cr4PAE, and_assoc, h] at hm ⊢

/-! ### Writing a control register -/

theorem cr0Stored_getLsbD (q : Params) (v : Word) {k : Nat} (hk : k < 64) :
    (cr0Stored q v).getLsbD k = ((q.cr0EtSticky && k == 4) || (v.getLsbD k && !q.cr0Reserved.getLsbD k)) := by
  have h4 : ∀ j, j < 64 → (0x10#64).getLsbD j = (j == 4) := by decide
  unfold cr0Stored
  cases q.cr0EtSticky
  · simp [hk]
  · simp only [if_true, BitVec.getLsbD_or, h4 k hk, BitVec.getLsbD_and, BitVec.getLsbD_not, hk, decide_true,
      Bool.true_and]
    exact Bool.or_comm _ _

/-- Whatever it writes, a write of a control register touches these fields alone. -/
theorem writeCrReg_touches {s t : State} {r : CrReg} {v : Word} (h : s.writeCrReg r v = .ok t) :
    t = { s with cr := s.cr.set r (t.cr.get r), epoch := t.epoch, tlb := t.tlb, modeChanged := t.modeChanged } := by
  cases r with
  | cr0 =>
    simp only [State.writeCrReg, State.writeCr0] at h
    split at h
    · simp [crFault, raise] at h
    · cases h; rfl
  | cr2 => cases h; rfl
  | cr3 =>
    simp only [State.writeCrReg, State.writeCr3] at h
    split at h
    · simp [crFault, raise] at h
    · cases h; rfl
  | cr4 =>
    simp only [State.writeCrReg, State.writeCr4] at h
    split at h
    · simp [crFault, raise] at h
    · cases h; rfl
  | cr8 =>
    simp only [State.writeCrReg, State.writeCr8] at h
    split at h
    · simp [crFault, raise] at h
    · cases h; rfl

theorem writeCr0_eq_ok {s t : State} {v : Word} (h : s.writeCr0 v = .ok t) :
    ¬ Cr0Bad s v ∧ t.cr.cr0 = cr0Stored s.params v ∧ t.epoch = s.epoch + 1 ∧
      t.modeChanged = (s.modeChanged || (cr0PE t.cr.cr0 != cr0PE s.cr.cr0 || cr0PG t.cr.cr0 != cr0PG s.cr.cr0)) := by
  unfold State.writeCr0 at h
  rw [← cr0Refused_iff]
  split at h
  · simp [crFault, raise] at h
  · next hr => cases h; exact ⟨hr, rfl, rfl, rfl⟩

theorem writeCr3_eq_ok {s t : State} {v : Word} (h : s.writeCr3 v = .ok t) :
    ¬ Cr3Bad s v ∧ t.cr.cr3 = v &&& ~~~cr3Mask s.params ∧ t.epoch = s.epoch + 1 ∧ t.modeChanged = s.modeChanged := by
  unfold State.writeCr3 at h
  rw [← cr3Refused_iff]
  split at h
  · simp [crFault, raise] at h
  · next hr => cases h; exact ⟨hr, rfl, rfl, rfl⟩

theorem writeCr4_eq_ok {s t : State} {v : Word} (h : s.writeCr4 v = .ok t) :
    s.cr4Refused v = false ∧ t.cr.cr4 = v ∧ t.epoch = s.epoch + 1 ∧
      t.modeChanged = (s.modeChanged || cr4PAE v != cr4PAE s.cr.cr4) := by
  unfold State.writeCr4 at h
  split at h
  · simp [crFault, raise] at h
  · next hr => cases h; exact ⟨by simpa using hr, rfl, rfl, rfl⟩

theorem writeCr8_eq_ok {s t : State} {v : Word} (h : s.writeCr8 v = .ok t) :
    v &&& s.params.cr8Reserved = 0#64 ∧ t.cr.cr8 = v := by
  unfold State.writeCr8 at h
  split at h
  · simp [crFault, raise] at h
  · next hr => cases h; exact ⟨by simpa using hr, rfl⟩

theorem writeCr_eq_ok {s t : State} {w : Width} {c : Option CrReg} {g : Gpr} :
    s.writeCr w c g = .ok t ↔
      ∃ r u, c = some r ∧ (r = .cr4 → s.params.hasCr4 = true) ∧ MayMoveSystem s ∧
        s.writeCrReg r (s.readReg w false g) = .ok u ∧ t = u.undefineFlags := by
  unfold State.writeCr
  simp only [bind_eq_ok, map_eq_ok, crGuard_eq_ok, @eq_comm _ t]
  constructor
  · rintro ⟨r, ⟨hc, h4, hp⟩, u, hu, ht⟩; exact ⟨r, u, hc, h4, hp, hu, ht⟩
  · rintro ⟨r, u, hc, h4, hp, hu, ht⟩; exact ⟨r, ⟨hc, h4, hp⟩, u, hu, ht⟩

/-! ### Debug registers -/

theorem debugExtensions_iff (s : State) :
    s.debugExtensions = true ↔ s.params.hasCr4 = true ∧ s.cr.cr4.getLsbD 3 = true := by
  simp [State.debugExtensions, cr4DE]

theorem drGuard_eq_ok {s : State} {p : Pfx} {d : DrNum} {r : DrReg} :
    s.drGuard p d = .ok r ↔ DrAllowed s p d ∧ r = drIndex d := by
  unfold State.drGuard DrAllowed
  simp only [← privileged_iff, ← State.long64_iff, ← debugExtensions_iff,
    show s.dr.dr7.getLsbD 13 = dr7GD s.dr.dr7 from rfl]
  split
  · next h => simp [raise, Bool.and_eq_true] at h ⊢; simp [h]
  · next h =>
    split
    · next h2 =>
      simp only [Bool.and_eq_true, Bool.or_eq_true, beq_iff_eq] at h2
      simp [raise, h2]
    · next h2 =>
      simp only [Bool.and_eq_true, Bool.or_eq_true, beq_iff_eq] at h h2
      split
      · next h3 => simp at h3; simp [raise, h3]
      · next h3 =>
        by_cases h4 : dr7GD s.dr.dr7 = true
        · simp [raise, h4]
        · rw [if_neg h4]
          simp only [Except.ok.injEq, @eq_comm _ r]
          exact ⟨fun hr => ⟨⟨h, h2, by simpa using h3, by simpa using h4⟩, hr⟩, fun hr => hr.2⟩

theorem readDr_eq_ok {s t : State} {p : Pfx} {w : Width} {g : Gpr} {d : DrNum} :
    s.readDr p w g d = .ok t ↔
      DrAllowed s p d ∧ t = (s.writeReg w false g (s.dr.get (drIndex d))).undefineFlags := by
  unfold State.readDr
  simp only [map_eq_ok, drGuard_eq_ok, @eq_comm _ t]
  constructor
  · rintro ⟨r, ⟨hd, rfl⟩, ht⟩; exact ⟨hd, ht⟩
  · rintro ⟨hd, ht⟩; exact ⟨_, ⟨hd, rfl⟩, ht⟩

theorem drRefused_iff {s : State} {r : DrReg} {v : Word} :
    s.drRefused r v = true ↔ s.mode = .long64 ∧ (r = .dr6 ∨ r = .dr7) ∧ 2 ^ 32 ≤ v.toNat := by
  have h : v.extractLsb' 32 32 ≠ 0#32 ↔ 2 ^ 32 ≤ v.toNat := by
    rw [Ne, ← BitVec.toNat_inj, BitVec.extractLsb'_toNat, Nat.shiftRight_eq_div_pow]
    have := v.isLt
    simp only [BitVec.toNat_ofNat]
    omega
  simp only [State.drRefused, Bool.and_eq_true, Bool.or_eq_true, bne_iff_ne, beq_iff_eq, State.long64_iff, h, and_assoc]

theorem writeDr_eq_ok {s t : State} {p : Pfx} {w : Width} {d : DrNum} {g : Gpr} :
    s.writeDr p w d g = .ok t ↔
      DrAllowed s p d ∧ s.drRefused (drIndex d) (s.readReg w false g) = false ∧
        t = ({ s with dr := s.dr.set (drIndex d) (drStored s.params (drIndex d) (s.readReg w false g)) } :
          State).undefineFlags := by
  unfold State.writeDr
  simp only [bind_eq_ok, drGuard_eq_ok]
  constructor
  · rintro ⟨r, ⟨hd, rfl⟩, h⟩
    split at h
    · simp [raise] at h
    · next hr => cases h; exact ⟨hd, by simpa using hr, rfl⟩
  · rintro ⟨hd, hr, rfl⟩
    exact ⟨_, ⟨hd, rfl⟩, by simp [hr]⟩

end Sys2Proof.Machine
end

