-- ==== Sys2Proof/Laws/PerInstr.lean ====
section
/-! SUPPORT. Statements about every instruction, one lemma for each constructor: the length of an instruction is the number
of bytes of its encoding (30_encoding.md R137). -/

namespace Sys2Proof

@[simp] theorem Pfx.bytes_length (p : Pfx) : p.bytes.length = p.length := by
  cases p with
  | mk l r => cases r <;> simp [Pfx.bytes, Pfx.length]

@[simp] theorem bytes16_length (v : Half) : (bytes16 v).length = 2 := rfl
@[simp] theorem bytes32_length (v : Dword) : (bytes32 v).length = 4 := rfl
@[simp] theorem bytes64_length (v : Word) : (bytes64 v).length = 8 := rfl

@[simp] theorem disp16Bytes_length (d : Disp 16) : (disp16Bytes d).length = dispLength d := by cases d <;> rfl
@[simp] theorem disp32Bytes_length (d : Disp 32) : (disp32Bytes d).length = dispLength d := by cases d <;> rfl

@[simp] theorem memBytes_length (reg : BitVec 3) (m : MemOp) : (memBytes reg m).length = 1 + memLength m := by
  cases m <;> simp [memBytes, memLength] <;> omega

@[simp] theorem rmBytes_length (reg : BitVec 3) (rm : RmOp) : (rmBytes reg rm).length = rmLength rm := by
  cases rm <;> simp [rmBytes, rmLength]

@[simp] theorem moffsBytes_length (o : Moffs) : (moffsBytes o).length = moffsLength o := by cases o <;> rfl

end Sys2Proof

namespace Sys2Proof.Laws.EncodedLength

/-- The length of the instruction is the number of bytes of its encoding. -/
def Statement (i : Instr) : Prop := (encode i).length = instrLength i

theorem movRm8R8 (p : Pfx) (rm : RmOp) (g : Gpr) :
    Statement (.movRm8R8 p rm g) := by
  simp [Statement, encode, instrPfx, bodyBytes, instrLength]
  omega

theorem movRm8R8Rex (p : Pfx) (rm : RmOp) (g : Gpr) :
    Statement (.movRm8R8Rex p rm g) := by
  simp [Statement, encode, instrPfx, bodyBytes, instrLength]
  omega

theorem movRm16R16 (p : Pfx) (rm : RmOp) (g : Gpr) :
    Statement (.movRm16R16 p rm g) := by
  simp [Statement, encode, instrPfx, bodyBytes, instrLength]
  omega

theorem movRm32R32 (p : Pfx) (rm : RmOp) (g : Gpr) :
    Statement (.movRm32R32 p rm g) := by
  simp [Statement, encode, instrPfx, bodyBytes, instrLength]
  omega

theorem movRm64R64 (p : Pfx) (rm : RmOp) (g : Gpr) :
    Statement (.movRm64R64 p rm g) := by
  simp [Statement, encode, instrPfx, bodyBytes, instrLength]
  omega

theorem movR8Rm8 (p : Pfx) (g : Gpr) (rm : RmOp) :
    Statement (.movR8Rm8 p g rm) := by
  simp [Statement, encode, instrPfx, bodyBytes, instrLength]
  omega

theorem movR8Rm8Rex (p : Pfx) (g : Gpr) (rm : RmOp) :
    Statement (.movR8Rm8Rex p g rm) := by
  simp [Statement, encode, instrPfx, bodyBytes, instrLength]
  omega

theorem movR16Rm16 (p : Pfx) (g : Gpr) (rm : RmOp) :
    Statement (.movR16Rm16 p g rm) := by
  simp [Statement, encode, instrPfx, bodyBytes, instrLength]
  omega

theorem movR32Rm32 (p : Pfx) (g : Gpr) (rm : RmOp) :
    Statement (.movR32Rm32 p g rm) := by
  simp [Statement, encode, instrPfx, bodyBytes, instrLength]
  omega

theorem movR64Rm64 (p : Pfx) (g : Gpr) (rm : RmOp) :
    Statement (.movR64Rm64 p g rm) := by
  simp [Statement, encode, instrPfx, bodyBytes, instrLength]
  omega

theorem movRm16Sreg (p : Pfx) (rm : RmOp) (f : SregField) :
    Statement (.movRm16Sreg p rm f) := by
  simp [Statement, encode, instrPfx, bodyBytes, instrLength]
  omega

theorem movR32M16Sreg (p : Pfx) (rm : RmOp) (f : SregField) :
    Statement (.movR32M16Sreg p rm f) := by
  simp [Statement, encode, instrPfx, bodyBytes, instrLength]
  omega

theorem movR64M16Sreg (p : Pfx) (rm : RmOp) (f : SregField) :
    Statement (.movR64M16Sreg p rm f) := by
  simp [Statement, encode, instrPfx, bodyBytes, instrLength]
  omega

theorem movSregRm16 (p : Pfx) (f : SregField) (rm : RmOp) :
    Statement (.movSregRm16 p f rm) := by
  simp [Statement, encode, instrPfx, bodyBytes, instrLength]
  omega

theorem movSregRm64 (p : Pfx) (f : SregField) (rm : RmOp) :
    Statement (.movSregRm64 p f rm) := by
  simp [Statement, encode, instrPfx, bodyBytes, instrLength]
  omega

theorem movAlMoffs8 (p : Pfx) (o : Moffs) :
    Statement (.movAlMoffs8 p o) := by
  simp [Statement, encode, instrPfx, bodyBytes, instrLength]
  omega

theorem movAlMoffs8RexW (p : Pfx) (o : Moffs) :
    Statement (.movAlMoffs8RexW p o) := by
  simp [Statement, encode, instrPfx, bodyBytes, instrLength]
  omega

theorem movAxMoffs16 (p : Pfx) (o : Moffs) :
    Statement (.movAxMoffs16 p o) := by
  simp [Statement, encode, instrPfx, bodyBytes, instrLength]
  omega

theorem movEaxMoffs32 (p : Pfx) (o : Moffs) :
    Statement (.movEaxMoffs32 p o) := by
  simp [Statement, encode, instrPfx, bodyBytes, instrLength]
  omega

theorem movRaxMoffs64 (p : Pfx) (o : Moffs) :
    Statement (.movRaxMoffs64 p o) := by
  simp [Statement, encode, instrPfx, bodyBytes, instrLength]
  omega

theorem movMoffs8Al (p : Pfx) (o : Moffs) :
    Statement (.movMoffs8Al p o) := by
  simp [Statement, encode, instrPfx, bodyBytes, instrLength]
  omega

theorem movMoffs8AlRexW (p : Pfx) (o : Moffs) :
    Statement (.movMoffs8AlRexW p o) := by
  simp [Statement, encode, instrPfx, bodyBytes, instrLength]
  omega

theorem movMoffs16Ax (p : Pfx) (o : Moffs) :
    Statement (.movMoffs16Ax p o) := by
  simp [Statement, encode, instrPfx, bodyBytes, instrLength]
  omega

theorem movMoffs32Eax (p : Pfx) (o : Moffs) :
    Statement (.movMoffs32Eax p o) := by
  simp [Statement, encode, instrPfx, bodyBytes, instrLength]
  omega

theorem movMoffs64Rax (p : Pfx) (o : Moffs) :
    Statement (.movMoffs64Rax p o) := by
  simp [Statement, encode, instrPfx, bodyBytes, instrLength]
  omega

theorem movR8Imm8 (p : Pfx) (g : Gpr) (imm : Byte) :
    Statement (.movR8Imm8 p g imm) := by
  simp [Statement, encode, instrPfx, bodyBytes, instrLength]

theorem movR8Imm8Rex (p : Pfx) (g : Gpr) (imm : Byte) :
    Statement (.movR8Imm8Rex p g imm) := by
  simp [Statement, encode, instrPfx, bodyBytes, instrLength]

theorem movR16Imm16 (p : Pfx) (g : Gpr) (imm : Half) :
    Statement (.movR16Imm16 p g imm) := by
  simp [Statement, encode, instrPfx, bodyBytes, instrLength]

theorem movR32Imm32 (p : Pfx) (g : Gpr) (imm : Dword) :
    Statement (.movR32Imm32 p g imm) := by
  simp [Statement, encode, instrPfx, bodyBytes, instrLength]

theorem movR64Imm64 (p : Pfx) (g : Gpr) (imm : Word) :
    Statement (.movR64Imm64 p g imm) := by
  simp [Statement, encode, instrPfx, bodyBytes, instrLength]

theorem movRm8Imm8 (p : Pfx) (rm : RmOp) (imm : Byte) :
    Statement (.movRm8Imm8 p rm imm) := by
  simp [Statement, encode, instrPfx, bodyBytes, instrLength]
  omega

theorem movRm8Imm8Rex (p : Pfx) (rm : RmOp) (imm : Byte) :
    Statement (.movRm8Imm8Rex p rm imm) := by
  simp [Statement, encode, instrPfx, bodyBytes, instrLength]
  omega

theorem movRm16Imm16 (p : Pfx) (rm : RmOp) (imm : Half) :
    Statement (.movRm16Imm16 p rm imm) := by
  simp [Statement, encode, instrPfx, bodyBytes, instrLength]
  omega

theorem movRm32Imm32 (p : Pfx) (rm : RmOp) (imm : Dword) :
    Statement (.movRm32Imm32 p rm imm) := by
  simp [Statement, encode, instrPfx, bodyBytes, instrLength]
  omega

theorem movRm64Imm32 (p : Pfx) (rm : RmOp) (imm : Dword) :
    Statement (.movRm64Imm32 p rm imm) := by
  simp [Statement, encode, instrPfx, bodyBytes, instrLength]
  omega

theorem movR32Cr (p : Pfx) (m : BitVec 2) (g : Gpr) (c : CrNum) :
    Statement (.movR32Cr p m g c) := by
  simp [Statement, encode, instrPfx, bodyBytes, instrLength]

theorem movR64Cr (p : Pfx) (m : BitVec 2) (g : Gpr) (c : CrNum) :
    Statement (.movR64Cr p m g c) := by
  simp [Statement, encode, instrPfx, bodyBytes, instrLength]

theorem movR64Cr8 (p : Pfx) (m : BitVec 2) (g : Gpr) (c : CrHigh) :
    Statement (.movR64Cr8 p m g c) := by
  simp [Statement, encode, instrPfx, bodyBytes, instrLength]

theorem movCrR32 (p : Pfx) (m : BitVec 2) (c : CrNum) (g : Gpr) :
    Statement (.movCrR32 p m c g) := by
  simp [Statement, encode, instrPfx, bodyBytes, instrLength]

theorem movCrR64 (p : Pfx) (m : BitVec 2) (c : CrNum) (g : Gpr) :
    Statement (.movCrR64 p m c g) := by
  simp [Statement, encode, instrPfx, bodyBytes, instrLength]

theorem movCr8R64 (p : Pfx) (m : BitVec 2) (c : CrHigh) (g : Gpr) :
    Statement (.movCr8R64 p m c g) := by
  simp [Statement, encode, instrPfx, bodyBytes, instrLength]

theorem movR32Dr (p : Pfx) (m : BitVec 2) (g : Gpr) (d : DrNum) :
    Statement (.movR32Dr p m g d) := by
  simp [Statement, encode, instrPfx, bodyBytes, instrLength]

theorem movR64Dr (p : Pfx) (m : BitVec 2) (g : Gpr) (d : DrNum) :
    Statement (.movR64Dr p m g d) := by
  simp [Statement, encode, instrPfx, bodyBytes, instrLength]

theorem movDrR32 (p : Pfx) (m : BitVec 2) (d : DrNum) (g : Gpr) :
    Statement (.movDrR32 p m d g) := by
  simp [Statement, encode, instrPfx, bodyBytes, instrLength]

theorem movDrR64 (p : Pfx) (m : BitVec 2) (d : DrNum) (g : Gpr) :
    Statement (.movDrR64 p m d g) := by
  simp [Statement, encode, instrPfx, bodyBytes, instrLength]

end Sys2Proof.Laws.EncodedLength
end

