-- ==== Sys2Proof/Laws/Encoding.lean ====
section
/-! SUPPORT. The parts of the decoder against the parts of the encoder, in both directions: numbers and names, prefix bytes,
little-endian fields, ModR/M, SIB and displacement, moffs offsets. -/

namespace Sys2Proof

/-! ### Numbers and names -/

@[simp] theorem Gpr.of_hi_lo (r : Gpr) : Gpr.of r.hi r.lo = r := by cases r <;> rfl

theorem Gpr.hi_of (h : Bool) (l : BitVec 3) : (Gpr.of h l).hi = h := by
  revert h l; decide

theorem Gpr.lo_of (h : Bool) (l : BitVec 3) : (Gpr.of h l).lo = l := by
  revert h l; decide

theorem Gpr.of_eq_rsp (h : Bool) (l : BitVec 3) : Gpr.of h l = .rsp ↔ h = false ∧ l = 4#3 := by
  revert h l; decide

@[simp] theorem SregField.ofNum_num (f : SregField) : SregField.ofNum f.num = f := by
  rcases f with r | _ | _
  · cases r <;> rfl
  · rfl
  · rfl

@[simp] theorem SregField.num_ofNum (n : BitVec 3) : (SregField.ofNum n).num = n := by revert n; decide
@[simp] theorem CrNum.ofNum_num (c : CrNum) : CrNum.ofNum c.num = c := by cases c <;> rfl
@[simp] theorem CrNum.num_ofNum (n : BitVec 3) : (CrNum.ofNum n).num = n := by revert n; decide
@[simp] theorem CrHigh.ofNum_num (c : CrHigh) : CrHigh.ofNum c.num = c := by cases c <;> rfl
@[simp] theorem CrHigh.num_ofNum (n : BitVec 3) : (CrHigh.ofNum n).num = n := by revert n; decide
@[simp] theorem DrNum.ofNum_num (d : DrNum) : DrNum.ofNum d.num = d := by cases d <;> rfl
@[simp] theorem DrNum.num_ofNum (n : BitVec 3) : (DrNum.ofNum n).num = n := by revert n; decide
@[simp] theorem Base16.ofNum_num (b : Base16) : Base16.ofNum b.num = b := by cases b <;> rfl
@[simp] theorem Base16.num_ofNum (n : BitVec 3) : (Base16.ofNum n).num = n := by revert n; decide

/-! ### Prefix bytes -/

@[simp] theorem Rex.ofByte_byte (x : Rex) : Rex.ofByte x.byte = x := by
  rcases x with ⟨_ | _, _ | _, _ | _, _ | _⟩ <;> rfl

@[simp] theorem Rex.isRexByte_byte (x : Rex) : isRexByte x.byte = true := by
  rcases x with ⟨_ | _, _ | _, _ | _, _ | _⟩ <;> rfl

@[simp] theorem Rex.legacyOfByte_byte (x : Rex) : legacyOfByte x.byte = none := by
  rcases x with ⟨_ | _, _ | _, _ | _, _ | _⟩ <;> rfl

theorem Rex.byte_ofByte {b : Byte} (h : isRexByte b = true) : (Rex.ofByte b).byte = b := by
  revert b; decide

theorem legacyOfByte_byte {l : LegacyPfx} (h : l.isStale = false) : legacyOfByte l.byte = some l := by
  cases l with
  | opSize => rfl
  | addrSize => rfl
  | lock => rfl
  | seg s => cases s <;> rfl
  | staleRex r => cases h

theorem legacyOfByte_eq_some {b : Byte} {l : LegacyPfx} (h : legacyOfByte b = some l) :
    l.byte = b ∧ l.isStale = false := by
  have hall : ∀ b : Byte, (legacyOfByte b).all (fun l => decide (l.byte = b) && !l.isStale) = true := by decide
  have := hall b
  rw [h] at this
  simpa using this

theorem isPrefixByte_byte (l : LegacyPfx) : isPrefixByte l.byte = true := by
  cases hs : l.isStale with
  | false => simp [isPrefixByte, legacyOfByte_byte hs]
  | true =>
    cases l with
    | staleRex r => simp [isPrefixByte, LegacyPfx.byte]
    | opSize | addrSize | lock | seg _ => cases hs

theorem isPrefixByte_rex (x : Rex) : isPrefixByte x.byte = true := by simp [isPrefixByte]

/-- The prefixes of a well-formed instruction are taken off again, where an opcode follows. -/
theorem takePfx_bytes {l : Bool} {p : Pfx} {rest : List Byte}
    (hw : (l || (p.rex.isNone && !p.legacy.any LegacyPfx.isStale)) = true)
    (hl : (p.rex.isSome || !(p.legacy.getLast?.any LegacyPfx.isStale)) = true)
    (hr : ∀ b bs, rest = b :: bs → isPrefixByte b = false) (hn : rest ≠ []) :
    takePfx l (p.bytes ++ rest) = (p, rest) := by
  obtain ⟨b, bs, rfl⟩ := List.exists_cons_of_ne_nil hn
  have hb := hr b bs rfl
  simp only [isPrefixByte, Bool.or_eq_false_iff, Option.isSome_eq_false_iff, Option.isNone_iff_eq_none] at hb
  obtain ⟨legacy, rex⟩ := p
  induction legacy with
  | nil =>
    cases rex with
    | none => simp [Pfx.bytes, takePfx, hb]
    | some x =>
      have hl' : l = true := by simpa using hw
      simp [Pfx.bytes, takePfx, nextIsPrefix, isPrefixByte, hb, hl']
  | cons q legacy ih =>
    have ih' := ih (by
        cases l
        · simp only [Bool.false_or, Bool.and_eq_true, List.any_cons, Bool.not_eq_true', Bool.or_eq_false_iff] at hw ⊢
          exact ⟨hw.1, hw.2.2⟩
        · rfl)
      (by
        cases legacy with
        | nil => simp
        | cons q2 legacy => simpa using hl)
    have hcons : (⟨q :: legacy, rex⟩ : Pfx).bytes ++ b :: bs = q.byte :: ((⟨legacy, rex⟩ : Pfx).bytes ++ b :: bs) := rfl
    rw [hcons, takePfx]
    cases hs : q.isStale with
    | false => rw [legacyOfByte_byte hs]; simp only [ih']
    | true =>
      cases q with
      | staleRex r =>
        have hlt : l = true := by
          cases l
          · simp [LegacyPfx.isStale] at hw
          · rfl
        have hnext : nextIsPrefix ((⟨legacy, rex⟩ : Pfx).bytes ++ b :: bs) = true := by
          cases legacy with
          | cons q2 legacy => exact isPrefixByte_byte q2
          | nil =>
            cases rex with
            | some x => exact isPrefixByte_rex x
            | none => simp [LegacyPfx.isStale] at hl
        subst hlt
        simp only [LegacyPfx.byte, Rex.legacyOfByte_byte, Rex.isRexByte_byte, Bool.and_self, hnext, if_true, ih',
          Rex.ofByte_byte]
      | opSize | addrSize | lock | seg _ => cases hs

/-- What the decoder takes off as prefixes encodes to the bytes it came from, and could stand before an opcode. -/
theorem bytes_takePfx (l : Bool) (bs : List Byte) :
    (takePfx l bs).1.bytes ++ (takePfx l bs).2 = bs ∧
    (l || ((takePfx l bs).1.rex.isNone && !(takePfx l bs).1.legacy.any LegacyPfx.isStale)) = true ∧
    (((takePfx l bs).1.rex.isSome || !((takePfx l bs).1.legacy.getLast?.any LegacyPfx.isStale)) = true ∨
      nextIsPrefix (takePfx l bs).2 = true) := by
  have hlast : ∀ (q : LegacyPfx) (p : Pfx) (rest : List Byte),
      ((p.rex.isSome || !(p.legacy.getLast?.any LegacyPfx.isStale)) = true ∨ nextIsPrefix rest = true) →
      (p.legacy = [] → p.rex.isSome = true ∨ q.isStale = false ∨ nextIsPrefix rest = true) →
      ((p.rex.isSome || !((q :: p.legacy).getLast?.any LegacyPfx.isStale)) = true ∨ nextIsPrefix rest = true) := by
    intro q p rest h hq
    cases hp : p.legacy with
    | nil => rcases hq hp with h | h | h <;> simp [h]
    | cons x xs => rw [hp] at h; simpa using h
  induction bs with
  | nil => simp [takePfx, Pfx.bytes]
  | cons b rest ih =>
    obtain ⟨h1, h2, h3⟩ := ih
    rw [takePfx]
    cases hl : legacyOfByte b with
    | some q =>
      obtain ⟨hb, hq⟩ := legacyOfByte_eq_some hl
      dsimp only
      refine ⟨?_, ?_, hlast q (takePfx l rest).1 _ h3 fun _ => .inr (.inl hq)⟩
      · have := congrArg (List.cons b) h1
        simpa [Pfx.bytes, hb] using this
      · cases l
        · simpa [hq] using h2
        · rfl
    | none =>
      simp only
      split
      · next hr =>
        obtain ⟨rfl, hr⟩ := Bool.and_eq_true_iff.1 hr
        split
        · next hn =>
          dsimp only
          refine ⟨?_, rfl, hlast _ (takePfx true rest).1 _ h3 fun he => ?_⟩
          · have := congrArg (List.cons b) h1
            simpa [Pfx.bytes, LegacyPfx.byte, Rex.byte_ofByte hr] using this
          · cases hx : (takePfx true rest).1.rex with
            | some x => exact .inl rfl
            | none =>
              have : (takePfx true rest).2 = rest := by
                have h1' := h1
                rw [Pfx.bytes, he, hx] at h1'
                simpa using h1'
              exact .inr (.inr (by rw [this]; exact hn))
        · exact ⟨by simp [Pfx.bytes, Rex.byte_ofByte hr], rfl, .inl rfl⟩
      · exact ⟨by simp [Pfx.bytes], by simp, .inl (by simp)⟩

/-! ### Little-endian fields -/

theorem append_extract {w : Nat} (v : BitVec w) (k m n : Nat) :
    v.extractLsb' (k + n) m ++ v.extractLsb' k n = v.extractLsb' k (m + n) := by
  apply BitVec.eq_of_getLsbD_eq
  intro i hi
  simp only [BitVec.getLsbD_append, BitVec.getLsbD_extractLsb', hi]
  by_cases h : i < n
  · simp [h]
  · simp [h, show i - n < m by omega, show k + n + (i - n) = k + i by omega]

theorem extract_append_low {m n : Nat} (a : BitVec m) (b : BitVec n) : (a ++ b).extractLsb' 0 n = b := by
  apply BitVec.eq_of_getLsbD_eq
  intro i hi
  simp [BitVec.getLsbD_append, hi]

theorem extract_append_high {m n j k : Nat} (a : BitVec m) (b : BitVec n) :
    (a ++ b).extractLsb' (n + j) k = a.extractLsb' j k := by
  apply BitVec.eq_of_getLsbD_eq
  intro i hi
  simp only [BitVec.getLsbD_append, BitVec.getLsbD_extractLsb', hi, show ¬ (n + j + i < n) by omega]
  simp [show n + j + i - n = j + i by omega]

theorem take8_cons (b : Byte) (r : List Byte) : take8 (b :: r) = .ok (b, r) := rfl

theorem take16_bytes (v : Half) (r : List Byte) : take16 (bytes16 v ++ r) = .ok (v, r) := by
  simp only [bytes16, List.cons_append, List.nil_append, take16]
  rw [append_extract v 0 8 8]
  congr 2
  exact BitVec.extractLsb'_eq_self

theorem take32_bytes (v : Dword) (r : List Byte) : take32 (bytes32 v ++ r) = .ok (v, r) := by
  simp only [bytes32, List.cons_append, List.nil_append, take32]
  rw [append_extract v 16 8 8, append_extract v 8 16 8, append_extract v 0 24 8]
  congr 2
  exact BitVec.extractLsb'_eq_self

theorem take64_bytes (v : Word) (r : List Byte) : take64 (bytes64 v ++ r) = .ok (v, r) := by
  simp only [bytes64, List.cons_append, List.nil_append, take64]
  rw [append_extract v 48 8 8, append_extract v 40 16 8, append_extract v 32 24 8, append_extract v 24 32 8,
    append_extract v 16 40 8, append_extract v 8 48 8, append_extract v 0 56 8]
  congr 2
  exact BitVec.extractLsb'_eq_self

theorem take16_eq_ok {bs r : List Byte} {v : Half} : take16 bs = .ok (v, r) ↔ bs = bytes16 v ++ r := by
  refine ⟨fun h => ?_, fun h => h ▸ take16_bytes v r⟩
  match bs, h with
  | b0 :: b1 :: bs, h =>
    simp only [take16, Except.ok.injEq, Prod.mk.injEq] at h
    obtain ⟨rfl, rfl⟩ := h
    simp only [bytes16, List.cons_append, List.nil_append, List.cons.injEq, and_true]
    exact ⟨(extract_append_low _ _).symm,
      by rw [extract_append_high (n := 8) (j := 0) b1 b0]; exact BitVec.extractLsb'_eq_self.symm⟩

theorem take32_eq_ok {bs r : List Byte} {v : Dword} : take32 bs = .ok (v, r) ↔ bs = bytes32 v ++ r := by
  refine ⟨fun h => ?_, fun h => h ▸ take32_bytes v r⟩
  match bs, h with
  | b0 :: b1 :: b2 :: b3 :: bs, h =>
    simp only [take32, Except.ok.injEq, Prod.mk.injEq] at h
    obtain ⟨rfl, rfl⟩ := h
    simp only [bytes32, List.cons_append, List.nil_append, List.cons.injEq, and_true]
    refine ⟨(extract_append_low _ _).symm, ?_, ?_, ?_⟩
    · rw [extract_append_high (n := 8) (j := 0), extract_append_low]
    · rw [extract_append_high (n := 8) (j := 8), extract_append_high (n := 8) (j := 0), extract_append_low]
    · rw [extract_append_high (n := 8) (j := 16), extract_append_high (n := 8) (j := 8),
        extract_append_high (n := 8) (j := 0)]
      exact BitVec.extractLsb'_eq_self.symm

theorem take64_eq_ok {bs r : List Byte} {v : Word} : take64 bs = .ok (v, r) ↔ bs = bytes64 v ++ r := by
  refine ⟨fun h => ?_, fun h => h ▸ take64_bytes v r⟩
  match bs, h with
  | b0 :: b1 :: b2 :: b3 :: b4 :: b5 :: b6 :: b7 :: bs, h =>
    simp only [take64, Except.ok.injEq, Prod.mk.injEq] at h
    obtain ⟨rfl, rfl⟩ := h
    simp only [bytes64, List.cons_append, List.nil_append, List.cons.injEq, and_true]
    refine ⟨(extract_append_low _ _).symm, ?_, ?_, ?_, ?_, ?_, ?_, ?_⟩
    · rw [extract_append_high (n := 8) (j := 0), extract_append_low]
    · rw [extract_append_high (n := 8) (j := 8), extract_append_high (n := 8) (j := 0), extract_append_low]
    · rw [extract_append_high (n := 8) (j := 16), extract_append_high (n := 8) (j := 8),
        extract_append_high (n := 8) (j := 0), extract_append_low]
    · rw [extract_append_high (n := 8) (j := 24), extract_append_high (n := 8) (j := 16),
        extract_append_high (n := 8) (j := 8), extract_append_high (n := 8) (j := 0), extract_append_low]
    · rw [extract_append_high (n := 8) (j := 32), extract_append_high (n := 8) (j := 24),
        extract_append_high (n := 8) (j := 16), extract_append_high (n := 8) (j := 8),
        extract_append_high (n := 8) (j := 0), extract_append_low]
    · rw [extract_append_high (n := 8) (j := 40), extract_append_high (n := 8) (j := 32),
        extract_append_high (n := 8) (j := 24), extract_append_high (n := 8) (j := 16),
        extract_append_high (n := 8) (j := 8), extract_append_high (n := 8) (j := 0), extract_append_low]
    · rw [extract_append_high (n := 8) (j := 48), extract_append_high (n := 8) (j := 40),
        extract_append_high (n := 8) (j := 32), extract_append_high (n := 8) (j := 24),
        extract_append_high (n := 8) (j := 16), extract_append_high (n := 8) (j := 8),
        extract_append_high (n := 8) (j := 0)]
      exact BitVec.extractLsb'_eq_self.symm

theorem take8_eq_ok {bs r : List Byte} {v : Byte} : take8 bs = .ok (v, r) ↔ bs = v :: r := by
  cases bs <;> simp [take8]

/-! ### ModR/M, SIB and displacement -/

@[simp] theorem modField_modrmByte (m : BitVec 2) (reg rm : BitVec 3) : modField (modrmByte m reg rm) = m := by
  revert m reg rm; decide

@[simp] theorem regField_modrmByte (m : BitVec 2) (reg rm : BitVec 3) : regField (modrmByte m reg rm) = reg := by
  revert m reg rm; decide

@[simp] theorem rmField_modrmByte (m : BitVec 2) (reg rm : BitVec 3) : rmField (modrmByte m reg rm) = rm := by
  revert m reg rm; decide

@[simp] theorem modrmByte_fields (b : Byte) : modrmByte (modField b) (regField b) (rmField b) = b := by
  revert b; decide

theorem exceptMap_eq_ok {ε α β : Type} {x : Except ε α} {f : α → β} {b : β} :
    x.map f = .ok b ↔ ∃ a, x = .ok a ∧ f a = b := by
  cases x <;> simp [Except.map]

theorem exceptBind_eq_ok {ε α β : Type} {x : Except ε α} {f : α → Except ε β} {b : β} :
    x.bind f = .ok b ↔ ∃ a, x = .ok a ∧ f a = .ok b := by
  cases x <;> simp [Except.bind]

theorem takeDisp16_eq_ok {m : BitVec 2} {bs r : List Byte} {d : Disp 16} (hm : m ≠ 3#2) :
    takeDisp16 m bs = .ok (d, r) ↔ m = dispMod d ∧ bs = disp16Bytes d ++ r := by
  have hcase : m = 0#2 ∨ m = 1#2 ∨ m = 2#2 := by revert m; decide
  unfold takeDisp16
  rcases hcase with rfl | rfl | rfl
  · cases d <;> simp [dispMod, disp16Bytes, eq_comm]
  · simp only [exceptMap_eq_ok, Prod.exists, take8_eq_ok, Prod.mk.injEq, if_true,
      show (1#2 = 0#2) = False by decide, if_false]
    cases d <;> simp [dispMod, disp16Bytes]
  · simp only [exceptMap_eq_ok, Prod.exists, take16_eq_ok, Prod.mk.injEq, if_false,
      show (2#2 = 0#2) = False by decide, show (2#2 = 1#2) = False by decide]
    cases d <;> simp [dispMod, disp16Bytes]

theorem takeDisp32_eq_ok {m : BitVec 2} {bs r : List Byte} {d : Disp 32} (hm : m ≠ 3#2) :
    takeDisp32 m bs = .ok (d, r) ↔ m = dispMod d ∧ bs = disp32Bytes d ++ r := by
  have hcase : m = 0#2 ∨ m = 1#2 ∨ m = 2#2 := by revert m; decide
  unfold takeDisp32
  rcases hcase with rfl | rfl | rfl
  · cases d <;> simp [dispMod, disp32Bytes, eq_comm]
  · simp only [exceptMap_eq_ok, Prod.exists, take8_eq_ok, Prod.mk.injEq, if_true,
      show (1#2 = 0#2) = False by decide, if_false]
    cases d <;> simp [dispMod, disp32Bytes]
  · simp only [exceptMap_eq_ok, Prod.exists, take32_eq_ok, Prod.mk.injEq, if_false,
      show (2#2 = 0#2) = False by decide, show (2#2 = 1#2) = False by decide]
    cases d <;> simp [dispMod, disp32Bytes]

theorem dispMod_ne_three {w : Nat} (d : Disp w) : dispMod d ≠ 3#2 := by cases d <;> simp [dispMod]

theorem dispMod_eq_zero {w : Nat} (d : Disp w) : dispMod d = 0#2 ↔ d.isNone = true := by
  cases d <;> simp [dispMod, Disp.isNone]

theorem sibIndex_wf {p : Pfx} {x : Option Gpr} (h : indexWf p x = true) : sibIndex p.rexX (indexField x) = x := by
  unfold sibIndex
  cases x with
  | none =>
    have : p.rexX = false := by simpa [indexWf] using h
    simp [indexField, this, Gpr.of_eq_rsp]
  | some g =>
    simp only [indexWf, Bool.and_eq_true, bne_iff_ne, beq_iff_eq] at h
    simp [indexField, ← h.2, h.1]

theorem indexWf_sibIndex (p : Pfx) (i : BitVec 3) :
    indexWf p (sibIndex p.rexX i) = true ∧ indexField (sibIndex p.rexX i) = i := by
  unfold sibIndex
  split
  · next h =>
    obtain ⟨hx, hi⟩ := (Gpr.of_eq_rsp _ _).1 h
    simp [indexWf, indexField, hx, hi]
  · next h =>
    have hne : (Gpr.of p.rexX i != .rsp) = true := by simpa using h
    simp [indexWf, indexField, Gpr.hi_of, Gpr.lo_of, hne]

theorem modrmByte_inj {m m' : BitVec 2} {reg reg' rm rm' : BitVec 3} :
    modrmByte m reg rm = modrmByte m' reg' rm' ↔ m = m' ∧ reg = reg' ∧ rm = rm' := by
  constructor
  · intro h
    have h1 := congrArg modField h
    have h2 := congrArg regField h
    have h3 := congrArg rmField h
    simp only [modField_modrmByte, regField_modrmByte, rmField_modrmByte] at h1 h2 h3
    exact ⟨h1, h2, h3⟩
  · rintro ⟨rfl, rfl, rfl⟩; rfl

theorem takeMem16_eq_ok {e : DecodeEnv} {p : Pfx} {m : BitVec 2} (reg : BitVec 3) {rm : BitVec 3} {bs r : List Byte}
    {o : MemOp} (hm : m ≠ 3#2) (ha : addrSize e p = .a16) :
    takeMem16 m rm bs = .ok (o, r) ↔ o.wf e p = true ∧ modrmByte m reg rm :: bs = memBytes reg o ++ r := by
  unfold takeMem16
  by_cases hc : m = 0#2 ∧ rm = 6#3
  · obtain ⟨rfl, rfl⟩ := hc
    simp only [and_self, if_true, exceptMap_eq_ok, Prod.exists, take16_eq_ok, Prod.mk.injEq]
    constructor
    · rintro ⟨v, r', rfl, rfl, rfl⟩
      simp [MemOp.wf, ha, memBytes]
    · rintro ⟨hw, hb⟩
      cases o with
      | abs16 d =>
        simp only [memBytes, List.cons_append, List.cons.injEq, true_and] at hb
        exact ⟨d, r, hb, rfl, rfl⟩
      | based16 b d =>
        simp only [memBytes, List.cons_append, List.cons.injEq, modrmByte_inj, true_and] at hb
        obtain ⟨⟨hd, hn⟩, _⟩ := hb
        have hbp : b = .bp := by rw [← Base16.ofNum_num b, ← hn]; rfl
        have hi := (dispMod_eq_zero d).1 hd.symm
        simp [MemOp.wf, hbp, hi] at hw
      | based | sib | sibNoBase | abs32 | rip => simp [MemOp.wf, ha] at hw
  · rw [if_neg hc]
    simp only [exceptMap_eq_ok, Prod.exists, takeDisp16_eq_ok hm, Prod.mk.injEq]
    constructor
    · rintro ⟨d, r', ⟨rfl, rfl⟩, rfl, rfl⟩
      refine ⟨?_, by simp [memBytes]⟩
      simp only [MemOp.wf, ha, beq_self_eq_true, Bool.true_and, Bool.not_eq_true', Bool.and_eq_false_iff]
      by_contra hn
      simp only [not_or, Bool.not_eq_false, beq_iff_eq, ← dispMod_eq_zero] at hn
      refine hc ⟨hn.2, ?_⟩
      rw [← Base16.num_ofNum rm, hn.1]
      rfl
    · rintro ⟨hw, hb⟩
      cases o with
      | abs16 d =>
        simp only [memBytes, List.cons_append, List.cons.injEq, modrmByte_inj, true_and] at hb
        exact absurd ⟨hb.1.1, hb.1.2⟩ hc
      | based16 b d =>
        simp only [memBytes, List.cons_append, List.cons.injEq, modrmByte_inj, true_and] at hb
        obtain ⟨⟨hd, hn⟩, hb⟩ := hb
        exact ⟨d, r, ⟨hd, hb⟩, by rw [hn, Base16.ofNum_num], rfl⟩
      | based | sib | sibNoBase | abs32 | rip => simp [MemOp.wf, ha] at hw

theorem takeSib_eq_ok {e : DecodeEnv} {p : Pfx} {m : BitVec 2} (reg : BitVec 3) {bs r : List Byte} {o : MemOp}
    (hm : m ≠ 3#2) (ha : addrSize e p ≠ .a16) :
    takeSib p m bs = .ok (o, r) ↔ o.wf e p = true ∧ modrmByte m reg 4#3 :: bs = memBytes reg o ++ r := by
  unfold takeSib
  simp only [exceptBind_eq_ok, Prod.exists, take8_eq_ok]
  constructor
  · rintro ⟨sb, r1, rfl, h⟩
    obtain ⟨hiw, hif⟩ := indexWf_sibIndex p (regField sb)
    split at h
    · next hc =>
      obtain ⟨h5, rfl⟩ := hc
      simp only [exceptMap_eq_ok, Prod.exists, take32_eq_ok, Prod.mk.injEq] at h
      obtain ⟨v, r', rfl, rfl, rfl⟩ := h
      refine ⟨by simp [MemOp.wf, ha, hiw], ?_⟩
      simp only [memBytes, hif, ← h5, modrmByte_fields, List.cons_append]
    · next hc =>
      simp only [exceptMap_eq_ok, Prod.exists, takeDisp32_eq_ok hm, Prod.mk.injEq] at h
      obtain ⟨d, r', ⟨rfl, rfl⟩, rfl, rfl⟩ := h
      refine ⟨?_, ?_⟩
      · simp only [MemOp.wf, bne_iff_ne, ne_eq, ha, not_false_eq_true, hiw, Gpr.hi_of, Gpr.lo_of, beq_self_eq_true,
          Bool.and_true, Bool.and_eq_true, true_and, Bool.not_eq_true', Bool.and_eq_false_iff]
        by_contra hn
        simp only [not_or, Bool.not_eq_false, beq_iff_eq, ← dispMod_eq_zero] at hn
        exact hc hn
      · simp only [memBytes, hif, Gpr.lo_of, modrmByte_fields, List.cons_append]
  · rintro ⟨hw, hb⟩
    cases o with
    | based16 b d => simp [MemOp.wf, ha] at hw
    | abs16 d => simp [MemOp.wf, ha] at hw
    | based g d =>
      simp only [memBytes, List.cons_append, List.cons.injEq, modrmByte_inj, true_and] at hb
      simp [MemOp.wf, ← hb.1.2] at hw
    | sib sc x g d =>
      simp only [memBytes, List.cons_append, List.cons.injEq, modrmByte_inj, and_true] at hb
      obtain ⟨rfl, rfl⟩ := hb
      simp only [MemOp.wf, Bool.and_eq_true, bne_iff_ne, beq_iff_eq, Bool.not_eq_true', Bool.and_eq_false_iff] at hw
      refine ⟨_, _, rfl, ?_⟩
      have hn : ¬ (g.lo = 5#3 ∧ dispMod d = 0#2) := by
        rintro ⟨h5, h0⟩
        rw [dispMod_eq_zero] at h0
        rcases hw.2 with h | h
        · simp [h5] at h
        · simp [h0] at h
      simp only [rmField_modrmByte, modField_modrmByte, regField_modrmByte, if_neg hn, exceptMap_eq_ok, Prod.exists,
        takeDisp32_eq_ok hm, Prod.mk.injEq, sibIndex_wf hw.1.1.2]
      exact ⟨d, r, ⟨rfl, rfl⟩, by rw [← hw.1.2, Gpr.of_hi_lo], rfl⟩
    | sibNoBase sc x d =>
      simp only [memBytes, List.cons_append, List.cons.injEq, modrmByte_inj, and_true] at hb
      obtain ⟨rfl, rfl⟩ := hb
      simp only [MemOp.wf, Bool.and_eq_true, bne_iff_ne] at hw
      refine ⟨_, _, rfl, ?_⟩
      simp only [rmField_modrmByte, modField_modrmByte, regField_modrmByte, and_self, if_true, exceptMap_eq_ok, Prod.exists,
        take32_eq_ok, Prod.mk.injEq, sibIndex_wf hw.2]
      exact ⟨d, r, rfl, rfl, rfl⟩
    | abs32 d =>
      simp only [memBytes, List.cons_append, List.cons.injEq, modrmByte_inj] at hb
      exact absurd hb.1.2.2 (by decide)
    | rip d =>
      simp only [memBytes, List.cons_append, List.cons.injEq, modrmByte_inj] at hb
      exact absurd hb.1.2.2 (by decide)

theorem takeMem32_eq_ok {e : DecodeEnv} {p : Pfx} {m : BitVec 2} (reg : BitVec 3) {rm : BitVec 3} {bs r : List Byte}
    {o : MemOp} (hm : m ≠ 3#2) (ha : addrSize e p ≠ .a16) :
    takeMem32 e p m rm bs = .ok (o, r) ↔ o.wf e p = true ∧ modrmByte m reg rm :: bs = memBytes reg o ++ r := by
  unfold takeMem32
  by_cases h4 : rm = 4#3
  · subst h4; rw [if_pos rfl]; exact takeSib_eq_ok reg hm ha
  rw [if_neg h4]
  by_cases hc : rm = 5#3 ∧ m = 0#2
  · obtain ⟨rfl, rfl⟩ := hc
    simp only [and_self, if_true, exceptMap_eq_ok, Prod.exists, take32_eq_ok, Prod.mk.injEq]
    constructor
    · rintro ⟨v, r', rfl, rfl, rfl⟩
      cases hl : e.long64 <;> simp [MemOp.wf, ha, hl, memBytes]
    · rintro ⟨hw, hb⟩
      cases o with
      | based16 b d => simp [MemOp.wf, ha] at hw
      | abs16 d => simp [MemOp.wf, ha] at hw
      | based g d =>
        simp only [memBytes, List.cons_append, List.cons.injEq, modrmByte_inj, true_and] at hb
        have hi := (dispMod_eq_zero d).1 hb.1.1.symm
        simp [MemOp.wf, ← hb.1.2, hi] at hw
      | sib sc x g d =>
        simp only [memBytes, List.cons_append, List.cons.injEq, modrmByte_inj] at hb
        exact absurd hb.1.2.2 (by decide)
      | sibNoBase sc x d =>
        simp only [memBytes, List.cons_append, List.cons.injEq, modrmByte_inj] at hb
        exact absurd hb.1.2.2 (by decide)
      | abs32 d =>
        simp only [memBytes, List.cons_append, List.cons.injEq, true_and] at hb
        simp only [MemOp.wf, Bool.and_eq_true, Bool.not_eq_true'] at hw
        exact ⟨d, r, hb, by simp [hw.2], rfl⟩
      | rip d =>
        simp only [memBytes, List.cons_append, List.cons.injEq, true_and] at hb
        simp only [MemOp.wf, Bool.and_eq_true] at hw
        exact ⟨d, r, hb, by simp [hw.2], rfl⟩
  · rw [if_neg hc]
    simp only [exceptMap_eq_ok, Prod.exists, takeDisp32_eq_ok hm, Prod.mk.injEq]
    constructor
    · rintro ⟨d, r', ⟨rfl, rfl⟩, rfl, rfl⟩
      refine ⟨?_, by simp [memBytes, Gpr.lo_of]⟩
      simp only [MemOp.wf, bne_iff_ne, ne_eq, ha, not_false_eq_true, h4, Gpr.hi_of, Gpr.lo_of, beq_self_eq_true,
        Bool.and_true, Bool.and_eq_true, true_and, Bool.not_eq_true', Bool.and_eq_false_iff]
      by_contra hn
      simp only [not_or, Bool.not_eq_false, beq_iff_eq, ← dispMod_eq_zero] at hn
      exact hc hn
    · rintro ⟨hw, hb⟩
      cases o with
      | based16 b d => simp [MemOp.wf, ha] at hw
      | abs16 d => simp [MemOp.wf, ha] at hw
      | based g d =>
        simp only [memBytes, List.cons_append, List.cons.injEq, modrmByte_inj, true_and] at hb
        simp only [MemOp.wf, Bool.and_eq_true, bne_iff_ne, beq_iff_eq] at hw
        exact ⟨d, r, ⟨hb.1.1, hb.2⟩, by rw [hb.1.2, ← hw.1.1.2, Gpr.of_hi_lo], rfl⟩
      | sib sc x g d =>
        simp only [memBytes, List.cons_append, List.cons.injEq, modrmByte_inj] at hb
        exact absurd hb.1.2.2 h4
      | sibNoBase sc x d =>
        simp only [memBytes, List.cons_append, List.cons.injEq, modrmByte_inj] at hb
        exact absurd hb.1.2.2 h4
      | abs32 d =>
        simp only [memBytes, List.cons_append, List.cons.injEq, modrmByte_inj] at hb
        exact absurd ⟨hb.1.2.2, hb.1.1⟩ hc
      | rip d =>
        simp only [memBytes, List.cons_append, List.cons.injEq, modrmByte_inj] at hb
        exact absurd ⟨hb.1.2.2, hb.1.1⟩ hc

/-- A memory operand and the bytes from its ModR/M byte on determine each other. -/
theorem takeMem_eq_ok {e : DecodeEnv} {p : Pfx} {m : BitVec 2} (reg : BitVec 3) {rm : BitVec 3} {bs r : List Byte}
    {o : MemOp} (hm : m ≠ 3#2) :
    takeMem e p m rm bs = .ok (o, r) ↔ o.wf e p = true ∧ modrmByte m reg rm :: bs = memBytes reg o ++ r := by
  unfold takeMem
  cases ha : addrSize e p with
  | a16 => exact takeMem16_eq_ok reg hm ha
  | a32 => exact takeMem32_eq_ok reg hm (by simp [ha])
  | a64 => exact takeMem32_eq_ok reg hm (by simp [ha])

/-- The mod field of a memory operand's ModR/M byte is not 3. -/
theorem memBytes_cons (reg : BitVec 3) (o : MemOp) :
    ∃ m rm tl, m ≠ 3#2 ∧ memBytes reg o = modrmByte m reg rm :: tl := by
  cases o with
  | based16 b d => exact ⟨_, _, _, dispMod_ne_three d, rfl⟩
  | abs16 d => exact ⟨_, _, _, by decide, rfl⟩
  | based g d => exact ⟨_, _, _, dispMod_ne_three d, rfl⟩
  | sib sc x g d => exact ⟨_, _, _, dispMod_ne_three d, rfl⟩
  | sibNoBase sc x d => exact ⟨_, _, _, by decide, rfl⟩
  | abs32 d => exact ⟨_, _, _, by decide, rfl⟩
  | rip d => exact ⟨_, _, _, by decide, rfl⟩

/-- An r/m operand under a reg field and its bytes determine each other (30_encoding.md R115 to R122). -/
theorem takeModRm_eq_ok {e : DecodeEnv} {p : Pfx} {bs r : List Byte} {reg : BitVec 3} {rm : RmOp} :
    takeModRm e p bs = .ok (reg, rm, r) ↔ rm.wf e p = true ∧ bs = rmBytes reg rm ++ r := by
  unfold takeModRm
  simp only [exceptBind_eq_ok, Prod.exists, take8_eq_ok]
  constructor
  · rintro ⟨b, r1, rfl, h⟩
    split at h
    · next h3 =>
      simp only [Except.ok.injEq, Prod.mk.injEq] at h
      obtain ⟨rfl, rfl, rfl⟩ := h
      refine ⟨by simp [RmOp.wf, Gpr.hi_of], ?_⟩
      simp only [rmBytes, Gpr.lo_of, ← h3, modrmByte_fields, List.cons_append, List.nil_append]
    · next h3 =>
      simp only [exceptMap_eq_ok, Prod.exists, Prod.mk.injEq] at h
      obtain ⟨o, r', ho, rfl, rfl, rfl⟩ := h
      have := (takeMem_eq_ok (regField b) h3).1 ho
      rw [modrmByte_fields] at this
      exact this
  · rintro ⟨hw, rfl⟩
    cases rm with
    | reg g =>
      refine ⟨_, _, rfl, ?_⟩
      have hg : g.hi = p.rexB := by simpa [RmOp.wf] using hw
      simp [← hg]
    | mem o =>
      obtain ⟨m, f, tl, hm, hb⟩ := memBytes_cons reg o
      refine ⟨modrmByte m reg f, tl ++ r, by simp [rmBytes, hb], ?_⟩
      rw [modField_modrmByte, if_neg hm, rmField_modrmByte, regField_modrmByte]
      simp only [exceptMap_eq_ok, Prod.exists, Prod.mk.injEq, true_and]
      exact ⟨o, r, (takeMem_eq_ok reg hm).2 ⟨hw, by rw [hb, List.cons_append]⟩, rfl, rfl⟩

/-- The ModR/M byte of rows 0F 20 to 0F 23. -/
theorem takeRegRm_eq_ok {p : Pfx} {bs r : List Byte} {m : BitVec 2} {reg : BitVec 3} {g : Gpr} :
    takeRegRm p bs = .ok (m, reg, g, r) ↔ g.hi = p.rexB ∧ bs = modrmByte m reg g.lo :: r := by
  unfold takeRegRm
  simp only [exceptMap_eq_ok, Prod.exists, take8_eq_ok, Prod.mk.injEq]
  constructor
  · rintro ⟨b, r1, rfl, rfl, rfl, rfl, rfl⟩
    exact ⟨Gpr.hi_of _ _, by rw [Gpr.lo_of, modrmByte_fields]⟩
  · rintro ⟨hg, rfl⟩
    exact ⟨_, _, rfl, by simp, by simp, by simp [← hg], rfl⟩

/-- A moffs offset and its bytes determine each other (30_encoding.md R127). -/
theorem takeMoffs_eq_ok {e : DecodeEnv} {p : Pfx} {bs r : List Byte} {o : Moffs} :
    takeMoffs e p bs = .ok (o, r) ↔ o.wf e p = true ∧ bs = moffsBytes o ++ r := by
  unfold takeMoffs
  cases ha : addrSize e p with
  | a16 =>
    simp only [exceptMap_eq_ok, Prod.exists, take16_eq_ok, Prod.mk.injEq]
    cases o <;> simp [Moffs.wf, moffsBytes, ha]
  | a32 =>
    simp only [exceptMap_eq_ok, Prod.exists, take32_eq_ok, Prod.mk.injEq]
    cases o <;> simp [Moffs.wf, moffsBytes, ha]
  | a64 =>
    simp only [exceptMap_eq_ok, Prod.exists, take64_eq_ok, Prod.mk.injEq]
    cases o <;> simp [Moffs.wf, moffsBytes, ha]

end Sys2Proof
end

