-- ==== Sys2Proof/Laws/Loads.lean ====
section
/-! SUPPORT. Once for each shared operation of the segment-register rows, what it can do (41_mov_sreg.md). -/

namespace Sys2Proof.Machine

/-! ### Selectors -/

theorem selNull_iff (sel : Half) : selNull sel = true ↔ sel.toNat ≤ 3 := by
  have h : (sel.extractLsb' 2 14).toNat = sel.toNat / 4 := by
    rw [BitVec.extractLsb'_toNat, Nat.shiftRight_eq_div_pow]
    have := sel.isLt
    omega
  unfold selNull
  rw [beq_iff_eq, ← BitVec.toNat_inj, h]
  simp only [BitVec.toNat_ofNat]
  omega

theorem selIndex_eq (sel : Half) : selIndex sel = sel.toNat / 8 := by
  unfold selIndex
  rw [BitVec.extractLsb'_toNat, Nat.shiftRight_eq_div_pow]
  have := sel.isLt
  omega

theorem selCode_eq (sel : Half) : selCode sel = .code (sel.toNat - sel.toNat % 4) := by
  have hs : sel &&& 0xFFFC#16 = sel - BitVec.ofNat 16 (sel.toNat % 4) := by
    have h2 : ∀ x : Half, x &&& 0xFFFC#16 = (x >>> 2) <<< 2 := by
      intro x
      apply BitVec.eq_of_getLsbD_eq
      intro i hi
      have hc : ∀ j, j < 16 → (0xFFFC#16).getLsbD j = decide (2 ≤ j) := by decide
      rw [BitVec.getLsbD_and, hc i hi]
      by_cases h : 2 ≤ i
      · simp [h, show ¬ (i < 2) by omega, hi]
      · simp [h, show i < 2 by omega]
    rw [h2]
    apply BitVec.eq_of_toNat_eq
    have := sel.isLt
    simp only [BitVec.toNat_shiftLeft, BitVec.toNat_ushiftRight, BitVec.toNat_sub, BitVec.toNat_ofNat,
      Nat.shiftLeft_eq, Nat.shiftRight_eq_div_pow]
    omega
  unfold selCode
  rw [hs]
  congr 1
  have := sel.isLt
  simp only [BitVec.toNat_sub, BitVec.toNat_ofNat]
  omega

theorem sregOf_eq_ok {s : State} {f : SregField} {r : Sreg} : s.sregOf f = .ok r ↔ f = .reg r := by
  cases f <;> simp [State.sregOf, raise]

/-! ### The descriptor -/

/-- A descriptor that is found lies at eight physical addresses, which exist. -/
theorem descLookup_found {s : State} {sel : Half} {d : Word} {pas : List Nat}
    (h : s.descLookup sel = .ok (.found d pas)) : pas.length = 8 ∧ ∀ a ∈ pas, s.owns a = true := by
  unfold State.descLookup at h
  split at h
  · cases h
  · split at h
    · cases h
    · split at h
      · cases h
      · split at h
        · cases h
        · next ht =>
          obtain ⟨_, ho, h⟩ := bind_eq_ok.1 h
          obtain ⟨_, _, h⟩ := map_eq_ok.1 h
          cases h
          exact ⟨by simpa [State.descBytes] using translate_length ht, checkOwned_eq_ok.1 ho⟩

/-! ### The checked load -/

theorem ssNullAllowed_iff {s : State} {sel : Half} :
    s.ssNullAllowed sel = true ↔ s.mode = .long64 ∧ s.cpl ≠ 3#2 ∧ selRpl sel = s.cpl := by
  simp [State.ssNullAllowed, State.long64, and_assoc]

theorem ssDescBad_iff {s : State} {sel : Half} {d : SegAttr} :
    ssDescBad s sel d = true ↔ StackDescriptorBad s sel d := by
  unfold ssDescBad StackDescriptorBad
  simp only [Bool.or_eq_true, bne_iff_ne, Bool.not_eq_true', ← Bool.not_eq_true, Bool.and_eq_true]
  tauto

theorem dataDescBad_iff {s : State} {sel : Half} {d : SegAttr} :
    dataDescBad s sel d = true ↔ DataDescriptorBad s sel d := by
  unfold dataDescBad DataDescriptorBad
  simp only [Bool.or_eq_true, Bool.and_eq_true, Bool.not_eq_true', decide_eq_true_eq, ← Bool.not_eq_true, gt_iff_lt]

/-- What a load from a descriptor can do. -/
theorem loadDescriptor_eq_ok {s t : State} {r : Sreg} {sel : Half} :
    s.loadDescriptor r sel = .ok t ↔
      ∃ d pas, s.descLookup sel = .ok (.found d pas) ∧ (descAttr d).present = true ∧
        (r = .ss → ¬ StackDescriptorBad s sel (descAttr d)) ∧
        (r ≠ .ss → ¬ DataDescriptorBad s sel (descAttr d)) ∧ t = s.loadedDesc r sel d pas := by
  unfold State.loadDescriptor
  rw [bind_eq_ok]
  simp only [← ssDescBad_iff, ← dataDescBad_iff]
  constructor
  · rintro ⟨a, ha, h⟩
    cases a with
    | outsideLimit => simp [raise] at h
    | nonCanonical => simp [raise] at h
    | pageFault code => simp [raise] at h
    | found d pas =>
      refine ⟨d, pas, ha, ?_⟩
      simp only at h
      split at h
      · next hr =>
        have hr' : r = .ss := by simpa using hr
        split at h
        · simp [raise] at h
        · next hb =>
          split at h
          · simp [raise] at h
          · next hp =>
            cases h
            exact ⟨by simpa using hp, fun _ => hb, fun hn => absurd hr' hn, rfl⟩
      · next hr =>
        have hr' : r ≠ .ss := by simpa using hr
        split at h
        · simp [raise] at h
        · next hb =>
          split at h
          · simp [raise] at h
          · next hp =>
            cases h
            exact ⟨by simpa using hp, fun hn => absurd hn hr', fun _ => hb, rfl⟩
  · rintro ⟨d, pas, ha, hp, hs, hd, rfl⟩
    refine ⟨_, ha, ?_⟩
    by_cases hr : r = .ss
    · simp [hr, hs hr, hp]
    · simp [hr, hd hr, hp]

/-- What a load can do, in every mode (R210 to R216). -/
theorem loadSreg_eq_ok {s t : State} {r : Sreg} {sel : Half} :
    s.loadSreg r sel = .ok t ↔
      (s.mode = .real ∧ t = s.loadedReal r sel) ∨ (s.mode = .v86 ∧ t = s.loadedV86 r sel) ∨
      (CheckedMode s ∧ selNull sel = true ∧ (r = .ss → s.ssNullAllowed sel = true) ∧ t = s.loadedNull r sel) ∨
      (CheckedMode s ∧ selNull sel = false ∧ s.loadDescriptor r sel = .ok t) := by
  unfold State.loadSreg CheckedMode
  cases hm : s.mode with
  | real => simp [@eq_comm _ t]
  | v86 => simp [@eq_comm _ t]
  | prot | compat | long64 =>
    cases hn : selNull sel with
    | false => simp
    | true =>
      simp only [if_true, reduceCtorEq, false_and, true_and, false_or, or_false, or_true]
      split
      · next h =>
        simp only [Bool.and_eq_true, beq_iff_eq, Bool.not_eq_true'] at h
        simp [raise, h.1, h.2]
      · next h =>
        simp only [Bool.and_eq_true, beq_iff_eq, Bool.not_eq_true', not_and, Bool.not_eq_false] at h
        simp only [Except.ok.injEq, @eq_comm _ t]
        exact ⟨fun ht => ⟨h, ht⟩, fun ht => ht.2⟩

/-- The selector a load takes is what its source operand gives. -/
theorem readSelector_eq_ok {s : State} {p : Pfx} {len n : Nat} {rm : RmOp} {sel : Half} (hn : n ≤ 8) (h2 : 2 ≤ n) :
    s.readSelector p len n rm = .ok sel ↔ SelectorIs s p len n rm sel := by
  cases rm with
  | reg g => simp [State.readSelector, SelectorIs, eq_comm]
  | mem m =>
    simp only [State.readSelector, SelectorIs, map_eq_ok]
    constructor
    · rintro ⟨v, hv, rfl⟩
      obtain ⟨pas, bs, hp, hb, rfl⟩ := logRead_eq_ok.1 hv
      exact ⟨pas, _, hp, bytesAre_of_readBytes (physBytes_length hp) hn hb, rfl⟩
    · rintro ⟨pas, v, hp, hv, rfl⟩
      refine ⟨_, logRead_of_bytesAre hp hv, ?_⟩
      apply BitVec.eq_of_getLsbD_eq
      intro i hi
      simp only [BitVec.getLsbD_extractLsb', hi, decide_true, Bool.true_and, Nat.zero_add]
      exact ofNat_mod_getLsbD v (by omega) hn

theorem sregLoadWidth_le (s : State) : 2 ≤ s.sregLoadWidth ∧ s.sregLoadWidth ≤ 8 := by
  unfold State.sregLoadWidth; split <;> omega

/-- What opcode 8E can do (R205 to R209). -/
theorem loadSelector_eq_ok {s t : State} {p : Pfx} {len n : Nat} {f : SregField} {rm : RmOp} (hn : n ≤ 8) (h2 : 2 ≤ n) :
    s.loadSelector p len n f rm = .ok t ↔
      ∃ r sel, f = .reg r ∧ r ≠ .cs ∧ SelectorIs s p len n rm sel ∧ s.loadSreg r sel = .ok t := by
  unfold State.loadSelector
  simp only [bind_eq_ok, sregOf_eq_ok]
  constructor
  · rintro ⟨r, rfl, h⟩
    split at h
    · simp [raise] at h
    · next hr =>
      obtain ⟨sel, hs, hl⟩ := bind_eq_ok.1 h
      exact ⟨r, sel, rfl, by simpa using hr, (readSelector_eq_ok hn h2).1 hs, hl⟩
  · rintro ⟨r, sel, rfl, hr, hs, hl⟩
    exact ⟨r, rfl, by simp [hr, (readSelector_eq_ok hn h2).2 hs, hl]⟩

/-- What opcode 8C can do (R201 to R204, R209). -/
theorem storeSelector_eq_ok {s t : State} {p : Pfx} {len : Nat} {rm : RmOp} {f : SregField} {k : Gpr → Half → State} :
    s.storeSelector p len rm f k = .ok t ↔
      ∃ r, f = .reg r ∧
        ((∃ g, rm = .reg g ∧ t = k g (s.seg.get r).sel) ∨
         (∃ m pas, rm = .mem m ∧ s.physBytes (s.memSeg p m) (s.effAddr p len m) 2 .write = .ok pas ∧
           t = s.store pas (leBytes 2 ((s.seg.get r).sel.setWidth 64 : Word).toNat))) := by
  unfold State.storeSelector
  simp only [bind_eq_ok, sregOf_eq_ok]
  cases rm with
  | reg g => simp [@eq_comm _ t]
  | mem m => simp [logWrite_eq_ok]

/-! ### The Accessed bit -/

theorem setAccessed_accessedSet (s : State) (d : Word) (pas : List Nat) : AccessedSet s (s.setAccessed d pas) d pas := by
  unfold AccessedSet State.setAccessed
  cases d.getLsbD 40 with
  | true => exact ⟨fun _ => ⟨fun _ => rfl, rfl⟩, by simp⟩
  | false =>
    refine ⟨by simp, fun _ => ⟨?_, fun a ha => ?_⟩⟩
    · simp [memSetAll, memGet_memSet_same]
    · simp only [Bool.false_eq_true, if_false, State.store_mem, memSetAll]
      exact memGet_memSet_other _ _ ha

end Sys2Proof.Machine
end

