-- ==== Sys2Proof/Laws/Exec.lean ====
section
/-! SUPPORT. Everything an instruction that completes can have done, said once over all 45 rows. -/

namespace Sys2Proof.Machine

/-! ### What an encoding outside LONG64 mode cannot name -/

/-- Outside LONG64 mode there is no REX prefix, so no bit of one (30_encoding.md R113). -/
theorem Pfx.no_rex {e : DecodeEnv} {p : Pfx} (hw : p.wf e = true) (hl : e.long64 = false) :
    p.rexR = false ∧ p.rexB = false ∧ p.rexW = false ∧ p.rex = none := by
  simp only [Pfx.wf, hl, Bool.false_or, Bool.and_eq_true, Option.isNone_iff_eq_none] at hw
  simp [Pfx.rexR, Pfx.rexB, Pfx.rexW, hw.1.1]

/-- Outside LONG64 mode no operand has 64 bits (30_encoding.md R123). -/
theorem opSize_ne_o64 {e : DecodeEnv} (p : Pfx) (hl : e.long64 = false) : opSize e p ≠ .o64 := by
  unfold opSize
  rw [hl]
  simp only [Bool.false_eq_true, if_false]
  split <;> simp

/-- Outside LONG64 mode the instruction has no operand of 64 bits and does not name registers 8 to 15 in the place of `r`
(30_encoding.md R113, R123). -/
def Narrow (i : Instr) (w : Width) (r : Gpr) : Prop :=
  ∀ e, i.wf e = true → e.long64 = false → w ≠ .b64 ∧ r.hi = false

/-- What `Narrow` asks of a row: prefixes without REX, and the row's own condition. -/
theorem Narrow.of {i : Instr} {w : Width} {r : Gpr}
    (h : ∀ e, e.long64 = false → (instrPfx i).rexR = false → (instrPfx i).rexB = false →
      opSize e (instrPfx i) ≠ .o64 → i.rowWf e = true → w ≠ .b64 ∧ r.hi = false) : Narrow i w r := by
  intro e hw hl
  simp only [Instr.wf, Bool.and_eq_true] at hw
  obtain ⟨hR, hB, -, -⟩ := Pfx.no_rex hw.1.1 hl
  exact h e hl hR hB (opSize_ne_o64 _ hl) hw.1.2

/-! ### Effects -/

/-- What an instruction did before `pc` advanced, where it completed. -/
inductive Effect (i : Instr) (s : State) : State → Prop where
  /-- Rows 1 to 13 and 16 to 35: a general register was written. -/
  | wroteReg (w : Width) (x : Bool) (r : Gpr) (v : Word) (n : Nat) (hm : movesSystem i = false)
      (hl : ∀ q, sregLoaded i ≠ some (.reg q)) (hn : Narrow i w r) :
      Effect i s { s.writeReg w x r v with draws := n }
  /-- Rows 1 to 5, 11 to 13, 21 to 25 and 31 to 35: bytes of memory were written. -/
  | stored (d : DataAccess) (pas : List Nat) (v : Nat) (hm : movesSystem i = false)
      (hl : ∀ q, sregLoaded i ≠ some (.reg q)) (hd : dataAccess i s = some d) (ha : d.acc = .write)
      (hp : s.physBytes d.seg d.off d.n d.acc = .ok pas) : Effect i s (s.store pas (leBytes d.n v))
  /-- Rows 14 and 15: a segment register was loaded. -/
  | loaded (r : Sreg) (sel : Half) (u : State) (hm : movesSystem i = false) (hs : sregLoaded i = some (.reg r))
      (hr : r ≠ .cs) (hl : LoadOf i s r sel) (hu : s.loadSreg r sel = .ok u) : Effect i s u
  /-- Rows 36 to 38, 42 and 43: a control or debug register was read. -/
  | readSystem (w : Width) (g : Gpr) (v : Word) (hm : movesSystem i = true) (hp : MayMoveSystem s) (hn : Narrow i w g) :
      Effect i s (s.writeReg w false g v).undefineFlags
  /-- Rows 39 to 41: a control register was written. -/
  | wroteCr (w : Width) (g : Gpr) (r : CrReg) (u : State) (hm : movesSystem i = true) (hp : MayMoveSystem s)
      (hc : r ≠ .cr8 → ∃ c, crOfNum c = some r ∧ CrWriteOf i s c (s.readReg w false g))
      (hn : Narrow i w g) (h8 : r = .cr8 → ∀ e, i.wf e = true → e.long64 = true)
      (hu : s.writeCrReg r (s.readReg w false g) = .ok u) : Effect i s u.undefineFlags
  /-- Rows 44 and 45: a debug register was written. -/
  | wroteDr (w : Width) (g : Gpr) (p : Pfx) (d : DrNum) (hm : movesSystem i = true) (hp : DrAllowed s p d)
      (hw : DrWriteOf i s p d (s.readReg w false g)) (hr : s.drRefused (drIndex d) (s.readReg w false g) = false)
      (hn : Narrow i w g) :
      Effect i s
        ({ s with dr := s.dr.set (drIndex d) (drStored s.params (drIndex d) (s.readReg w false g)) } : State).undefineFlags

theorem Effect.ofWriteReg {i : Instr} {s : State} (w : Width) (x : Bool) (r : Gpr) (v : Word)
    (hm : movesSystem i = false) (hl : ∀ q, sregLoaded i ≠ some (.reg q)) (hn : Narrow i w r) :
    Effect i s (s.writeReg w x r v) :=
  .wroteReg w x r v (s.writeReg w x r v).draws hm hl hn

/-- The rows that write an r/m operand. -/
theorem Effect.ofWriteRm {i : Instr} {s u : State} {p : Pfx} {len : Nat} {w : Width} {x : Bool} {rm : RmOp} {v : Word}
    (h : s.writeRm p len w x rm v = .ok u) (hm : movesSystem i = false) (hl : ∀ q, sregLoaded i ≠ some (.reg q))
    (hn : ∀ r, rm = .reg r → Narrow i w r) (hd : dataAccess i s = rmAccess s p len w.bytes .write rm) : Effect i s u := by
  obtain ⟨r, rfl, rfl⟩ | ⟨m, pas, rfl, hp, rfl⟩ := writeRm_eq_ok.1 h
  · exact .ofWriteReg w x r v hm hl (hn r rfl)
  · exact .stored _ pas v.toNat hm hl hd rfl hp

/-- The rows that load a register from an r/m operand. -/
theorem Effect.ofLoadRm {i : Instr} {s u : State} {p : Pfx} {len : Nat} {w : Width} {x : Bool} {g : Gpr} {rm : RmOp}
    (h : s.loadRm p len w x g rm = .ok u) (hm : movesSystem i = false) (hl : ∀ q, sregLoaded i ≠ some (.reg q))
    (hn : Narrow i w g) : Effect i s u := by
  obtain ⟨v, -, rfl⟩ := loadRm_eq_ok.1 h
  exact .ofWriteReg w x g v hm hl hn

theorem Effect.ofLoadMoffs {i : Instr} {s u : State} {p : Pfx} {w : Width} {o : Moffs}
    (h : s.loadMoffs p w o = .ok u) (hm : movesSystem i = false) (hl : ∀ q, sregLoaded i ≠ some (.reg q))
    (hn : Narrow i w .rax) : Effect i s u := by
  obtain ⟨v, -, rfl⟩ := loadMoffs_eq_ok.1 h
  exact .ofWriteReg w p.hasRex .rax v hm hl hn

theorem Effect.ofStoreMoffs {i : Instr} {s u : State} {p : Pfx} {w : Width} {o : Moffs}
    (h : s.storeMoffs p w o = .ok u) (hm : movesSystem i = false) (hl : ∀ q, sregLoaded i ≠ some (.reg q))
    (hd : dataAccess i s = moffsAccess s p w.bytes .write o) : Effect i s u := by
  obtain ⟨pas, hp, rfl⟩ := storeMoffs_eq_ok.1 h
  exact .stored _ pas _ hm hl hd rfl hp

/-- The rows that store a selector. -/
theorem Effect.ofStoreSelector {i : Instr} {s u : State} {p : Pfx} {len : Nat} {rm : RmOp} {f : SregField}
    {k : Gpr → Half → State} (h : s.storeSelector p len rm f k = .ok u) (hm : movesSystem i = false)
    (hl : ∀ q, sregLoaded i ≠ some (.reg q)) (hk : ∀ g sel, rm = .reg g → Effect i s (k g sel))
    (hd : dataAccess i s = if namesSreg f then rmAccess s p len 2 .write rm else none) : Effect i s u := by
  obtain ⟨r, rfl, ⟨g, rfl, rfl⟩ | ⟨m, pas, rfl, hp, rfl⟩⟩ := storeSelector_eq_ok.1 h
  · exact hk _ _ rfl
  · exact .stored _ pas _ hm hl hd rfl hp

/-- The rows that read a control register. -/
theorem Effect.ofReadCr {i : Instr} {s u : State} {w : Width} {g : Gpr} {c : Option CrReg}
    (h : s.readCr w g c = .ok u) (hm : movesSystem i = true) (hn : Narrow i w g) : Effect i s u := by
  obtain ⟨r, -, -, hp, rfl⟩ := readCr_eq_ok.1 h
  exact .readSystem w g _ hm hp hn

/-- An instruction that completes had no LOCK prefix, did one of these, and advanced `pc` by its length. -/
theorem exec_effect {i : Instr} {s t : State} (h : exec i s = .next t) :
    (instrPfx i).locked = false ∧ ∃ u, Effect i s u ∧ t = u.advance (instrLength i) := by
  cases i with
  | movRm8R8 p rm g | movRm8R8Rex p rm g | movRm16R16 p rm g | movRm32R32 p rm g | movRm64R64 p rm g =>
    obtain ⟨hp, u, hu, rfl⟩ := complete_eq_next.1 h
    exact ⟨hp, u, .ofWriteRm hu rfl (fun _ hq => nomatch hq)
      (fun r hr' => .of fun e hl hR hB ho hr => by simp_all [Instr.rowWf, RmOp.wf, instrPfx]) rfl, rfl⟩
  | movR8Rm8 p g rm | movR8Rm8Rex p g rm | movR16Rm16 p g rm | movR32Rm32 p g rm | movR64Rm64 p g rm =>
    obtain ⟨hp, u, hu, rfl⟩ := complete_eq_next.1 h
    exact ⟨hp, u, .ofLoadRm hu rfl (fun _ hq => nomatch hq)
      (.of fun e hl hR hB ho hr => by simp_all [Instr.rowWf, RmOp.wf, instrPfx]), rfl⟩
  | movRm16Sreg p rm f =>
    obtain ⟨hp, u, hu, rfl⟩ := complete_eq_next.1 h
    exact ⟨hp, u, .ofStoreSelector hu rfl (fun _ hq => nomatch hq)
      (fun g sel hg => .ofWriteReg _ _ _ _ rfl (fun _ hq => nomatch hq)
        (.of fun e hl hR hB ho hr => by simp_all [Instr.rowWf, RmOp.wf, instrPfx])) rfl, rfl⟩
  | movR32M16Sreg p rm f =>
    obtain ⟨hp, u, hu, rfl⟩ := complete_eq_next.1 h
    exact ⟨hp, u, .ofStoreSelector hu rfl (fun _ hq => nomatch hq)
      (fun g sel hg => .wroteReg _ _ _ _ _ rfl (fun _ hq => nomatch hq)
        (.of fun e hl hR hB ho hr => by simp_all [Instr.rowWf, RmOp.wf, instrPfx])) rfl, rfl⟩
  | movR64M16Sreg p rm f =>
    obtain ⟨hp, u, hu, rfl⟩ := complete_eq_next.1 h
    exact ⟨hp, u, .ofStoreSelector hu rfl (fun _ hq => nomatch hq)
      (fun g sel hg => .ofWriteReg _ _ _ _ rfl (fun _ hq => nomatch hq)
        (.of fun e hl hR hB ho hr => by simp_all [Instr.rowWf, RmOp.wf, instrPfx])) rfl, rfl⟩
  | movSregRm16 p f rm =>
    obtain ⟨hp, u, hu, rfl⟩ := complete_eq_next.1 h
    obtain ⟨r, sel, rfl, hr, hs, hl⟩ := (loadSelector_eq_ok (by decide) (by decide)).1 hu
    exact ⟨hp, u, .loaded r sel u rfl rfl hr ⟨p, rm, hp, .inl ⟨rfl, hs⟩⟩ hl, rfl⟩
  | movSregRm64 p f rm =>
    obtain ⟨hp, u, hu, rfl⟩ := complete_eq_next.1 h
    obtain ⟨r, sel, rfl, hr, hs, hl⟩ :=
      (loadSelector_eq_ok (sregLoadWidth_le s).2 (sregLoadWidth_le s).1).1 hu
    exact ⟨hp, u, .loaded r sel u rfl rfl hr ⟨p, rm, hp, .inr ⟨rfl, hs⟩⟩ hl, rfl⟩
  | movAlMoffs8 p o | movAlMoffs8RexW p o | movAxMoffs16 p o | movEaxMoffs32 p o | movRaxMoffs64 p o =>
    obtain ⟨hp, u, hu, rfl⟩ := complete_eq_next.1 h
    exact ⟨hp, u, .ofLoadMoffs hu rfl (fun _ hq => nomatch hq)
      (.of fun e hl hR hB ho hr => by simp_all [Instr.rowWf, instrPfx, show Gpr.rax.hi = false from rfl]), rfl⟩
  | movMoffs8Al p o | movMoffs8AlRexW p o | movMoffs16Ax p o | movMoffs32Eax p o | movMoffs64Rax p o =>
    obtain ⟨hp, u, hu, rfl⟩ := complete_eq_next.1 h
    exact ⟨hp, u, .ofStoreMoffs hu rfl (fun _ hq => nomatch hq) rfl, rfl⟩
  | movR8Imm8 p g b =>
    rw [exec, execMovR8Imm8, complete_eq_next] at h
    obtain ⟨hp, u, hu, rfl⟩ := h
    exact ⟨hp, u, Except.ok.inj hu ▸ .ofWriteReg _ _ _ _ rfl (fun _ hq => nomatch hq)
      (.of fun e hl hR hB ho hr => by simp_all [Instr.rowWf, instrPfx]), rfl⟩
  | movR8Imm8Rex p g b =>
    rw [exec, execMovR8Imm8Rex, complete_eq_next] at h
    obtain ⟨hp, u, hu, rfl⟩ := h
    exact ⟨hp, u, Except.ok.inj hu ▸ .ofWriteReg _ _ _ _ rfl (fun _ hq => nomatch hq)
      (.of fun e hl hR hB ho hr => by simp_all [Instr.rowWf, instrPfx]), rfl⟩
  | movR16Imm16 p g b =>
    rw [exec, execMovR16Imm16, complete_eq_next] at h
    obtain ⟨hp, u, hu, rfl⟩ := h
    exact ⟨hp, u, Except.ok.inj hu ▸ .ofWriteReg _ _ _ _ rfl (fun _ hq => nomatch hq)
      (.of fun e hl hR hB ho hr => by simp_all [Instr.rowWf, instrPfx]), rfl⟩
  | movR32Imm32 p g b =>
    rw [exec, execMovR32Imm32, complete_eq_next] at h
    obtain ⟨hp, u, hu, rfl⟩ := h
    exact ⟨hp, u, Except.ok.inj hu ▸ .ofWriteReg _ _ _ _ rfl (fun _ hq => nomatch hq)
      (.of fun e hl hR hB ho hr => by simp_all [Instr.rowWf, instrPfx]), rfl⟩
  | movR64Imm64 p g b =>
    rw [exec, execMovR64Imm64, complete_eq_next] at h
    obtain ⟨hp, u, hu, rfl⟩ := h
    exact ⟨hp, u, Except.ok.inj hu ▸ .ofWriteReg _ _ _ _ rfl (fun _ hq => nomatch hq)
      (.of fun e hl hR hB ho hr => by simp_all [Instr.rowWf, instrPfx]), rfl⟩
  | movRm8Imm8 p rm b | movRm8Imm8Rex p rm b | movRm16Imm16 p rm b | movRm32Imm32 p rm b | movRm64Imm32 p rm b =>
    obtain ⟨hp, u, hu, rfl⟩ := complete_eq_next.1 h
    exact ⟨hp, u, .ofWriteRm hu rfl (fun _ hq => nomatch hq)
      (fun r hr' => .of fun e hl hR hB ho hr => by simp_all [Instr.rowWf, RmOp.wf, instrPfx]) rfl, rfl⟩
  | movR32Cr p m g c | movR64Cr p m g c | movR64Cr8 p m g c =>
    obtain ⟨hp, u, hu, rfl⟩ := complete_eq_next.1 h
    exact ⟨hp, u, .ofReadCr hu rfl (.of fun e hl hR hB ho hr => by simp_all [Instr.rowWf, instrPfx]), rfl⟩
  | movCrR32 p m c g =>
    obtain ⟨hp, u, hu, rfl⟩ := complete_eq_next.1 h
    obtain ⟨r, x, hc, -, hm, hw, rfl⟩ := writeCr_eq_ok.1 hu
    exact ⟨hp, _, .wroteCr .b32 g r x rfl hm
      (fun _ => ⟨c, hc, p, m, g, hp, .inl ⟨rfl, regValue_readReg s .b32 false g⟩⟩)
      (.of fun e hl hR hB ho hr => by simp_all [Instr.rowWf, instrPfx])
      (fun h8 => by cases c <;> simp [crOfNum, h8] at hc) hw, rfl⟩
  | movCrR64 p m c g =>
    obtain ⟨hp, u, hu, rfl⟩ := complete_eq_next.1 h
    obtain ⟨r, x, hc, -, hm, hw, rfl⟩ := writeCr_eq_ok.1 hu
    exact ⟨hp, _, .wroteCr .b64 g r x rfl hm (fun _ => ⟨c, hc, p, m, g, hp, .inr ⟨rfl, rfl⟩⟩)
      (.of fun e hl hR hB ho hr => by simp_all [Instr.rowWf, instrPfx])
      (fun h8 => by cases c <;> simp [crOfNum, h8] at hc) hw, rfl⟩
  | movCr8R64 p m c g =>
    obtain ⟨hp, u, hu, rfl⟩ := complete_eq_next.1 h
    obtain ⟨r, x, hc, -, hm, hw, rfl⟩ := writeCr_eq_ok.1 hu
    refine ⟨hp, _, .wroteCr .b64 g r x rfl hm (fun hr => ?_)
      (.of fun e hl hR hB ho hr => by simp_all [Instr.rowWf, instrPfx])
      (fun _ e he => by simp_all [Instr.wf, Instr.rowWf]) hw, rfl⟩
    cases c <;> simp only [crOfHigh, Option.some.injEq, reduceCtorEq] at hc
    exact absurd hc.symm hr
  | movR32Dr p m g d | movR64Dr p m g d =>
    obtain ⟨hp, u, hu, rfl⟩ := complete_eq_next.1 h
    obtain ⟨ha, rfl⟩ := readDr_eq_ok.1 hu
    exact ⟨hp, _, .readSystem _ g _ rfl ha.2.2.1
      (.of fun e hl hR hB ho hr => by simp_all [Instr.rowWf, instrPfx]), rfl⟩
  | movDrR32 p m d g =>
    obtain ⟨hp, u, hu, rfl⟩ := complete_eq_next.1 h
    obtain ⟨ha, hr, rfl⟩ := writeDr_eq_ok.1 hu
    exact ⟨hp, _, .wroteDr .b32 g p d rfl ha ⟨m, g, .inl ⟨rfl, regValue_readReg s .b32 false g⟩⟩ hr
      (.of fun e hl hR hB ho hr => by simp_all [Instr.rowWf, instrPfx]), rfl⟩
  | movDrR64 p m d g =>
    obtain ⟨hp, u, hu, rfl⟩ := complete_eq_next.1 h
    obtain ⟨ha, hr, rfl⟩ := writeDr_eq_ok.1 hu
    exact ⟨hp, _, .wroteDr .b64 g p d rfl ha ⟨m, g, .inr ⟨rfl, rfl⟩⟩ hr
      (.of fun e hl hR hB ho hr => by simp_all [Instr.rowWf, instrPfx]), rfl⟩

end Sys2Proof.Machine
end

