-- ==== Sys2Proof/Tests/Slice0.lean ====
section
/-! SUPPORT. The model's own tests. An expected result comes from the spec: the vectors of 95_test_vectors.md, named in the
comment, or the rule named there. `witness_` theorems show that the hypotheses of a statement for the provers can be met. -/

namespace Sys2Proof.Tests

open Sys2Proof.Machine

/-! ### States and outcomes -/

/-- A flat, writable data segment (95_test_vectors.md section 7, dW0). -/
def flatData : SegReg := { sel := 0x10#16, hid := Hidden.ofDesc 0x00CF93000000FFFF#64 }

/-- A flat code segment: of 64-bit code, or with a default size of 32. -/
def flatCode (long : Bool) : SegReg :=
  { sel := 0x8#16
    hid := { kind := .desc, base := 0#64, attr := { descAttr 0x00CF9B000000FFFF#64 with l := long, db := !long } } }

/-- Bytes in memory from an address on. -/
def bytesAt (a : Nat) (bs : List Byte) (s : State) : State :=
  { s with mem := memSetAll s.mem ((List.range bs.length).map (a + ·)) bs }

def reg (g : Gpr) (v : Word) (s : State) : State := { s with gpr := s.gpr.set g v }

/-- On a processor without 64-bit mode, where a 32-bit write leaves no unknown upper half (log 37). -/
def only32 (s : State) : State := { s with params := { s.params with hasIntel64 := false } }

/-- Instruction bytes at CS:pc. -/
def code (bs : List Byte) (s : State) : State := s.placeBytes 0 bs

def flatSegs (c : SegReg) : Sregs :=
  { es := flatData, cs := c, ss := flatData, ds := flatData, fs := flatData, gs := flatData }

/-- "R16" of the vectors. -/
def r16 : State := { State.reset with pc := 0x100#64 }

/-- "P32" of the vectors, with a descriptor table at 5000h. -/
def p32 : State :=
  { State.reset with
    pc := 0x100#64
    mode := .prot
    seg := flatSegs (flatCode false)
    cr := { cr0 := 0x11#64, cr2 := 0#64, cr3 := 0#64, cr4 := 0#64, cr8 := 0#64 }
    gdtr := { base := 0x5000#64, limit := 0x47#16 } }

/-- "L64" of the vectors, with a descriptor table at 5000h. -/
def l64 : State :=
  { p32 with
    mode := .long64
    seg := flatSegs (flatCode true)
    cr := { cr0 := 0x80050033#64, cr2 := 0#64, cr3 := 0x100000#64, cr4 := 0x6A0#64, cr8 := 0#64 } }

/-- COMPAT mode, otherwise as `l64`. -/
def compat : State := { l64 with mode := .compat, seg := flatSegs (flatCode false) }

/-- A segment register as a load in V86 mode leaves it. -/
def v86Seg (sel : Half) : SegReg :=
  { sel := sel, hid := { kind := .real, base := sel.setWidth 64 <<< 4, attr := SegAttr.afterReset 3#4 } }

/-- "V16" of the vectors. -/
def v16 : State :=
  { p32 with
    mode := .v86
    cpl := 3#2
    seg := { es := v86Seg 0#16, cs := v86Seg 0#16, ss := v86Seg 0#16, ds := v86Seg 0#16, fs := v86Seg 0#16,
             gs := v86Seg 0#16 } }

/-- The descriptors of a data segment, and of one not present (95_test_vectors.md section 7). -/
def table (s : State) : State :=
  bytesAt 0x5028 [0xFF#8, 0xFF#8, 0x00#8, 0x00#8, 0x00#8, 0x13#8, 0xCF#8, 0x00#8]
    (bytesAt 0x5010 [0xFF#8, 0xFF#8, 0x00#8, 0x00#8, 0x00#8, 0x92#8, 0xCF#8, 0x00#8] s)

def ends (o : Outcome) (q : State → Bool) : Bool :=
  match o with
  | .next t => q t
  | .fault _ => false
  | .refused _ => false

def faults (o : Outcome) (f : Fault) : Bool :=
  match o with
  | .next _ => false
  | .fault g => g == f
  | .refused _ => false

def refuses (o : Outcome) (r : Refusal) : Bool :=
  match o with
  | .next _ => false
  | .fault _ => false
  | .refused q => q == r

theorem next_of_ends {o : Outcome} {q : State → Bool} (h : ends o q = true) : ∃ t, o = .next t ∧ q t = true := by
  cases o with
  | next t => exact ⟨t, rfl, h⟩
  | fault _ => cases h
  | refused _ => cases h

/-! ### Decoding: words of the spec's encodings -/

/-- Row 1, vector X2. -/
theorem test_decode_movRm8R8 :
    decode ⟨true, false⟩ [0x88#8, 0xDC#8] =
      .ok (.movRm8R8 ⟨[], none⟩ (.reg .rsp) .rbx, []) := by decide

/-- Row 2, vector X5. -/
theorem test_decode_movRm8R8Rex :
    decode ⟨true, false⟩ [0x45#8, 0x88#8, 0x08#8] =
      .ok (.movRm8R8Rex ⟨[], some ⟨false, true, false, true⟩⟩ (.mem (.based .r8 .none)) .r9, []) := by decide

/-- Row 3, vector X103. -/
theorem test_decode_movRm16R16 :
    decode ⟨false, false⟩ [0x89#8, 0x00#8] =
      .ok (.movRm16R16 ⟨[], none⟩ (.mem (.based16 .bxSi .none)) .rax, []) := by decide

/-- Row 4, vector X87. -/
theorem test_decode_movRm32R32 :
    decode ⟨false, true⟩ [0x89#8, 0x54#8, 0xB5#8, 0xFC#8] =
      .ok (.movRm32R32 ⟨[], none⟩ (.mem (.sib 2#2 (some .rsi) .rbp (.d8 0xFC#8))) .rdx, []) := by decide

/-- Row 5, vector X9. -/
theorem test_decode_movRm64R64 :
    decode ⟨true, false⟩ [0x66#8, 0x48#8, 0x89#8, 0xC3#8] =
      .ok (.movRm64R64 ⟨[.opSize], some ⟨true, false, false, false⟩⟩ (.reg .rbx) .rax, []) := by decide

/-- Row 6, vector X91. -/
theorem test_decode_movR8Rm8 :
    decode ⟨false, true⟩ [0x67#8, 0x8A#8, 0x46#8, 0x02#8] =
      .ok (.movR8Rm8 ⟨[.addrSize], none⟩ .rax (.mem (.based16 .bp (.d8 0x02#8))), []) := by decide

/-- Row 7, vector X11. -/
theorem test_decode_movR8Rm8Rex :
    decode ⟨true, false⟩ [0x44#8, 0x8A#8, 0x17#8] =
      .ok (.movR8Rm8Rex ⟨[], some ⟨false, true, false, false⟩⟩ .r10 (.mem (.based .rdi .none)), []) := by decide

/-- Row 8, vector X106. -/
theorem test_decode_movR16Rm16 :
    decode ⟨false, false⟩ [0x8B#8, 0x9B#8, 0x00#8, 0x01#8] =
      .ok (.movR16Rm16 ⟨[], none⟩ .rbx (.mem (.based16 .bpDi (.full 0x100#16))), []) := by decide

/-- Row 9, vector X13. -/
theorem test_decode_movR32Rm32 :
    decode ⟨true, false⟩ [0x8B#8, 0x05#8, 0x10#8, 0x00#8, 0x00#8, 0x00#8] =
      .ok (.movR32Rm32 ⟨[], none⟩ .rax (.mem (.rip 0x10#32)), []) := by decide

/-- Row 10, vector X16. -/
theorem test_decode_movR64Rm64 :
    decode ⟨true, false⟩ [0x4F#8, 0x8B#8, 0xBC#8, 0xEC#8, 0x00#8, 0x01#8, 0x00#8, 0x00#8] =
      .ok (.movR64Rm64 ⟨[], some ⟨true, true, true, true⟩⟩ .r15 (.mem (.sib 3#2 (some .r13) .r12 (.full 0x100#32))), []) := by decide

/-- Row 11, vector X83. -/
theorem test_decode_movRm16Sreg :
    decode ⟨false, true⟩ [0x66#8, 0x8C#8, 0xD3#8] =
      .ok (.movRm16Sreg ⟨[.opSize], none⟩ (.reg .rbx) (.reg .ss), []) := by decide

/-- Row 12, vector X53. -/
theorem test_decode_movR32M16Sreg :
    decode ⟨true, false⟩ [0x8C#8, 0x23#8] =
      .ok (.movR32M16Sreg ⟨[], none⟩ (.mem (.based .rbx .none)) (.reg .fs), []) := by decide

/-- Row 13, vector X52. -/
theorem test_decode_movR64M16Sreg :
    decode ⟨true, false⟩ [0x48#8, 0x8C#8, 0xD8#8] =
      .ok (.movR64M16Sreg ⟨[], some ⟨true, false, false, false⟩⟩ (.reg .rax) (.reg .ds), []) := by decide

/-- Row 14, vector X56. -/
theorem test_decode_movSregRm16 :
    decode ⟨true, false⟩ [0x8E#8, 0x1B#8] =
      .ok (.movSregRm16 ⟨[], none⟩ (.reg .ds) (.mem (.based .rbx .none)), []) := by decide

/-- Row 15, vector X57. -/
theorem test_decode_movSregRm64 :
    decode ⟨true, false⟩ [0x48#8, 0x8E#8, 0xE0#8] =
      .ok (.movSregRm64 ⟨[], some ⟨true, false, false, false⟩⟩ (.reg .fs) (.reg .rax), []) := by decide

/-- Row 16, vector X25. -/
theorem test_decode_movAlMoffs8 :
    decode ⟨true, false⟩ [0x67#8, 0xA0#8, 0x78#8, 0x56#8, 0x34#8, 0x12#8] =
      .ok (.movAlMoffs8 ⟨[.addrSize], none⟩ (.m32 0x12345678#32), []) := by decide

/-- Row 17, vector X26. -/
theorem test_decode_movAlMoffs8RexW :
    decode ⟨true, false⟩ [0x48#8, 0xA0#8, 0x88#8, 0x77#8, 0x66#8, 0x55#8, 0x44#8, 0x33#8, 0x22#8, 0x11#8] =
      .ok (.movAlMoffs8RexW ⟨[], some ⟨true, false, false, false⟩⟩ (.m64 0x1122334455667788#64), []) := by decide

/-- Row 18, vector X86. -/
theorem test_decode_movAxMoffs16 :
    decode ⟨false, true⟩ [0x66#8, 0xA1#8, 0xFE#8, 0xFF#8, 0x00#8, 0x00#8] =
      .ok (.movAxMoffs16 ⟨[.opSize], none⟩ (.m32 0xFFFE#32), []) := by decide

/-- Row 19, vector X28. -/
theorem test_decode_movEaxMoffs32 :
    decode ⟨true, false⟩ [0xA1#8, 0x88#8, 0x77#8, 0x66#8, 0x55#8, 0x44#8, 0x33#8, 0x22#8, 0x11#8] =
      .ok (.movEaxMoffs32 ⟨[], none⟩ (.m64 0x1122334455667788#64), []) := by decide

/-- Row 20, vector X29. -/
theorem test_decode_movRaxMoffs64 :
    decode ⟨true, false⟩ [0x48#8, 0xA1#8, 0x00#8, 0x10#8, 0x00#8, 0x00#8, 0x00#8, 0x00#8, 0x00#8, 0x00#8] =
      .ok (.movRaxMoffs64 ⟨[], some ⟨true, false, false, false⟩⟩ (.m64 0x1000#64), []) := by decide

/-- Row 21, vector X108. -/
theorem test_decode_movMoffs8Al :
    decode ⟨false, false⟩ [0xA2#8, 0x34#8, 0x12#8] =
      .ok (.movMoffs8Al ⟨[], none⟩ (.m16 0x1234#16), []) := by decide

/-- Row 22, vector X31. -/
theorem test_decode_movMoffs8AlRexW :
    decode ⟨true, false⟩ [0x48#8, 0xA2#8, 0x88#8, 0x77#8, 0x66#8, 0x55#8, 0x44#8, 0x33#8, 0x22#8, 0x11#8] =
      .ok (.movMoffs8AlRexW ⟨[], some ⟨true, false, false, false⟩⟩ (.m64 0x1122334455667788#64), []) := by decide

/-- Row 23, vector X32. -/
theorem test_decode_movMoffs16Ax :
    decode ⟨true, false⟩ [0x66#8, 0xA3#8, 0x88#8, 0x77#8, 0x66#8, 0x55#8, 0x44#8, 0x33#8, 0x22#8, 0x11#8] =
      .ok (.movMoffs16Ax ⟨[.opSize], none⟩ (.m64 0x1122334455667788#64), []) := by decide

/-- Row 24, vector X85. -/
theorem test_decode_movMoffs32Eax :
    decode ⟨false, true⟩ [0xA3#8, 0x78#8, 0x56#8, 0x34#8, 0x12#8] =
      .ok (.movMoffs32Eax ⟨[], none⟩ (.m32 0x12345678#32), []) := by decide

/-- Row 25, vector X34. -/
theorem test_decode_movMoffs64Rax :
    decode ⟨true, false⟩ [0x48#8, 0xA3#8, 0x88#8, 0x77#8, 0x66#8, 0x55#8, 0x44#8, 0x33#8, 0x22#8, 0x11#8] =
      .ok (.movMoffs64Rax ⟨[], some ⟨true, false, false, false⟩⟩ (.m64 0x1122334455667788#64), []) := by decide

/-- Row 26, vector X36. -/
theorem test_decode_movR8Imm8 :
    decode ⟨true, false⟩ [0xB7#8, 0x01#8] =
      .ok (.movR8Imm8 ⟨[], none⟩ .rdi 1#8, []) := by decide

/-- Row 27, vector X38. -/
theorem test_decode_movR8Imm8Rex :
    decode ⟨true, false⟩ [0x41#8, 0xB1#8, 0x05#8] =
      .ok (.movR8Imm8Rex ⟨[], some ⟨false, false, false, true⟩⟩ .r9 5#8, []) := by decide

/-- Row 28, vector X39. -/
theorem test_decode_movR16Imm16 :
    decode ⟨true, false⟩ [0x66#8, 0xBA#8, 0x34#8, 0x12#8] =
      .ok (.movR16Imm16 ⟨[.opSize], none⟩ .rdx 0x1234#16, []) := by decide

/-- Row 29, vector X101. -/
theorem test_decode_movR32Imm32 :
    decode ⟨false, false⟩ [0x66#8, 0xB8#8, 0x78#8, 0x56#8, 0x34#8, 0x12#8] =
      .ok (.movR32Imm32 ⟨[.opSize], none⟩ .rax 0x12345678#32, []) := by decide

/-- Row 30, vector X42. -/
theorem test_decode_movR64Imm64 :
    decode ⟨true, false⟩ [0x49#8, 0xBB#8, 0x88#8, 0x77#8, 0x66#8, 0x55#8, 0x44#8, 0x33#8, 0x22#8, 0x11#8] =
      .ok (.movR64Imm64 ⟨[], some ⟨true, false, false, true⟩⟩ .r11 0x1122334455667788#64, []) := by decide

/-- Row 31, vector X43. -/
theorem test_decode_movRm8Imm8 :
    decode ⟨true, false⟩ [0xC6#8, 0x03#8, 0x5A#8] =
      .ok (.movRm8Imm8 ⟨[], none⟩ (.mem (.based .rbx .none)) 0x5A#8, []) := by decide

/-- Row 32, vector X45. -/
theorem test_decode_movRm8Imm8Rex :
    decode ⟨true, false⟩ [0x40#8, 0xC6#8, 0xC6#8, 0x07#8] =
      .ok (.movRm8Imm8Rex ⟨[], some ⟨false, false, false, false⟩⟩ (.reg .rsi) 7#8, []) := by decide

/-- Row 33, vector X107. -/
theorem test_decode_movRm16Imm16 :
    decode ⟨false, false⟩ [0xC7#8, 0x06#8, 0x00#8, 0x20#8, 0xEF#8, 0xBE#8] =
      .ok (.movRm16Imm16 ⟨[], none⟩ (.mem (.abs16 0x2000#16)) 0xBEEF#16, []) := by decide

/-- Row 34, vector X47. -/
theorem test_decode_movRm32Imm32 :
    decode ⟨true, false⟩ [0xC7#8, 0x03#8, 0x44#8, 0x33#8, 0x22#8, 0x11#8] =
      .ok (.movRm32Imm32 ⟨[], none⟩ (.mem (.based .rbx .none)) 0x11223344#32, []) := by decide

/-- Row 35, vector X48. -/
theorem test_decode_movRm64Imm32 :
    decode ⟨true, false⟩ [0x48#8, 0xC7#8, 0x03#8, 0xFE#8, 0xFF#8, 0xFF#8, 0xFF#8] =
      .ok (.movRm64Imm32 ⟨[], some ⟨true, false, false, false⟩⟩ (.mem (.based .rbx .none)) 0xFFFFFFFE#32, []) := by decide

/-- Row 36, vector X112. -/
theorem test_decode_movR32Cr :
    decode ⟨false, false⟩ [0x0F#8, 0x20#8, 0xC0#8] =
      .ok (.movR32Cr ⟨[], none⟩ 3#2 .rax .cr0, []) := by decide

/-- Row 37, vector X63. -/
theorem test_decode_movR64Cr :
    decode ⟨true, false⟩ [0x41#8, 0x0F#8, 0x20#8, 0xE1#8] =
      .ok (.movR64Cr ⟨[], some ⟨false, false, false, true⟩⟩ 3#2 .r9 .cr4, []) := by decide

/-- Row 38, vector X64. -/
theorem test_decode_movR64Cr8 :
    decode ⟨true, false⟩ [0x44#8, 0x0F#8, 0x20#8, 0xC0#8] =
      .ok (.movR64Cr8 ⟨[], some ⟨false, true, false, false⟩⟩ 3#2 .rax .cr8, []) := by decide

/-- Row 39, vector X94. -/
theorem test_decode_movCrR32 :
    decode ⟨false, true⟩ [0x0F#8, 0x22#8, 0xE0#8] =
      .ok (.movCrR32 ⟨[], none⟩ 3#2 .cr4 .rax, []) := by decide

/-- Row 40, vector X66. -/
theorem test_decode_movCrR64 :
    decode ⟨true, false⟩ [0x0F#8, 0x22#8, 0xD8#8] =
      .ok (.movCrR64 ⟨[], none⟩ 3#2 .cr3 .rax, []) := by decide

/-- Row 41, vector X65. -/
theorem test_decode_movCr8R64 :
    decode ⟨true, false⟩ [0x44#8, 0x0F#8, 0x22#8, 0xC1#8] =
      .ok (.movCr8R64 ⟨[], some ⟨false, true, false, false⟩⟩ 3#2 .cr8 .rcx, []) := by decide

/-- Row 42, vector X95. -/
theorem test_decode_movR32Dr :
    decode ⟨false, true⟩ [0x0F#8, 0x21#8, 0xF0#8] =
      .ok (.movR32Dr ⟨[], none⟩ 3#2 .rax .dr6, []) := by decide

/-- Row 43, vector X70. -/
theorem test_decode_movR64Dr :
    decode ⟨true, false⟩ [0x41#8, 0x0F#8, 0x21#8, 0xC1#8] =
      .ok (.movR64Dr ⟨[], some ⟨false, false, false, true⟩⟩ 3#2 .r9 .dr0, []) := by decide

/-- Row 44, vector X96. -/
theorem test_decode_movDrR32 :
    decode ⟨false, true⟩ [0x0F#8, 0x23#8, 0xF9#8] =
      .ok (.movDrR32 ⟨[], none⟩ 3#2 .dr7 .rcx, []) := by decide

/-- Row 45, vector X71. -/
theorem test_decode_movDrR64 :
    decode ⟨true, false⟩ [0x0F#8, 0x23#8, 0xC3#8] =
      .ok (.movDrR64 ⟨[], none⟩ 3#2 .dr0 .rbx, []) := by decide

/-- X61. -/
theorem test_decode_mod_ignored :
    decode ⟨true, false⟩ [0x0F#8, 0x20#8, 0x00#8] =
      .ok (.movR64Cr ⟨[], none⟩ 0#2 .rax .cr0, []) := by decide

/-- X17. -/
theorem test_decode_no_index_no_base :
    decode ⟨true, false⟩ [0x8B#8, 0x04#8, 0x25#8, 0x00#8, 0x10#8, 0x00#8, 0x00#8] =
      .ok (.movR32Rm32 ⟨[], none⟩ .rax (.mem (.sibNoBase 0#2 none 0x1000#32)), []) := by decide

/-- X18. -/
theorem test_decode_index_no_base :
    decode ⟨true, false⟩ [0x8B#8, 0x04#8, 0xB5#8, 0x00#8, 0x01#8, 0x00#8, 0x00#8] =
      .ok (.movR32Rm32 ⟨[], none⟩ .rax (.mem (.sibNoBase 2#2 (some .rsi) 0x100#32)), []) := by decide

/-- X21. -/
theorem test_decode_sib_for_r12 :
    decode ⟨true, false⟩ [0x41#8, 0x8B#8, 0x04#8, 0x24#8] =
      .ok (.movR32Rm32 ⟨[], some ⟨false, false, false, true⟩⟩ .rax (.mem (.sib 0#2 none .r12 .none)), []) := by decide

/-- R112. -/
theorem test_decode_rex_not_last_ignored :
    decode ⟨true, false⟩ [0x48#8, 0x66#8, 0x89#8, 0xC3#8] =
      .ok (.movRm16R16 ⟨[.staleRex ⟨true, false, false, false⟩, .opSize], none⟩ (.reg .rbx) .rax, []) := by decide

/-- X100 with a byte after it. -/
theorem test_decode_rest_is_left :
    decode ⟨false, false⟩ [0xB8#8, 0x34#8, 0x12#8, 0x90#8] =
      .ok (.movR16Imm16 ⟨[], none⟩ .rax 0x1234#16, [0x90#8]) := by decide

/-- X76. -/
theorem test_decode_group_refused :
    decode ⟨true, false⟩ [0xC6#8, 0x0B#8, 0x01#8] =
      .error (.groupReg 1#3) := by decide

/-- X77. -/
theorem test_decode_repeat_refused :
    decode ⟨true, false⟩ [0xF3#8, 0x89#8, 0xC3#8] =
      .error (.repeatPfx 0xF3#8) := by decide

/-- X78. -/
theorem test_decode_opcode_refused :
    decode ⟨true, false⟩ [0x90#8] =
      .error (.opcode 0x90#8) := by decide

/-- X97. -/
theorem test_decode_rex_outside_long_refused :
    decode ⟨false, true⟩ [0x48#8, 0x89#8, 0xC3#8] =
      .error (.opcode 0x48#8) := by decide

/-- R135. -/
theorem test_decode_opcode_0F_refused :
    decode ⟨true, false⟩ [0x0F#8, 0x24#8, 0xC0#8] =
      .error (.opcode0F 0x24#8) := by decide

/-- R141. -/
theorem test_decode_short_refused :
    decode ⟨true, false⟩ [0x8B#8, 0x05#8, 0x10#8, 0x00#8] =
      .error .truncated := by decide

/-- R137: sixteen bytes. -/
theorem test_decode_too_long :
    decode ⟨true, false⟩ (List.replicate 14 0x66#8 ++ [0x89#8, 0xC3#8]) = .error .tooLong := by decide

/-! ### What no encoding exists for -/

/-- R113. -/
theorem test_wf_rex_outside_long : Instr.wf ⟨false, true⟩ (.movRm8R8Rex ⟨[], some ⟨false, false, false, false⟩⟩ (.reg .rax) .rcx) = false := by decide

/-- R113. -/
theorem test_wf_stale_rex_outside_long : Instr.wf ⟨false, true⟩ (.movRm16R16 ⟨[.staleRex ⟨false, false, false, false⟩, .opSize], none⟩ (.reg .rax) .rcx) = false := by decide

/-- R112. -/
theorem test_wf_stale_rex_last : Instr.wf ⟨true, false⟩ (.movRm32R32 ⟨[.staleRex ⟨false, false, false, false⟩], none⟩ (.reg .rax) .rcx) = false := by decide

/-- R26. -/
theorem test_wf_rm_without_rexB : Instr.wf ⟨true, false⟩ (.movRm32R32 ⟨[], none⟩ (.reg .r8) .rcx) = false := by decide

/-- R26. -/
theorem test_wf_reg_without_rexR : Instr.wf ⟨true, false⟩ (.movRm32R32 ⟨[], none⟩ (.reg .rax) .r9) = false := by decide

/-- R118. -/
theorem test_wf_based16_size : Instr.wf ⟨false, true⟩ (.movR32Rm32 ⟨[], none⟩ .rax (.mem (.based16 .bx .none))) = false := by decide

/-- R118. -/
theorem test_wf_based16_bp_no_disp : Instr.wf ⟨false, false⟩ (.movR16Rm16 ⟨[], none⟩ .rax (.mem (.based16 .bp .none))) = false := by decide

/-- R118. -/
theorem test_wf_abs16_size : Instr.wf ⟨false, true⟩ (.movR32Rm32 ⟨[], none⟩ .rax (.mem (.abs16 0#16))) = false := by decide

/-- R119. -/
theorem test_wf_based_size : Instr.wf ⟨false, false⟩ (.movR16Rm16 ⟨[], none⟩ .rax (.mem (.based .rbx .none))) = false := by decide

/-- R119. -/
theorem test_wf_based_rexB : Instr.wf ⟨true, false⟩ (.movR32Rm32 ⟨[], none⟩ .rax (.mem (.based .r8 .none))) = false := by decide

/-- R119. -/
theorem test_wf_based_rsp : Instr.wf ⟨true, false⟩ (.movR32Rm32 ⟨[], none⟩ .rax (.mem (.based .rsp .none))) = false := by decide

/-- R119. -/
theorem test_wf_based_rbp_no_disp : Instr.wf ⟨true, false⟩ (.movR32Rm32 ⟨[], none⟩ .rax (.mem (.based .rbp .none))) = false := by decide

/-- R120. -/
theorem test_wf_sib_size : Instr.wf ⟨false, false⟩ (.movR16Rm16 ⟨[], none⟩ .rax (.mem (.sib 0#2 none .rax .none))) = false := by decide

/-- R120. -/
theorem test_wf_sib_index_rsp : Instr.wf ⟨true, false⟩ (.movR32Rm32 ⟨[], none⟩ .rax (.mem (.sib 0#2 (some .rsp) .rax .none))) = false := by decide

/-- R120. -/
theorem test_wf_sib_index_rexX : Instr.wf ⟨true, false⟩ (.movR32Rm32 ⟨[], none⟩ .rax (.mem (.sib 0#2 (some .r9) .rax .none))) = false := by decide

/-- R120. -/
theorem test_wf_sib_no_index_rexX : Instr.wf ⟨true, false⟩ (.movR32Rm32 ⟨[], some ⟨false, false, true, false⟩⟩ .rax (.mem (.sib 0#2 none .rax .none))) = false := by decide

/-- R120. -/
theorem test_wf_sib_base_rexB : Instr.wf ⟨true, false⟩ (.movR32Rm32 ⟨[], none⟩ .rax (.mem (.sib 0#2 none .r12 .none))) = false := by decide

/-- R120. -/
theorem test_wf_sib_rbp_no_disp : Instr.wf ⟨true, false⟩ (.movR32Rm32 ⟨[], none⟩ .rax (.mem (.sib 0#2 none .rbp .none))) = false := by decide

/-- R120. -/
theorem test_wf_sibNoBase_size : Instr.wf ⟨false, false⟩ (.movR16Rm16 ⟨[], none⟩ .rax (.mem (.sibNoBase 0#2 none 0#32))) = false := by decide

/-- R120. -/
theorem test_wf_sibNoBase_index : Instr.wf ⟨true, false⟩ (.movR32Rm32 ⟨[], none⟩ .rax (.mem (.sibNoBase 0#2 (some .rsp) 0#32))) = false := by decide

/-- R121. -/
theorem test_wf_abs32_in_long : Instr.wf ⟨true, false⟩ (.movR32Rm32 ⟨[], none⟩ .rax (.mem (.abs32 0#32))) = false := by decide

/-- R119. -/
theorem test_wf_abs32_size : Instr.wf ⟨false, false⟩ (.movR16Rm16 ⟨[], none⟩ .rax (.mem (.abs32 0#32))) = false := by decide

/-- R121. -/
theorem test_wf_rip_outside_long : Instr.wf ⟨false, true⟩ (.movR32Rm32 ⟨[], none⟩ .rax (.mem (.rip 0#32))) = false := by decide

/-- R127. -/
theorem test_wf_moffs16_size : Instr.wf ⟨false, true⟩ (.movAlMoffs8 ⟨[], none⟩ (.m16 0#16)) = false := by decide

/-- R127. -/
theorem test_wf_moffs32_size : Instr.wf ⟨true, false⟩ (.movAlMoffs8 ⟨[], none⟩ (.m32 0#32)) = false := by decide

/-- R127. -/
theorem test_wf_moffs64_size : Instr.wf ⟨false, true⟩ (.movAlMoffs8 ⟨[], none⟩ (.m64 0#64)) = false := by decide

/-- R123. -/
theorem test_wf_size16 : Instr.wf ⟨false, true⟩ (.movRm16R16 ⟨[], none⟩ (.reg .rax) .rcx) = false := by decide

/-- R123. -/
theorem test_wf_size32 : Instr.wf ⟨false, false⟩ (.movRm32R32 ⟨[], none⟩ (.reg .rax) .rcx) = false := by decide

/-- R123. -/
theorem test_wf_size64 : Instr.wf ⟨true, false⟩ (.movRm64R64 ⟨[], none⟩ (.reg .rax) .rcx) = false := by decide

/-- R123. -/
theorem test_wf_sreg_size64 : Instr.wf ⟨true, false⟩ (.movSregRm16 ⟨[], some ⟨true, false, false, false⟩⟩ (.reg .ds) (.reg .rax)) = false := by decide

/-- R130. -/
theorem test_wf_byte_row_with_rex : Instr.wf ⟨true, false⟩ (.movRm8R8 ⟨[], some ⟨false, false, false, false⟩⟩ (.reg .rax) .rcx) = false := by decide

/-- R130. -/
theorem test_wf_byte_rex_row_without : Instr.wf ⟨true, false⟩ (.movRm8R8Rex ⟨[], none⟩ (.reg .rax) .rcx) = false := by decide

/-- R130. -/
theorem test_wf_moffs_rexW : Instr.wf ⟨true, false⟩ (.movAlMoffs8 ⟨[], some ⟨true, false, false, false⟩⟩ (.m64 0#64)) = false := by decide

/-- R130. -/
theorem test_wf_moffs_rexW_row_without : Instr.wf ⟨true, false⟩ (.movAlMoffs8RexW ⟨[], none⟩ (.m64 0#64)) = false := by decide

/-- R128. -/
theorem test_wf_imm_rexB : Instr.wf ⟨true, false⟩ (.movR32Imm32 ⟨[], none⟩ .r9 0#32) = false := by decide

/-- R132. -/
theorem test_wf_cr32_in_long : Instr.wf ⟨true, false⟩ (.movR32Cr ⟨[], none⟩ 3#2 .rax .cr0) = false := by decide

/-- R132. -/
theorem test_wf_cr64_outside_long : Instr.wf ⟨false, true⟩ (.movR64Cr ⟨[], none⟩ 3#2 .rax .cr0) = false := by decide

/-- R132. -/
theorem test_wf_cr64_rexR : Instr.wf ⟨true, false⟩ (.movR64Cr ⟨[], some ⟨false, true, false, false⟩⟩ 3#2 .rax .cr0) = false := by decide

/-- R132. -/
theorem test_wf_cr8_without_rexR : Instr.wf ⟨true, false⟩ (.movCr8R64 ⟨[], none⟩ 3#2 .cr8 .rax) = false := by decide

/-- R132. -/
theorem test_wf_dr64_outside_long : Instr.wf ⟨false, true⟩ (.movDrR64 ⟨[], none⟩ 3#2 .dr0 .rax) = false := by decide

/-- R132. -/
theorem test_wf_dr32_in_long : Instr.wf ⟨true, false⟩ (.movDrR32 ⟨[], none⟩ 3#2 .dr0 .rax) = false := by decide

/-- R137. -/
theorem test_wf_too_long : Instr.wf ⟨true, false⟩ (.movRm32R32 ⟨List.replicate 14 .addrSize, none⟩ (.reg .rax) .rcx) = false := by decide

/-! ### Single steps -/

/-- G5: AH is written. -/
theorem test_run_movRm8R8 :
    ends (step (code [0x88#8, 0xDC#8] (reg .rax 0x12345678#64 (reg .rbx 0x9A#64 l64))))
      (fun t => t.gpr.rax == 0x12349A78#64) = true := by decide

/-- G7: SIL, not DH. -/
theorem test_run_movRm8R8Rex :
    ends (step (code [0x40#8, 0x88#8, 0xC6#8] (reg .rax 0x78#64 (reg .rsi 0xFFFFFFFFFFFFFFFF#64 l64))))
      (fun t => t.gpr.rsi == 0xFFFFFFFFFFFFFF78#64 && t.gpr.rdx == 0#64) = true := by decide

/-- G3. -/
theorem test_run_movRm16R16 :
    ends (step (code [0x66#8, 0x89#8, 0xC3#8] (reg .rax 0xFFFFFFFF12345678#64 (reg .rbx 0xAAAAAAAAAAAAAAAA#64 l64))))
      (fun t => t.gpr.rbx == 0xAAAAAAAAAAAA5678#64) = true := by decide

/-- G2: source and destination the same. -/
theorem test_run_movRm32R32 :
    ends (step (code [0x89#8, 0xC0#8] (reg .rax 0xFFFFFFFF12345678#64 l64)))
      (fun t => t.gpr.rax == 0x12345678#64 && t.pc == 0x102#64) = true := by decide

/-- M6. -/
theorem test_run_movRm64R64 :
    ends (step (code [0x48#8, 0x89#8, 0x5B#8, 0x08#8] (reg .rbx 0x1000#64 l64)))
      (fun t => memGet t.mem 0x1008 == some 0x00#8 && memGet t.mem 0x1009 == some 0x10#8 && memGet t.mem 0x100A == some 0x00#8 && memGet t.mem 0x100B == some 0x00#8 && memGet t.mem 0x100C == some 0x00#8 && memGet t.mem 0x100D == some 0x00#8 && memGet t.mem 0x100E == some 0x00#8 && memGet t.mem 0x100F == some 0x00#8) = true := by decide

/-- M2. -/
theorem test_run_movR8Rm8 :
    ends (step (code [0x8A#8, 0x43#8, 0x01#8] (reg .rbx 0x1000#64 (bytesAt 0x1000 [0x44#8, 0x33#8, 0x22#8, 0x11#8] l64))))
      (fun t => t.gpr.rax == 0x33#64) = true := by decide

/-- R171: `mov r10b, [rdi]`. -/
theorem test_run_movR8Rm8Rex :
    ends (step (code [0x44#8, 0x8A#8, 0x17#8] (reg .rdi 0x1000#64 (reg .r10 0xFFFF#64 (bytesAt 0x1000 [0x44#8] l64)))))
      (fun t => t.gpr.r10 == 0xFF44#64) = true := by decide

/-- M3. -/
theorem test_run_movR16Rm16 :
    ends (step (code [0x66#8, 0x8B#8, 0x4B#8, 0x02#8] (reg .rbx 0x1000#64 (reg .rcx 0xFFFFFFFFFFFFFFFF#64 (bytesAt 0x1000 [0x44#8, 0x33#8, 0x22#8, 0x11#8] l64)))))
      (fun t => t.gpr.rcx == 0xFFFFFFFFFFFF1122#64) = true := by decide

/-- A1: instruction-pointer relative. -/
theorem test_run_movR32Rm32 :
    ends (step (code [0x8B#8, 0x05#8, 0x10#8, 0x00#8, 0x00#8, 0x00#8] (bytesAt 0x32 [0x01#8, 0x02#8, 0x03#8, 0x84#8] { l64 with pc := 0x1C#64 })))
      (fun t => t.gpr.rax == 0x84030201#64) = true := by decide

/-- M5: the address uses the old value. -/
theorem test_run_movR64Rm64 :
    ends (step (code [0x48#8, 0x8B#8, 0x00#8] (reg .rax 0x1000#64 (bytesAt 0x1000 [0x88#8, 0x77#8, 0x66#8, 0x55#8, 0x44#8, 0x33#8, 0x22#8, 0x11#8] l64))))
      (fun t => t.gpr.rax == 0x1122334455667788#64) = true := by decide

/-- S2. -/
theorem test_run_movRm16Sreg :
    ends (step (code [0x66#8, 0x8C#8, 0xD8#8] (reg .rax 0xFFFFFFFFFFFFFFFF#64 l64)))
      (fun t => t.gpr.rax == 0xFFFFFFFFFFFF0010#64) = true := by decide

/-- M9: two bytes in memory. -/
theorem test_run_movR32M16Sreg :
    ends (step (code [0x8C#8, 0x23#8] (reg .rbx 0x1000#64 (bytesAt 0x1000 [0xAA#8, 0xAA#8, 0xAA#8, 0xAA#8] l64))))
      (fun t => memGet t.mem 0x1000 == some 0x10#8 && memGet t.mem 0x1001 == some 0x00#8 && memGet t.mem 0x1002 == some 0xAA#8 && memGet t.mem 0x1003 == some 0xAA#8) = true := by decide

/-- S3. -/
theorem test_run_movR64M16Sreg :
    ends (step (code [0x48#8, 0x8C#8, 0xD8#8] (reg .rax 0xFFFFFFFFFFFFFFFF#64 l64)))
      (fun t => t.gpr.rax == 0x10#64) = true := by decide

/-- S23: SS, and R59 for the Accessed bit. -/
theorem test_run_movSregRm16 :
    ends (step (code [0x8E#8, 0xD0#8] (reg .rax 0x10#64 (table p32))))
      (fun t => t.seg.ss.sel == 0x10#16 && t.inhibit && memGet t.mem 0x5015 == some 0x93#8 && t.flags == p32.flags) = true := by decide

/-- S44. -/
theorem test_run_movSregRm16_real :
    ends (step (code [0x8E#8, 0xD8#8] (reg .rax 0x1234#64 r16)))
      (fun t => t.seg.ds.sel == 0x1234#16 && t.seg.ds.hid.base == 0x12340#64 && !t.inhibit) = true := by decide

/-- S43. -/
theorem test_run_movSregRm64 :
    ends (step (code [0x48#8, 0x8E#8, 0xE0#8] (reg .rax 0xFFFFFFFFFFFF0010#64 (table l64))))
      (fun t => t.seg.fs.sel == 0x10#16 && t.seg.fs.hid.kind == .desc) = true := by decide

/-- R175: `A0 78 56 34 12`. -/
theorem test_run_movAlMoffs8 :
    ends (step (code [0xA0#8, 0x78#8, 0x56#8, 0x34#8, 0x12#8] (reg .rax 0xFFFF#64 (bytesAt 0x12345678 [0x5A#8] p32))))
      (fun t => t.gpr.rax == 0xFF5A#64) = true := by decide

/-- R176: one byte. -/
theorem test_run_movAlMoffs8RexW :
    ends (step (code [0x48#8, 0xA0#8, 0x00#8, 0x10#8, 0x00#8, 0x00#8, 0x00#8, 0x00#8, 0x00#8, 0x00#8] (reg .rax 0xFFFF#64 (bytesAt 0x1000 [0x5A#8] l64))))
      (fun t => t.gpr.rax == 0xFF5A#64) = true := by decide

/-- R177. -/
theorem test_run_movAxMoffs16 :
    ends (step (code [0x66#8, 0xA1#8, 0x00#8, 0x10#8, 0x00#8, 0x00#8, 0x00#8, 0x00#8, 0x00#8, 0x00#8] (reg .rax 0xFFFFFFFF#64 (bytesAt 0x1000 [0x34#8, 0x12#8] l64))))
      (fun t => t.gpr.rax == 0xFFFF1234#64) = true := by decide

/-- R178. -/
theorem test_run_movEaxMoffs32 :
    ends (step (code [0xA1#8, 0x00#8, 0x10#8, 0x00#8, 0x00#8, 0x00#8, 0x00#8, 0x00#8, 0x00#8] (reg .rax 0xFFFFFFFFFFFFFFFF#64 (bytesAt 0x1000 [0x78#8, 0x56#8, 0x34#8, 0x12#8] l64))))
      (fun t => t.gpr.rax == 0x12345678#64) = true := by decide

/-- M8. -/
theorem test_run_movRaxMoffs64 :
    ends (step (code [0x48#8, 0xA1#8, 0x00#8, 0x10#8, 0x00#8, 0x00#8, 0x00#8, 0x00#8, 0x00#8, 0x00#8] (bytesAt 0x1000 [0x88#8, 0x77#8, 0x66#8, 0x55#8, 0x44#8, 0x33#8, 0x22#8, 0x11#8] l64)))
      (fun t => t.gpr.rax == 0x1122334455667788#64) = true := by decide

/-- M11. -/
theorem test_run_movMoffs8Al :
    ends (step (code [0xA2#8, 0x34#8, 0x12#8] (reg .rax 0x78#64 { r16 with seg := r16.seg.set .ds (v86Seg 0x1234#16) })))
      (fun t => memGet t.mem 0x13574 == some 0x78#8) = true := by decide

/-- R181: one byte. -/
theorem test_run_movMoffs8AlRexW :
    ends (step (code [0x48#8, 0xA2#8, 0x00#8, 0x10#8, 0x00#8, 0x00#8, 0x00#8, 0x00#8, 0x00#8, 0x00#8] (reg .rax 0x1278#64 l64)))
      (fun t => memGet t.mem 0x1000 == some 0x78#8 && memGet t.mem 0x1001 == none) = true := by decide

/-- R182. -/
theorem test_run_movMoffs16Ax :
    ends (step (code [0x66#8, 0xA3#8, 0x00#8, 0x10#8, 0x00#8, 0x00#8, 0x00#8, 0x00#8, 0x00#8, 0x00#8] (reg .rax 0x12345678#64 l64)))
      (fun t => memGet t.mem 0x1000 == some 0x78#8 && memGet t.mem 0x1001 == some 0x56#8 && memGet t.mem 0x1002 == none) = true := by decide

/-- M10. -/
theorem test_run_movMoffs32Eax :
    ends (step (code [0xA3#8, 0x78#8, 0x56#8, 0x34#8, 0x12#8] (reg .rax 0xCAFEF00D#64 p32)))
      (fun t => memGet t.mem 0x12345678 == some 0x0D#8 && memGet t.mem 0x12345679 == some 0xF0#8 && memGet t.mem 0x1234567A == some 0xFE#8 && memGet t.mem 0x1234567B == some 0xCA#8) = true := by decide

/-- R184. -/
theorem test_run_movMoffs64Rax :
    ends (step (code [0x48#8, 0xA3#8, 0x00#8, 0x10#8, 0x00#8, 0x00#8, 0x00#8, 0x00#8, 0x00#8, 0x00#8] (reg .rax 0x1122334455667788#64 l64)))
      (fun t => memGet t.mem 0x1000 == some 0x88#8 && memGet t.mem 0x1001 == some 0x77#8 && memGet t.mem 0x1002 == some 0x66#8 && memGet t.mem 0x1003 == some 0x55#8 && memGet t.mem 0x1004 == some 0x44#8 && memGet t.mem 0x1005 == some 0x33#8 && memGet t.mem 0x1006 == some 0x22#8 && memGet t.mem 0x1007 == some 0x11#8) = true := by decide

/-- G14. -/
theorem test_run_movR8Imm8 :
    ends (step (code [0xB4#8, 0x7F#8] (reg .rax 0x1234ABCD#64 l64)))
      (fun t => t.gpr.rax == 0x12347FCD#64) = true := by decide

/-- G16. -/
theorem test_run_movR8Imm8Rex :
    ends (step (code [0x41#8, 0xB1#8, 0x05#8] (reg .r9 0xFFFFFFFFFFFFFFFF#64 l64)))
      (fun t => t.gpr.r9 == 0xFFFFFFFFFFFFFF05#64) = true := by decide

/-- G13. -/
theorem test_run_movR16Imm16 :
    ends (step (code [0x66#8, 0xB8#8, 0xCD#8, 0xAB#8] (reg .rax 0x12345678#64 l64)))
      (fun t => t.gpr.rax == 0x1234ABCD#64) = true := by decide

/-- G9: no sign extension. -/
theorem test_run_movR32Imm32 :
    ends (step (code [0xB8#8, 0xFF#8, 0xFF#8, 0xFF#8, 0xFF#8] (reg .rax 0x1234567812345678#64 l64)))
      (fun t => t.gpr.rax == 0xFFFFFFFF#64) = true := by decide

/-- G18. -/
theorem test_run_movR64Imm64 :
    ends (step (code [0x49#8, 0xBB#8, 0x88#8, 0x77#8, 0x66#8, 0x55#8, 0x44#8, 0x33#8, 0x22#8, 0x11#8] (l64)))
      (fun t => t.gpr.r11 == 0x1122334455667788#64 && t.pc == 0x10A#64) = true := by decide

/-- X43. -/
theorem test_run_movRm8Imm8 :
    ends (step (code [0xC6#8, 0x03#8, 0x5A#8] (reg .rbx 0x1000#64 l64)))
      (fun t => memGet t.mem 0x1000 == some 0x5A#8) = true := by decide

/-- X45. -/
theorem test_run_movRm8Imm8Rex :
    ends (step (code [0x40#8, 0xC6#8, 0xC6#8, 0x07#8] (reg .rsi 0xFFFF#64 l64)))
      (fun t => t.gpr.rsi == 0xFF07#64) = true := by decide

/-- X107, A15. -/
theorem test_run_movRm16Imm16 :
    ends (step (code [0xC7#8, 0x06#8, 0x00#8, 0x20#8, 0xEF#8, 0xBE#8] (r16)))
      (fun t => memGet t.mem 0x2000 == some 0xEF#8 && memGet t.mem 0x2001 == some 0xBE#8) = true := by decide

/-- M1. -/
theorem test_run_movRm32Imm32 :
    ends (step (code [0xC7#8, 0x03#8, 0x44#8, 0x33#8, 0x22#8, 0x11#8] (reg .rbx 0x1000#64 l64)))
      (fun t => memGet t.mem 0x1000 == some 0x44#8 && memGet t.mem 0x1001 == some 0x33#8 && memGet t.mem 0x1002 == some 0x22#8 && memGet t.mem 0x1003 == some 0x11#8) = true := by decide

/-- M4: sign-extended. -/
theorem test_run_movRm64Imm32 :
    ends (step (code [0x48#8, 0xC7#8, 0x03#8, 0xFE#8, 0xFF#8, 0xFF#8, 0xFF#8] (reg .rbx 0x1000#64 l64)))
      (fun t => memGet t.mem 0x1000 == some 0xFE#8 && memGet t.mem 0x1001 == some 0xFF#8 && memGet t.mem 0x1002 == some 0xFF#8 && memGet t.mem 0x1003 == some 0xFF#8 && memGet t.mem 0x1004 == some 0xFF#8 && memGet t.mem 0x1005 == some 0xFF#8 && memGet t.mem 0x1006 == some 0xFF#8 && memGet t.mem 0x1007 == some 0xFF#8) = true := by decide

/-- C51: no privilege test in REAL mode. -/
theorem test_run_movR32Cr :
    ends (step (code [0x0F#8, 0x20#8, 0xC2#8] (only32 { r16 with cpl := 3#2 })))
      (fun t => t.gpr.rdx == 0x60000010#64) = true := by decide

/-- C9. -/
theorem test_run_movR64Cr :
    ends (step (code [0x41#8, 0x0F#8, 0x20#8, 0xE1#8] (l64)))
      (fun t => t.gpr.r9 == 0x6A0#64) = true := by decide

/-- C6. -/
theorem test_run_movR64Cr8 :
    ends (step (code [0x44#8, 0x0F#8, 0x20#8, 0xC0#8] ({ l64 with cr := l64.cr.set .cr8 5#64 })))
      (fun t => t.gpr.rax == 5#64) = true := by decide

/-- C47: a change of PAE ends the run. -/
theorem test_run_movCrR32 :
    ends (step (code [0x0F#8, 0x22#8, 0xE0#8] (reg .rax 0x20#64 p32)))
      (fun t => t.cr.cr4 == 0x20#64 && t.modeChanged && t.mode == .prot) = true := by decide

/-- C24, C25: ET and the reserved bits of CR0. -/
theorem test_run_movCrR64 :
    ends (step (code [0x0F#8, 0x22#8, 0xC0#8] (reg .rax 0x80058023#64 l64)))
      (fun t => t.cr.cr0 == 0x80050033#64 && !t.modeChanged) = true := by decide

/-- C7. -/
theorem test_run_movCr8R64 :
    ends (step (code [0x44#8, 0x0F#8, 0x22#8, 0xC1#8] (reg .rcx 0xF#64 l64)))
      (fun t => t.cr.cr8 == 0xF#64) = true := by decide

/-- D2, D16: DR4 is DR6. -/
theorem test_run_movR32Dr :
    ends (step (code [0x0F#8, 0x21#8, 0xE0#8] (only32 p32)))
      (fun t => t.gpr.rax == 0xFFFF0FF0#64) = true := by decide

/-- D14. -/
theorem test_run_movR64Dr :
    ends (step (code [0x41#8, 0x0F#8, 0x21#8, 0xC1#8] ({ l64 with dr := l64.dr.set .dr0 0x1234#64 })))
      (fun t => t.gpr.r9 == 0x1234#64) = true := by decide

/-- D15. -/
theorem test_run_movDrR32 :
    ends (step (code [0x0F#8, 0x23#8, 0xF9#8] (reg .rcx 0xFFFFFFFF00000401#64 p32)))
      (fun t => t.dr.dr7 == 0x401#64) = true := by decide

/-- D5: no test of the upper bits of DR0. -/
theorem test_run_movDrR64 :
    ends (step (code [0x0F#8, 0x23#8, 0xC3#8] (reg .rbx 0xFFFFFFFF00000000#64 l64)))
      (fun t => t.dr.dr0 == 0xFFFFFFFF00000000#64) = true := by decide

/-- F8: no NULL-segment fault in LONG64. -/
theorem test_run_null_ds_in_long :
    ends (step (code [0x8B#8, 0x03#8] (reg .rbx 0x1000#64 (bytesAt 0x1000 [1#8, 0#8, 0#8, 0#8] { l64 with seg := l64.seg.set .ds { flatData with hid := { flatData.hid with kind := .null } } }))))
      (fun t => t.gpr.rax == 1#64) = true := by decide

/-- S20. -/
theorem test_run_null_load :
    ends (step (code [0x8E#8, 0xD8#8] (reg .rax 3#64 p32)))
      (fun t => t.seg.ds.sel == 3#16 && t.seg.ds.hid.kind == .null) = true := by decide

/-- F1. -/
theorem test_fault_noncanonical :
    faults (step (code [0xA0#8, 0x88#8, 0x77#8, 0x66#8, 0x55#8, 0x44#8, 0x33#8, 0x22#8, 0x11#8] (l64)))
      (.exception .gp (.code 0) 0x100#64) = true := by decide

/-- F3. -/
theorem test_fault_noncanonical_stack :
    faults (step (code [0x48#8, 0x8B#8, 0x45#8, 0xF8#8] (reg .rbp 0x0000800000000008#64 l64)))
      (.exception .ss (.code 0) 0x100#64) = true := by decide

/-- F5. -/
theorem test_fault_noncanonical_last_byte :
    faults (step (code [0x48#8, 0x8B#8, 0x03#8] (reg .rbx 0x00007FFFFFFFFFF9#64 l64)))
      (.exception .gp (.code 0) 0x100#64) = true := by decide

/-- F13. -/
theorem test_fault_limit :
    faults (step (code [0xA1#8, 0xFE#8, 0xFF#8, 0x00#8, 0x00#8] ({ p32 with seg := p32.seg.set .ds { flatData with hid := { flatData.hid with attr := { flatData.hid.attr with limit := 0xFFFF#20, g := false } } } })))
      (.exception .gp (.code 0) 0x100#64) = true := by decide

/-- F16. -/
theorem test_fault_not_writable :
    faults (step (code [0x89#8, 0x03#8] (reg .rbx 0x1000#64 { p32 with seg := p32.seg.set .ds { flatData with hid := Hidden.ofDesc 0x00CF91000000FFFF#64 } })))
      (.exception .gp (.code 0) 0x100#64) = true := by decide

/-- F20. -/
theorem test_fault_limit_real :
    faults (step (code [0x89#8, 0x00#8] (reg .rbx 0xFFF0#64 (reg .rsi 0xF#64 r16))))
      (.exception .gp .none 0x100#64) = true := by decide

/-- F23. -/
theorem test_fault_limit_v86 :
    faults (step (code [0x89#8, 0x00#8] (reg .rbx 0xFFF0#64 (reg .rsi 0xF#64 v16))))
      (.exception .gp (.code 0) 0x100#64) = true := by decide

/-- F9. -/
theorem test_fault_alignment :
    faults (step (code [0x8B#8, 0x43#8, 0x01#8] (reg .rbx 0x1000#64 { l64 with cpl := 3#2, ac := true })))
      (.exception .ac (.code 0) 0x100#64) = true := by decide

/-- F12. -/
theorem test_fault_page :
    faults (step (code [0x8B#8, 0x03#8] (reg .rbx 0x1000#64 { l64 with params := { Params.suggested with translate := [{ epoch := 0, access := .read, first := 0x1000, count := 4, conds := [], target := .pageFault 4 }] } })))
      (.exception .pf (.code 4) 0x100#64) = true := by decide

/-- S14. -/
theorem test_fault_not_present :
    faults (step (code [0x8E#8, 0xD8#8] (reg .rax 0x28#64 (table p32))))
      (.exception .np (.code 0x28) 0x100#64) = true := by decide

/-- S28. -/
theorem test_fault_stack_not_present :
    faults (step (code [0x8E#8, 0xD0#8] (reg .rax 0x28#64 (table p32))))
      (.exception .ss (.code 0x28) 0x100#64) = true := by decide

/-- S16. -/
theorem test_fault_outside_table :
    faults (step (code [0x8E#8, 0xD8#8] (reg .rax 0xFFFB#64 (table p32))))
      (.exception .gp (.code 0xFFF8) 0x100#64) = true := by decide

/-- S40. -/
theorem test_fault_load_cs :
    faults (step (code [0x8E#8, 0xC8#8] (l64)))
      (.exception .ud .none 0x100#64) = true := by decide

/-- F25. -/
theorem test_fault_lock :
    faults (step (code [0xF0#8, 0x88#8, 0x0B#8] (l64)))
      (.exception .ud .none 0x100#64) = true := by decide

/-- C4: #UD before the privilege test. -/
theorem test_fault_cr1 :
    faults (step (code [0x0F#8, 0x20#8, 0xC8#8] ({ l64 with cpl := 3#2 })))
      (.exception .ud .none 0x100#64) = true := by decide

/-- C2. -/
theorem test_fault_cr_privilege :
    faults (step (code [0x0F#8, 0x20#8, 0xC0#8] ({ l64 with cpl := 3#2 })))
      (.exception .gp (.code 0) 0x100#64) = true := by decide

/-- C29. -/
theorem test_fault_cr0_real :
    faults (step (code [0x0F#8, 0x22#8, 0xC0#8] (reg .rax 0x80000010#64 r16)))
      (.exception .gp .none 0x100#64) = true := by decide

/-- C31. -/
theorem test_fault_cr3_bit63 :
    faults (step (code [0x0F#8, 0x22#8, 0xD9#8] (reg .rcx 0x8000000000200000#64 l64)))
      (.exception .gp (.code 0) 0x100#64) = true := by decide

/-- D6. -/
theorem test_fault_dr6_upper :
    faults (step (code [0x0F#8, 0x23#8, 0xF0#8] (reg .rax 0x0000000100000000#64 l64)))
      (.exception .gp (.code 0) 0x100#64) = true := by decide

/-- D9. -/
theorem test_fault_general_detect :
    faults (step (code [0x0F#8, 0x21#8, 0xF8#8] ({ l64 with dr := l64.dr.set .dr7 0x2400#64 })))
      (.exception .db .none 0x100#64) = true := by decide

/-- 10_state.md R58, 92 D10. -/
theorem test_fault_unwritten :
    faults (step (code [0x8B#8, 0x03#8] (reg .rbx 0x1000#64 l64)))
      (.unwritten 0x1000) = true := by decide

/-- 20_memory.md R90, R91, 92 D10: the second byte of the store does not exist. -/
theorem test_fault_not_owned :
    faults (step (code [0x66#8, 0x89#8, 0x03#8] (reg .rbx 0x1000#64 { l64 with owned := [{ first := 0, count := 0x1001 }] })))
      (.notOwned 0x1001) = true := by decide

/-- R334. -/
theorem test_fault_interrupt :
    faults (step (code [0x8B#8, 0x03#8] ({ l64 with offers := [some .interrupt] })))
      (.interrupted 0x100#64) = true := by decide

/-- X78. -/
theorem test_refused_no_row :
    refuses (step (code [0x90#8] (l64)))
      (.notAMov (.opcode 0x90#8) 0x100#64) = true := by decide

/-- R335, 41_mov_sreg.md R215: no interrupt is delivered at the boundary after a load of SS, and one is at the next. -/
theorem test_run_inhibition :
    ends (step (code [0xB8#8, 0x01#8, 0x00#8] { r16 with inhibit := true, offers := [some .interrupt] }))
      (fun t => !t.inhibit && t.gpr.rax == 1#64) = true := by decide

/-- Reads of 1000h page-fault while the byte at 3000h, of a page table, is 0, and go to 2000h otherwise. -/
def paged (s : State) : State :=
  { s with params :=
    { Params.suggested with translate :=
      [{ epoch := 0, access := .read, first := 0x1000, count := 4,
         conds := [{ part := .byte 0x3000, value := some { mask := 0xFF#64, pat := 0#64 } }], target := .pageFault 4 },
       { epoch := 0, access := .read, first := 0x1000, count := 4, conds := [], target := .phys 0x2000 }] } }

/-- 00_scope.md R6, R83, R99: a store to a page table changes what `Translate` answers, without a write of CR0, CR3 or CR4. -/
theorem test_store_to_page_table :
    (paged (bytesAt 0x3000 [1#8] l64)).translateByte .read 0x1001 = .ok 0x2001 ∧
    ends (step (code [0xC6#8, 0x03#8, 0x00#8] (reg .rbx 0x3000#64 (paged (bytesAt 0x3000 [1#8] l64)))))
      (fun t => t.epoch == 0 && (t.translateByte .read 0x1001 matches .error 4)) = true := by decide

/-- R98: a byte that a MOV of this run has written is not run. -/
theorem test_refused_self_modified :
    refuses (step { code [0xB0#8, 0x01#8] l64 with stored := [0x101] }) (.selfModified 0x101) = true := by decide

/-- R262: after a change of PE, PG or PAE the run has ended. -/
theorem test_refused_mode_change :
    refuses (step (code [0xB0#8, 0x01#8] { l64 with modeChanged := true })) (.modeChange 0x100#64) = true := by decide

/-! ### The words of the opcode table, in the state after reset -/

/-- Row 1 with ModR/M 00 (log 33). -/
theorem test_table_word : decodeTableWord 16 0x8800 = some (.movRm8R8 ⟨[], none⟩ (.mem (.based16 .bxSi .none)) .rax) := by
  decide

/-- Row 36 (log 33). -/
theorem test_table_word_0F : decodeTableWord 24 0x0F2000 = some (.movR32Cr ⟨[], none⟩ 0#2 .rax .cr0) := by decide

set_option maxRecDepth 4000 in
/-- A step from reset runs the instruction of a table word placed at its fetch (log 1, log 33). -/
theorem test_withFetchWord :
    ends (step (State.reset.withFetchWord 8 0xB9)) (fun t => t.gpr.rcx == 0#64 && t.pc == 0xFFF3#64) = true := by decide

/-- A step from reset with nothing placed: no byte is supplied (log 1). -/
theorem test_refused_reset : refuses (step State.reset) (.fetch 0xFFF0#64) = true := by decide

/-! ### The hypotheses of the statements can be met -/

theorem next_of {o : Outcome} (h : ends o (fun _ => true) = true) : ∃ t, o = .next t :=
  (next_of_ends h).imp fun _ x => x.1

/-- No legacy bytes, no REX. -/
def p0 : Pfx := ⟨[], none⟩
/-- The operand-size byte. -/
def p66 : Pfx := ⟨[.opSize], none⟩
/-- A LOCK byte. -/
def pLock : Pfx := ⟨[.lock], none⟩
/-- REX. -/
def pRex : Pfx := ⟨[], some ⟨false, false, false, false⟩⟩
/-- REX.W. -/
def pRexW : Pfx := ⟨[], some ⟨true, false, false, false⟩⟩
/-- REX.R. -/
def pRexR : Pfx := ⟨[], some ⟨false, true, false, false⟩⟩
/-- [RBX] or [EBX]. -/
def atBx : MemOp := .based .rbx .none

theorem witness_DecodeEncode :
    Instr.wf ⟨true, false⟩ (.movR64Imm64 ⟨[], some ⟨true, false, false, true⟩⟩ .r15 0xFFFFFFFFFFFFFFFF#64) = true := by
  decide

theorem witness_EncodeDecode :
    decode ⟨true, false⟩ ([0x66#8, 0x67#8, 0x2E#8, 0x49#8] ++ [0x89#8, 0xC7#8, 0x90#8]) =
      .ok (.movRm64R64 ⟨[.opSize, .addrSize, .seg .cs], some ⟨true, false, false, true⟩⟩ (.reg .r15) .rax, [0x90#8]) := by
  decide

/-- Two bytes that end one below the top of the address space. -/
def nearTop : State := code [0x88#8, 0xDC#8] { l64 with pc := 0xFFFFFFFFFFFFFFFD#64 }

theorem witness_StepRunsDecoded :
    nearTop.modeChanged = false ∧ nearTop.delivered = none ∧
    decode nearTop.env (nearTop.fetchBytes 15 0).1 = .ok (.movRm8R8 p0 (.reg .rsp) .rbx, []) ∧
    (nearTop.mode = .long64 ∧ nearTop.pc.toNat + instrLength (.movRm8R8 p0 (.reg .rsp) .rbx) < 2 ^ 64) := by decide

theorem witness_StepRunsEncoded :
    nearTop.modeChanged = false ∧ nearTop.delivered = none ∧
    Instr.wf nearTop.env (.movRm8R8 p0 (.reg .rsp) .rbx) = true ∧
    (∀ k, k < (encode (.movRm8R8 p0 (.reg .rsp) .rbx)).length →
      nearTop.fetchByte k = .ok ((encode (.movRm8R8 p0 (.reg .rsp) .rbx)).getD k 0#8)) ∧
    (nearTop.mode = .long64 ∧ nearTop.pc.toNat + (encode (.movRm8R8 p0 (.reg .rsp) .rbx)).length < 2 ^ 64) := by decide

/-- Two bytes that end at the top of the address space. -/
def atTop : State := code [0x88#8, 0xDC#8] { l64 with pc := 0xFFFFFFFFFFFFFFFE#64 }

/-- With the bytes below an address alone. -/
def below (a : Nat) (s : State) : State := { s with owned := [{ first := 0, count := a }] }

/-- A first byte that nothing has written, at the limit and past it, and one of this run; bytes that no row has; an
instruction that ends at the top of the address space. -/
theorem witness_FetchRefused :
    (r16.modeChanged = false ∧ r16.delivered = none ∧
      { r16 with pc := 0xFFFF#64 }.fetchByte 0 = .error (.fetch 0xFFFF#64) ∧
      { r16 with pc := 0x10000#64 }.fetchByte 0 = .error (.fetch 0x10000#64)) ∧
    (l64.fetchAddr 0 = some 0x100 ∧ 0x100 ∈ { l64 with stored := [0x100] }.stored) ∧
    decode l64.env ((code [0x90#8] l64).fetchBytes 15 0).1 = .error (.opcode 0x90#8) ∧
    (atTop.modeChanged = false ∧ atTop.delivered = none ∧
      decode atTop.env (atTop.fetchBytes 15 0).1 = .ok (.movRm8R8 p0 (.reg .rsp) .rbx, []) ∧ atTop.mode = .long64 ∧
      2 ^ 64 ≤ atTop.pc.toNat + instrLength (.movRm8R8 p0 (.reg .rsp) .rbx)) := by decide

set_option maxRecDepth 4000 in
/-- A second and a fifteenth byte that the decoder needs, and fifteen bytes after which it needs one more. -/
theorem witness_FetchRefused_later :
    (l64.modeChanged = false ∧ l64.delivered = none) ∧
    (∀ bs ∈ [[0x8A#8], List.replicate 14 0x66#8],
      bs.length < 15 ∧ (∀ j, j < bs.length → (code bs l64).fetchByte j = .ok (bs.getD j 0#8)) ∧
      decode l64.env bs = .error .truncated ∧ (code bs l64).fetchByte bs.length = .error (.fetch 0x100#64)) ∧
    ((List.replicate 15 0x66#8).length = 15 ∧
      (∀ j, j < 15 → (code (List.replicate 15 0x66#8) l64).fetchByte j = .ok ((List.replicate 15 0x66#8).getD j 0#8)) ∧
      decode l64.env (List.replicate 15 0x66#8) = .error .truncated) := by decide

/-- A later byte of this run; one past the limit, one that does not exist, and one without a value. -/
theorem witness_FetchRefused_bytes :
    ({ l64 with stored := [0x101] }.fetchAddr 1 = some 0x101 ∧ 0x101 ∈ { l64 with stored := [0x101] }.stored) ∧
    ({ r16 with pc := 0xFFFF#64 }.fetchAddr 1 = none ∧
      ((below 0x101 l64).fetchAddr 1 = some 0x101 ∧ 0x101 ∉ (below 0x101 l64).stored ∧ (below 0x101 l64).owns 0x101 = false) ∧
      (l64.fetchAddr 1 = some 0x101 ∧ 0x101 ∉ l64.stored ∧ memGet l64.mem 0x101 = none)) := by decide

/-- Offers for the four clauses of `BoundaryEvents`. -/
theorem witness_BoundaryEvents :
    { l64 with offers := [some .interrupt] }.modeChanged = false ∧
    ({ l64 with offers := [some .interrupt] }.offers = some .interrupt :: [] ∧ l64.inhibit = false) ∧
    (DebugKind.singleStep ∉ l64.params.debugSuppressed) ∧
    ({ l64 with offers := [some .interrupt], inhibit := true }.inhibit = true) ∧
    (DebugKind.singleStep ∈ { l64 with params := { Params.suggested with debugSuppressed := [.singleStep] } }.params.debugSuppressed) := by
  decide

theorem witness_InhibitionLastsOneStep :
    (∃ t, step (code [0x8E#8, 0xD0#8] (reg .rax 0x10#64 (table p32))) = .next t ∧ t.inhibit = true) ∧
    (∃ t, step (code [0x89#8, 0xC0#8] { l64 with inhibit := true }) = .next t ∧ (!t.inhibit) = true) :=
  ⟨next_of_ends (by decide), next_of_ends (by decide)⟩

/-- A step in each mode from a state with what `StepKeepsInv` and `StepKeepsSegments` ask. -/
def modeStates : List State :=
  [r16, p32, v16, compat, l64].map (code [0x88#8, 0xDC#8])

theorem witness_StepKeepsInv_real : Inv (code [0x88#8, 0xDC#8] r16) := by
  constructor <;>
    first
    | decide
    | exact memOwned_of_all (by decide)
    | exact fun h => absurd h (by decide)
theorem witness_StepKeepsInv_prot : Inv (code [0x88#8, 0xDC#8] p32) := by
  constructor <;>
    first
    | decide
    | exact memOwned_of_all (by decide)
    | exact fun h => absurd h (by decide)
theorem witness_StepKeepsInv_v86 : Inv (code [0x88#8, 0xDC#8] v16) := by
  constructor <;>
    first
    | decide
    | exact memOwned_of_all (by decide)
    | exact fun h => absurd h (by decide)
theorem witness_StepKeepsInv_compat : Inv (code [0x88#8, 0xDC#8] compat) := by
  constructor <;>
    first
    | decide
    | exact memOwned_of_all (by decide)
    | exact fun h => absurd h (by decide)
theorem witness_StepKeepsInv_long : Inv (code [0x88#8, 0xDC#8] l64) := by
  constructor <;>
    first
    | decide
    | exact memOwned_of_all (by decide)
    | exact fun h => absurd h (by decide)

/-- Without `HAS_INTEL64` registers 8 to 15, CR8 and the upper halves are absent. -/
theorem witness_StepKeepsInv_only32 : Inv (code [0x89#8, 0xC3#8] (only32 p32)) := by
  constructor <;>
    first
    | decide
    | exact memOwned_of_all (by decide)
    | (intro _ r; cases r <;> decide)

theorem witness_StepKeepsInv_step :
    (code [0x89#8, 0xC3#8] (only32 p32) :: modeStates).all (fun s => ends (step s) (fun _ => true)) = true := by decide

theorem witness_StepKeepsSegments :
    SegmentsOk (code [0x88#8, 0xDC#8] r16) ∧ SegmentsOk (code [0x88#8, 0xDC#8] p32) ∧
    SegmentsOk (code [0x88#8, 0xDC#8] v16) ∧ SegmentsOk (code [0x88#8, 0xDC#8] compat) ∧
    SegmentsOk (code [0x88#8, 0xDC#8] l64) := by
  refine ⟨?_, ?_, ?_, ?_, ?_⟩ <;> intro r h <;> cases r <;>
    first
    | exact absurd rfl h
    | exact And.intro (by decide) (by decide)
    | exact Or.inr (And.intro (by decide) (by decide))

theorem witness_PcAdvances : ∃ t, exec (.movR64Imm64 pRexW .rax 1#64) { l64 with pc := 0xFFFFFFFFFFFFFFFF#64 } = .next t :=
  next_of (by decide)

theorem witness_LockRaises : (instrPfx (.movRm8R8 pLock (.reg .rax) .rcx)).locked = true := by decide

theorem witness_FixedNeverWritten : ∃ t, exec (.movCrR64 p0 3#2 .cr2 .rax) l64 = .next t := next_of (by decide)

/-- At privilege level 1, and in V86 mode. -/
theorem witness_UnprivilegedKeepsSystem :
    (¬ MayMoveSystem { l64 with cpl := 1#2 } ∧ ∃ t, exec (.movR8Imm8 p0 .rax 1#8) { l64 with cpl := 1#2 } = .next t) ∧
    (¬ MayMoveSystem v16 ∧ ∃ t, exec (.movR8Imm8 p0 .rax 1#8) v16 = .next t) :=
  ⟨⟨by unfold MayMoveSystem; decide, next_of (by decide)⟩, ⟨by unfold MayMoveSystem; decide, next_of (by decide)⟩⟩

/-- A byte of the operand, and the Accessed byte of a descriptor. -/
theorem witness_StoresOnlyItsOperand :
    (∃ t, exec (.movRm8Imm8 p0 (.mem atBx) 1#8) (reg .rbx 0x1000#64 l64) = .next t ∧
      (memGet t.mem 0x1000 != memGet (reg .rbx 0x1000#64 l64).mem 0x1000) = true) ∧
    (∃ t, exec (.movSregRm16 p0 (.reg .ds) (.reg .rax)) (reg .rax 0x10#64 (table l64)) = .next t ∧
      (memGet t.mem 0x5015 != memGet (reg .rax 0x10#64 (table l64)).mem 0x5015) = true) :=
  ⟨next_of_ends (by decide), next_of_ends (by decide)⟩

theorem witness_FlagsUntouched :
    movesSystem (.movRm32R32 p0 (.reg .rax) .rcx) = false ∧
    ∃ t, exec (.movRm32R32 p0 (.reg .rax) .rcx) { l64 with flags := { l64.flags with cf := true } } = .next t :=
  ⟨rfl, next_of (by decide)⟩

theorem witness_FlagsFree :
    movesSystem (.movR64Cr p0 3#2 .rax .cr0) = true ∧ ∃ t, exec (.movR64Cr p0 3#2 .rax .cr0) l64 = .next t :=
  ⟨rfl, next_of (by decide)⟩

/-! Operands. -/

theorem witness_RmFromRegRegister : p0.locked = false ∧ pRex.locked = false ∧ p66.locked = false ∧ pRexW.locked = false := by
  decide

/-- The last canonical addresses of the lower half. -/
theorem witness_RmFromRegMemory :
    Reaches (.movRm8R8 p0 (.mem atBx) .rsp) (reg .rbx 0x7FFFFFFFFFFF#64 l64) [0x7FFFFFFFFFFF] ∧
    Reaches (.movRm8R8Rex pRex (.mem atBx) .rsp) (reg .rbx 0x7FFFFFFFFFFF#64 l64) [0x7FFFFFFFFFFF] ∧
    Reaches (.movRm16R16 p66 (.mem atBx) .rcx) (reg .rbx 0x7FFFFFFFFFFE#64 l64) [0x7FFFFFFFFFFE, 0x7FFFFFFFFFFF] ∧
    Reaches (.movRm32R32 p0 (.mem atBx) .rcx) (reg .rbx 0x7FFFFFFFFFFC#64 l64)
      [0x7FFFFFFFFFFC, 0x7FFFFFFFFFFD, 0x7FFFFFFFFFFE, 0x7FFFFFFFFFFF] ∧
    Reaches (.movRm64R64 pRexW (.mem atBx) .rcx) (reg .rbx 0x7FFFFFFFFFF8#64 l64)
      [0x7FFFFFFFFFF8, 0x7FFFFFFFFFF9, 0x7FFFFFFFFFFA, 0x7FFFFFFFFFFB, 0x7FFFFFFFFFFC, 0x7FFFFFFFFFFD,
        0x7FFFFFFFFFFE, 0x7FFFFFFFFFFF] :=
  ⟨⟨_, rfl, by decide⟩, ⟨_, rfl, by decide⟩, ⟨_, rfl, by decide⟩, ⟨_, rfl, by decide⟩, ⟨_, rfl, by decide⟩⟩

/-- Eight bytes at 1000h, and RBX there. -/
def eight (s : State) : State :=
  reg .rbx 0x1000#64 (bytesAt 0x1000 [0x88#8, 0x77#8, 0x66#8, 0x55#8, 0x44#8, 0x33#8, 0x22#8, 0x11#8] s)

theorem witness_RegFromRmMemory :
    (Reaches (.movR8Rm8 p0 .rsp (.mem atBx)) (eight l64) [0x1000] ∧ BytesAre (eight l64).mem [0x1000] 1 0x88#64) ∧
    (Reaches (.movR8Rm8Rex pRex .rsp (.mem atBx)) (eight l64) [0x1000] ∧
      BytesAre (eight l64).mem [0x1000] 1 0x88#64) ∧
    (Reaches (.movR16Rm16 p66 .rcx (.mem atBx)) (eight l64) [0x1000, 0x1001] ∧
      BytesAre (eight l64).mem [0x1000, 0x1001] 2 0x7788#64) ∧
    (Reaches (.movR32Rm32 p0 .rcx (.mem atBx)) (eight l64) [0x1000, 0x1001, 0x1002, 0x1003] ∧
      BytesAre (eight l64).mem [0x1000, 0x1001, 0x1002, 0x1003] 4 0x55667788#64) ∧
    (Reaches (.movR64Rm64 pRexW .rcx (.mem atBx)) (eight l64)
        [0x1000, 0x1001, 0x1002, 0x1003, 0x1004, 0x1005, 0x1006, 0x1007] ∧
      BytesAre (eight l64).mem [0x1000, 0x1001, 0x1002, 0x1003, 0x1004, 0x1005, 0x1006, 0x1007] 8
        0x1122334455667788#64) := by
  refine ⟨⟨⟨_, rfl, ?_⟩, ?_⟩, ⟨⟨_, rfl, ?_⟩, ?_⟩, ⟨⟨_, rfl, ?_⟩, ?_⟩, ⟨⟨_, rfl, ?_⟩, ?_⟩, ⟨⟨_, rfl, ?_⟩, ?_⟩⟩ <;>
    (try unfold BytesAre) <;> decide

theorem witness_AccFromMoffs :
    (Reaches (.movAlMoffs8 p0 (.m64 0x1000#64)) (eight l64) [0x1000] ∧ BytesAre (eight l64).mem [0x1000] 1 0x88#64) ∧
    (Reaches (.movAlMoffs8RexW pRexW (.m64 0x1000#64)) (eight l64) [0x1000] ∧
      BytesAre (eight l64).mem [0x1000] 1 0x88#64) ∧
    (Reaches (.movAxMoffs16 p66 (.m64 0x1000#64)) (eight l64) [0x1000, 0x1001] ∧
      BytesAre (eight l64).mem [0x1000, 0x1001] 2 0x7788#64) ∧
    (Reaches (.movEaxMoffs32 p0 (.m64 0x1000#64)) (eight l64) [0x1000, 0x1001, 0x1002, 0x1003] ∧
      BytesAre (eight l64).mem [0x1000, 0x1001, 0x1002, 0x1003] 4 0x55667788#64) ∧
    (Reaches (.movRaxMoffs64 pRexW (.m64 0x1000#64)) (eight l64)
        [0x1000, 0x1001, 0x1002, 0x1003, 0x1004, 0x1005, 0x1006, 0x1007] ∧
      BytesAre (eight l64).mem [0x1000, 0x1001, 0x1002, 0x1003, 0x1004, 0x1005, 0x1006, 0x1007] 8
        0x1122334455667788#64) := by
  refine ⟨⟨⟨_, rfl, ?_⟩, ?_⟩, ⟨⟨_, rfl, ?_⟩, ?_⟩, ⟨⟨_, rfl, ?_⟩, ?_⟩, ⟨⟨_, rfl, ?_⟩, ?_⟩, ⟨⟨_, rfl, ?_⟩, ?_⟩⟩ <;>
    (try unfold BytesAre) <;> decide

theorem witness_MoffsFromAcc :
    Reaches (.movMoffs8Al p0 (.m64 0x1000#64)) l64 [0x1000] ∧
    Reaches (.movMoffs8AlRexW pRexW (.m64 0x1000#64)) l64 [0x1000] ∧
    Reaches (.movMoffs16Ax p66 (.m64 0x1000#64)) l64 [0x1000, 0x1001] ∧
    Reaches (.movMoffs32Eax p0 (.m64 0x1000#64)) l64 [0x1000, 0x1001, 0x1002, 0x1003] ∧
    Reaches (.movMoffs64Rax pRexW (.m64 0x1000#64)) l64
      [0x1000, 0x1001, 0x1002, 0x1003, 0x1004, 0x1005, 0x1006, 0x1007] :=
  ⟨⟨_, rfl, by decide⟩, ⟨_, rfl, by decide⟩, ⟨_, rfl, by decide⟩, ⟨_, rfl, by decide⟩, ⟨_, rfl, by decide⟩⟩

theorem witness_RmFromImmMemory :
    Reaches (.movRm8Imm8 p0 (.mem atBx) 1#8) (eight l64) [0x1000] ∧
    Reaches (.movRm8Imm8Rex pRex (.mem atBx) 1#8) (eight l64) [0x1000] ∧
    Reaches (.movRm16Imm16 p66 (.mem atBx) 1#16) (eight l64) [0x1000, 0x1001] ∧
    Reaches (.movRm32Imm32 p0 (.mem atBx) 1#32) (eight l64) [0x1000, 0x1001, 0x1002, 0x1003] ∧
    Reaches (.movRm64Imm32 pRexW (.mem atBx) 0xFFFFFFFE#32) (eight l64)
      [0x1000, 0x1001, 0x1002, 0x1003, 0x1004, 0x1005, 0x1006, 0x1007] :=
  ⟨⟨_, rfl, by decide⟩, ⟨_, rfl, by decide⟩, ⟨_, rfl, by decide⟩, ⟨_, rfl, by decide⟩, ⟨_, rfl, by decide⟩⟩

/-- ES in PROT mode, FS in LONG64 mode, and 2E after 64 there; then each form without an override. -/
theorem witness_OperandSegment :
    (∀ y, y ∈ [LegacyPfx.opSize, .addrSize, .lock] → isSegPfx y = false) ∧
    (p32.mode ≠ .long64 ∧ p32.memSeg ⟨[.seg .ss] ++ .seg .es :: [.opSize], none⟩ (.based .rbp (.d8 0#8)) = .es ∧
      p32.moffsSeg ⟨[] ++ .seg .es :: [.opSize], none⟩ = .es) ∧
    (l64.memSeg ⟨[] ++ .seg .fs :: [], none⟩ (.based .rsi .none) = .fs) ∧
    (l64.mode = .long64 ∧ Sreg.cs ≠ .fs ∧ Sreg.cs ≠ .gs ∧
      l64.memSeg ⟨[.seg .fs] ++ .seg .cs :: [], none⟩ atBx = .fs ∧
      l64.memSeg ⟨[] ++ .seg .cs :: [], none⟩ (.sib 0#2 none .rsp .none) = .ss) ∧
    (r16.memSeg p0 (.based16 .bpDi .none) = .ss ∧ r16.memSeg p0 (.based16 .bp (.d8 0#8)) = .ss ∧
      r16.memSeg p0 (.based16 .di .none) = .ds ∧ r16.memSeg p0 (.abs16 0#16) = .ds) ∧
    (p32.memSeg p0 (.based .rbp (.d8 0#8)) = .ss ∧ p32.memSeg p0 (.sib 0#2 (some .rbp) .rax .none) = .ds ∧
      p32.memSeg p0 (.sibNoBase 0#2 (some .rbp) 0#32) = .ds ∧ p32.memSeg p0 (.abs32 0#32) = .ds ∧
      l64.memSeg p0 (.rip 0#32) = .ds ∧ l64.memSeg p0 (.based .r13 (.d8 0#8)) = .ds ∧ l64.moffsSeg p0 = .ds) := by decide

theorem witness_LimitAndCanonicalMeaning : 0 < 1 ∧ (1 ≤ 1 ∧ 1 ≤ 64) ∧ (1 ≤ 64 ∧ 64 ≤ 64) := by decide

/-- With DS a writable segment of limit FFFFh. -/
def limited (s : State) : State :=
  { s with seg := s.seg.set .ds { flatData with hid := { flatData.hid with attr := SegAttr.afterReset 3#4 } } }

/-- A data access of `n` bytes at DS:off. -/
def dsAccess (off : Word) (n : Nat) (acc : Access) : DataAccess := { seg := .ds, off := off, n := n, acc := acc }

/-- The last two bytes within a limit of FFFFh, and the last two that exist: in REAL mode, in PROT mode, and in LONG64 mode
with paging on. -/
theorem witness_AccessReaches :
    (SegmentPasses r16 (dsAccess 0xFFFE#64 2 .read) ∧ ¬ Misaligned r16 (dsAccess 0xFFFE#64 2 .read) ∧ r16.mode = .real ∧
      ∀ a ∈ [0xFFFE, 0xFFFF], (below 0x10000 r16).owns a = true) ∧
    (SegmentPasses (limited p32) (dsAccess 0xFFFE#64 2 .write) ∧
      ¬ Misaligned (limited p32) (dsAccess 0xFFFE#64 2 .write) ∧ (limited p32).cr.cr0.getLsbD 31 = false ∧
      ∀ a ∈ [0xFFFE, 0xFFFF], (limited p32).owns a = true) ∧
    (SegmentPasses l64 (dsAccess 0x7FFFFFFFFFFE#64 2 .read) ∧ ¬ Misaligned l64 (dsAccess 0x7FFFFFFFFFFE#64 2 .read) ∧
      translateAccess l64 (dsAccess 0x7FFFFFFFFFFE#64 2 .read) = .ok [0x7FFFFFFFFFFE, 0x7FFFFFFFFFFF] ∧
      ∀ a ∈ [0x7FFFFFFFFFFE, 0x7FFFFFFFFFFF], l64.owns a = true) := by
  unfold Misaligned
  refine ⟨⟨?_, by decide, by decide⟩, ⟨?_, by decide, by decide⟩, ⟨?_, by decide, by decide⟩⟩
  · change SegAttr.inLimit _ _ _ = true; decide
  · exact And.intro (by decide) (And.intro (by decide) (by decide))
  · change ∀ k, k < 2 → _; decide

/-- `mov [bx], ax`, which writes two bytes. -/
def store16 : Instr := .movRm16R16 p66 (.mem atBx) .rax

/-- NULL segment; the first byte past the limit; not writable; the limit in V86 and in REAL mode; and the first address that
is not canonical. -/
theorem witness_SegmentFaults :
    (instrPfx store16).locked = false ∧
    (∃ s d, dataAccess store16 s = some d ∧ s.mode = .prot ∧ DataSreg d.seg ∧ (s.seg.get d.seg).hid.kind = .null) ∧
    (∃ s d, dataAccess store16 s = some d ∧ s.mode = .prot ∧
      ¬ (DataSreg d.seg ∧ (s.seg.get d.seg).hid.kind = .null) ∧
      (s.seg.get d.seg).hid.attr.inLimit d.off.toNat d.n = false) ∧
    (∃ s d, dataAccess store16 s = some d ∧ s.mode = .compat ∧
      ¬ (DataSreg d.seg ∧ (s.seg.get d.seg).hid.kind = .null) ∧
      (s.seg.get d.seg).hid.attr.inLimit d.off.toNat d.n = true ∧ d.acc = .write ∧
      (s.seg.get d.seg).hid.attr.writable = false) ∧
    (∃ s d, dataAccess store16 s = some d ∧ s.mode = .v86 ∧
      (s.seg.get d.seg).hid.attr.inLimit d.off.toNat d.n = false) ∧
    (∃ s d, dataAccess store16 s = some d ∧ s.mode = .real ∧
      (s.seg.get d.seg).hid.attr.inLimit d.off.toNat d.n = false) ∧
    (∃ s d, dataAccess store16 s = some d ∧ s.mode = .long64 ∧
      ∃ k, k < d.n ∧ canonical s.params.vaBits ((s.linear d.seg d.off + k) % 2 ^ 64) = false) := by
  unfold DataSreg
  refine ⟨by decide, ?_, ?_, ?_, ?_, ?_, ?_⟩
  · exact ⟨eight { p32 with seg := p32.seg.set .ds { flatData with hid := { flatData.hid with kind := .null } } }, _, rfl,
      by decide⟩
  · exact ⟨reg .rbx 0xFFFF#64 (limited p32), _, rfl, by decide⟩
  · exact ⟨eight { compat with seg := compat.seg.set .ds { flatData with hid := Hidden.ofDesc 0x00CF91000000FFFF#64 } }, _,
      rfl, by decide⟩
  · exact ⟨reg .rbx 0xFFFF#64 v16, _, rfl, by decide⟩
  · exact ⟨reg .rbx 0xFFFF#64 r16, _, rfl, by decide⟩
  · exact ⟨reg .rbx 0x7FFFFFFFFFFF#64 l64, _, rfl, by decide⟩

/-- A page fault with code 4 on each access of the kind to one linear address. -/
def faultingAt (acc : Access) (a : Nat) (s : State) : State :=
  { s with params :=
    { Params.suggested with translate := [{ epoch := 0, access := acc, first := a, count := 1, conds := [], target := .pageFault 4 }] } }

/-- The state at privilege level 3 with the alignment check on. -/
def checked (s : State) : State := { s with cpl := 3#2, ac := true }

/-- `mov ax, [rbx]`, whose two bytes are at 1001h and 1002h. -/
def load16 : Instr := .movR16Rm16 p66 .rax (.mem atBx)

/-- RBX is 1001h, and of the bytes there only the first has a value. -/
def odd (s : State) : State := reg .rbx 0x1001#64 (bytesAt 0x1001 [1#8] s)

theorem witness_AlignmentAndPageFaults :
    (instrPfx load16).locked = false ∧
    (∀ s ∈ [odd l64, odd (below 0x1002 l64), odd (checked l64), odd (faultingAt .read 0x1002 l64), odd (checked (faultingAt .read 0x1002 l64))],
      dataAccess load16 s = some (dsAccess 0x1001#64 2 .read) ∧
      ∀ k, k < 2 → canonical s.params.vaBits ((s.linear .ds 0x1001#64 + k) % 2 ^ 64) = true) ∧
    (translateAccess (odd (checked l64)) (dsAccess 0x1001#64 2 .read) = .ok [0x1001, 0x1002] ∧
      Misaligned (odd (checked l64)) (dsAccess 0x1001#64 2 .read)) ∧
    (translateAccess (odd (faultingAt .read 0x1002 l64)) (dsAccess 0x1001#64 2 .read) = .error 4 ∧
      ¬ Misaligned (odd (faultingAt .read 0x1002 l64)) (dsAccess 0x1001#64 2 .read)) ∧
    (translateAccess (odd (checked (faultingAt .read 0x1002 l64))) (dsAccess 0x1001#64 2 .read) = .error 4 ∧
      Misaligned (odd (checked (faultingAt .read 0x1002 l64))) (dsAccess 0x1001#64 2 .read)) ∧
    (translateAccess (odd l64) (dsAccess 0x1001#64 2 .read) = .ok [0x1001, 0x1002] ∧
      ¬ Misaligned (odd l64) (dsAccess 0x1001#64 2 .read) ∧
      (∀ a ∈ [0x1001, 0x1002], (odd l64).owns a = true) ∧ memGet (odd l64).mem 0x1002 = none ∧
      (memGet (odd l64).mem 0x1001).isSome = true) ∧
    (translateAccess (odd (below 0x1002 l64)) (dsAccess 0x1001#64 2 .read) = .ok [0x1001, 0x1002] ∧
      ¬ Misaligned (odd (below 0x1002 l64)) (dsAccess 0x1001#64 2 .read) ∧
      (odd (below 0x1002 l64)).owns 0x1002 = false ∧ (odd (below 0x1002 l64)).owns 0x1001 = true) := by
  unfold Misaligned
  decide

theorem witness_ReadAfterWrite :
    (∃ t, l64.logWrite .ds 0x1000#64 8 0x1122334455667788#64 = .ok t ∧
      t.physBytes .ds 0x1000#64 8 .read = .ok [0x1000, 0x1001, 0x1002, 0x1003, 0x1004, 0x1005, 0x1006, 0x1007]) ∧
    l64.physBytes .ds 0x1000#64 8 .write = .ok [0x1000, 0x1001, 0x1002, 0x1003, 0x1004, 0x1005, 0x1006, 0x1007] ∧
    [0x1000, 0x1001, 0x1002, 0x1003, 0x1004, 0x1005, 0x1006, 0x1007].Nodup :=
  ⟨⟨_, rfl, by decide⟩, by decide, by decide⟩

/-! Segment registers. -/

/-- A processor that leaves bits 31:16 of a register undefined (41_mov_sreg.md R219). -/
def oldSreg (s : State) : State := { s with params := { s.params with sregUpperZero := false } }

/-- With each value of the two parameters that the 32-bit row asks. -/
theorem witness_SregToRegister :
    p0.locked = false ∧ (l64.params.sregUpperZero = true ∧ l64.params.hasIntel64 = true) ∧
    ((only32 p32).params.sregUpperZero = true ∧ (only32 p32).params.hasIntel64 = false) ∧
    ((oldSreg p32).params.sregUpperZero = false ∧ (oldSreg p32).params.hasIntel64 = true) ∧
    ((oldSreg (only32 p32)).params.sregUpperZero = false ∧ (oldSreg (only32 p32)).params.hasIntel64 = false ∧
      ∃ t, exec (.movR32M16Sreg p0 (.reg .rax) (.reg .ds)) (oldSreg (only32 p32)) = .next t ∧
        (t.draws == 1) = true) :=
  ⟨by decide, by decide, by decide, by decide, by decide, by decide, next_of_ends (by decide)⟩

theorem witness_SregToMemory :
    Reaches (.movRm16Sreg p66 (.mem atBx) (.reg .gs)) (eight l64) [0x1000, 0x1001] ∧
    Reaches (.movR32M16Sreg p0 (.mem atBx) (.reg .cs)) (eight l64) [0x1000, 0x1001] ∧
    Reaches (.movR64M16Sreg pRexW (.mem atBx) (.reg .es)) (eight l64) [0x1000, 0x1001] :=
  ⟨⟨_, rfl, by decide⟩, ⟨_, rfl, by decide⟩, ⟨_, rfl, by decide⟩⟩

theorem witness_SregNumbersUndefined :
    (SregField.num6 = .num6 ∨ SregField.num6 = .num7) ∧ (SregField.num7 = .num6 ∨ SregField.num7 = .num7) := by decide

/-- A load from AX. -/
theorem loadOf_reg (s : State) (r : Sreg) (g : Gpr) :
    LoadOf (.movSregRm16 p0 (.reg r) (.reg g)) s r ((s.gpr.get g).extractLsb' 0 16) :=
  ⟨p0, .reg g, rfl, .inl ⟨rfl, rfl⟩⟩

/-- A load from memory, with REX.W. -/
theorem loadOf_mem : LoadOf (.movSregRm64 pRexW (.reg .gs) (.mem atBx)) (eight l64) .gs 0x7788#16 := by
  refine ⟨pRexW, .mem atBx, rfl, .inr ⟨rfl, ?_⟩⟩
  exact ⟨[0x1000, 0x1001], 0x7788#64, by decide, by unfold BytesAre; decide, by decide⟩

theorem witness_LoadSregReal :
    LoadOf (.movSregRm16 p0 (.reg .ss) (.reg .rax)) (reg .rax 0xFFFF#64 r16) .ss 0xFFFF#16 ∧ Sreg.ss ≠ .cs ∧
    (reg .rax 0xFFFF#64 r16).mode = .real := ⟨loadOf_reg _ _ _, by decide, by decide⟩

theorem witness_LoadSregV86 :
    LoadOf (.movSregRm16 p0 (.reg .ss) (.reg .rax)) (reg .rax 0xFFFF#64 v16) .ss 0xFFFF#16 ∧ Sreg.ss ≠ .cs ∧
    (reg .rax 0xFFFF#64 v16).mode = .v86 := ⟨loadOf_reg _ _ _, by decide, by decide⟩

theorem witness_LoadSregNull :
    LoadOf (.movSregRm16 p0 (.reg .gs) (.reg .rax)) (reg .rax 3#64 l64) .gs 3#16 ∧ CheckedMode (reg .rax 3#64 l64) ∧
    DataSreg .gs ∧ (3#16).toNat ≤ 3 := ⟨loadOf_reg _ _ _, .inr (.inr rfl), .inr (.inr (.inr rfl)), by decide⟩

/-- In PROT mode; at privilege level 3; with another RPL; and with the RPL of the privilege level. -/
theorem witness_LoadSsNull :
    (LoadOf (.movSregRm16 p0 (.reg .ss) (.reg .rax)) (reg .rax 3#64 p32) .ss 3#16 ∧ CheckedMode (reg .rax 3#64 p32) ∧
      (reg .rax 3#64 p32).mode ≠ .long64) ∧
    (LoadOf (.movSregRm16 p0 (.reg .ss) (.reg .rax)) (reg .rax 3#64 (checked l64)) .ss 3#16 ∧
      (checked l64).mode = .long64 ∧ (checked l64).cpl = 3#2) ∧
    (LoadOf (.movSregRm16 p0 (.reg .ss) (.reg .rax)) (reg .rax 3#64 l64) .ss 3#16 ∧ selRpl 3#16 ≠ l64.cpl) ∧
    (LoadOf (.movSregRm16 p0 (.reg .ss) (.reg .rax)) (reg .rax 2#64 { l64 with cpl := 2#2 }) .ss 2#16 ∧
      { l64 with cpl := 2#2 }.cpl ≠ 3#2 ∧ selRpl 2#16 = { l64 with cpl := 2#2 }.cpl) :=
  ⟨⟨loadOf_reg _ _ _, .inl rfl, by decide⟩, ⟨loadOf_reg _ _ _, by decide⟩, ⟨loadOf_reg _ _ _, by decide⟩,
    ⟨loadOf_reg _ _ _, by decide⟩⟩

/-- A writable data segment as the first descriptor of the LDT, at address 0: the least selector that is not NULL. -/
def firstOfLdt (s : State) : State :=
  reg .rax 4#64 (bytesAt 0 [0xFF#8, 0xFF#8, 0x00#8, 0x00#8, 0x00#8, 0x92#8, 0xCF#8, 0x00#8] s)

theorem witness_LoadSregDescriptor :
    LoadOf (.movSregRm16 p0 (.reg .ds) (.reg .rax)) (firstOfLdt l64) .ds 4#16 ∧ CheckedMode (firstOfLdt l64) ∧
    DataSreg .ds ∧ 3 < (4#16).toNat ∧
    (firstOfLdt l64).descLookup 4#16 = .ok (.found 0x00CF92000000FFFF#64 [0, 1, 2, 3, 4, 5, 6, 7]) ∧
    ¬ DataDescriptorBad (firstOfLdt l64) 4#16 (descAttr 0x00CF92000000FFFF#64) ∧
    (descAttr 0x00CF92000000FFFF#64).present = true :=
  ⟨loadOf_reg _ _ _, .inr (.inr rfl), .inl rfl, by decide, by decide, by unfold DataDescriptorBad; decide, by decide⟩

theorem witness_LoadSsDescriptor :
    LoadOf (.movSregRm16 p0 (.reg .ss) (.reg .rax)) (firstOfLdt p32) .ss 4#16 ∧ CheckedMode (firstOfLdt p32) ∧
    3 < (4#16).toNat ∧
    (firstOfLdt p32).descLookup 4#16 = .ok (.found 0x00CF92000000FFFF#64 [0, 1, 2, 3, 4, 5, 6, 7]) ∧
    ¬ StackDescriptorBad (firstOfLdt p32) 4#16 (descAttr 0x00CF92000000FFFF#64) ∧
    (descAttr 0x00CF92000000FFFF#64).present = true :=
  ⟨loadOf_reg _ _ _, .inl rfl, by decide, by decide, by unfold StackDescriptorBad; decide, by decide⟩

/-- With the GDT at an address. -/
def gdtAt (base : Word) (s : State) : State := { s with gdtr := { base := base, limit := 0x47#16 } }

/-- Each lookup that does not find a descriptor, and each test of one that is found. -/
theorem witness_LoadDescriptorFaults :
    (∀ (s : State) (r : Sreg), LoadOf (.movSregRm16 p0 (.reg r) (.reg .rax)) s r ((s.gpr.get .rax).extractLsb' 0 16)) ∧
    CheckedMode p32 ∧ CheckedMode l64 ∧ Sreg.ds ≠ .cs ∧ Sreg.ss ≠ .cs ∧ 3 < (4#16).toNat ∧
    (faultingAt .table 0x5017 (table l64)).descLookup 0x10#16 = .ok (.pageFault 4) ∧
    p32.descLookup 0x48#16 = .ok .outsideLimit ∧
    (gdtAt 0x7FFFFFFFFFF0#64 l64).descLookup 0x10#16 = .ok .nonCanonical ∧
    (table p32).descLookup 0x11#16 = .ok (.found 0x00CF92000000FFFF#64
      [0x5010, 0x5011, 0x5012, 0x5013, 0x5014, 0x5015, 0x5016, 0x5017]) ∧
    StackDescriptorBad (table p32) 0x11#16 (descAttr 0x00CF92000000FFFF#64) ∧
    DataDescriptorBad (table p32) 0x11#16 (descAttr 0x00CF92000000FFFF#64) ∧
    (table p32).descLookup 0x28#16 = .ok (.found 0x00CF13000000FFFF#64
      [0x5028, 0x5029, 0x502A, 0x502B, 0x502C, 0x502D, 0x502E, 0x502F]) ∧
    ¬ StackDescriptorBad (table p32) 0x28#16 (descAttr 0x00CF13000000FFFF#64) ∧
    ¬ DataDescriptorBad (table p32) 0x28#16 (descAttr 0x00CF13000000FFFF#64) ∧
    (descAttr 0x00CF13000000FFFF#64).present = false := by
  unfold StackDescriptorBad DataDescriptorBad CheckedMode
  refine ⟨fun s r => loadOf_reg s r .rax, ?_⟩
  decide

/-- No LDT; a limit one too small, and one just large enough; the eighth byte not canonical, page-faulting, not existing; the
first without a value. -/
theorem witness_DescriptorLookup :
    ((4#16).getLsbD 2 = true ∧ { p32 with ldtr := { p32.ldtr with valid := false } }.ldtr.valid = false) ∧
    ((0x40#16).getLsbD 2 = false ∧ (0x46#16).toNat < 8 * ((0x40#16).toNat / 8) + 7) ∧
    (8 * ((0x40#16).toNat / 8) + 7 ≤ p32.gdtr.limit.toNat) ∧
    (l64.mode = .long64 ∧ canonical l64.params.vaBits
      (((gdtAt 0x7FFFFFFFFFF1#64 l64).gdtr.base.toNat + 8 * ((8#16).toNat / 8) + 7) % 2 ^ 64) = false) ∧
    (∀ k, k < 8 → (table l64).translateByte .table ((0x5000 + 8 * ((0x10#16).toNat / 8) + k) % 2 ^ 64) =
      .ok (0x5010 + k)) ∧
    (∀ k, k < 8 → memGet (table l64).mem (0x5010 + k) = some ((0x00CF92000000FFFF#64).extractLsb' (8 * k) 8)) ∧
    (∀ k, k < 8 → (table l64).owns (0x5010 + k) = true) ∧
    ((below 0x5017 l64).owns (0x5010 + 7) = false ∧ ∀ j, j < 7 → (below 0x5017 l64).owns (0x5010 + j) = true) ∧
    (memGet l64.mem (0x5010 + 0) = none ∧ ∀ j, j < 8 → l64.owns (0x5010 + j) = true) ∧
    ((∀ j, j < 7 → (faultingAt .table 0x5017 l64).translateByte .table ((0x5000 + 8 * ((0x10#16).toNat / 8) + j) % 2 ^ 64) =
        .ok (0x5010 + j)) ∧
      (faultingAt .table 0x5017 l64).translateByte .table ((0x5000 + 8 * ((0x10#16).toNat / 8) + 7) % 2 ^ 64) = .error 4) := by
  decide

/-! Control and debug registers. -/

theorem witness_ReadCr :
    p0.locked = false ∧ MayMoveSystem { r16 with cpl := 3#2 } ∧ MayMoveSystem l64 ∧
    (CrNum.cr4, CrReg.cr4) ∈ [(CrNum.cr0, CrReg.cr0), (.cr2, .cr2), (.cr3, .cr3), (.cr4, .cr4)] ∧
    l64.params.hasCr4 = true := by unfold MayMoveSystem; decide

theorem witness_CrNumbersUndefined :
    pLock.locked = true ∧ CrNum.cr7 ∈ [CrNum.cr1, .cr5, .cr6, .cr7] ∧ CrHigh.cr9 ≠ CrHigh.cr8 := by decide

theorem crMoveOf_cr4 : CrMoveOf (.movCrR64 p0 3#2 .cr4 .rax) .cr4 :=
  ⟨p0, 3#2, .rax, rfl, .inl ⟨.cr4, by decide, .inr (.inr (.inr rfl))⟩⟩

/-- In V86 mode; at privilege levels 1 and 3; without CR4. -/
theorem witness_CrPrivilege :
    CrMoveOf (.movCrR64 p0 3#2 .cr4 .rax) .cr4 ∧ CrMoveOf (.movR64Cr8 pRexR 3#2 .rax .cr8) .cr8 ∧
    l64.params.hasCr4 = true ∧ v16.mode = .v86 ∧
    ({ l64 with cpl := 1#2 }.mode ≠ .real ∧ { l64 with cpl := 1#2 }.cpl ≠ 0#2) ∧
    { l64 with params := { Params.suggested with hasCr4 := false } }.params.hasCr4 = false :=
  ⟨crMoveOf_cr4, ⟨pRexR, 3#2, .rax, rfl, .inr ⟨rfl, .inl rfl⟩⟩, by decide⟩

theorem crWriteOf64 (s : State) (c : CrNum) : CrWriteOf (.movCrR64 p0 3#2 c .rax) s c (s.gpr.get .rax) :=
  ⟨p0, 3#2, .rax, rfl, .inr ⟨rfl, rfl⟩⟩

theorem crWriteOf32 (s : State) (c : CrNum) :
    CrWriteOf (.movCrR32 p0 3#2 c .rax) s c (regValue s.gpr .b32 false .rax) :=
  ⟨p0, 3#2, .rax, rfl, .inl ⟨rfl, rfl⟩⟩

/-- PG without PE, NW without CD, PG cleared in LONG64; and values that are accepted. -/
theorem witness_WriteCr0 :
    (CrWriteOf (.movCrR64 p0 3#2 .cr0 .rax) (reg .rax 0x80000010#64 l64) .cr0 0x80000010#64 ∧
      MayMoveSystem (reg .rax 0x80000010#64 l64)) ∧
    Cr0Bad r16 0x80000010#64 ∧ Cr0Bad r16 0x20000010#64 ∧ Cr0Bad l64 0x50033#64 ∧ ¬ Cr0Bad l64 0x80050033#64 ∧
    ¬ Cr0Bad r16 0x60000011#64 := by
  refine ⟨⟨crWriteOf64 _ _, .inr (by decide)⟩, ?_⟩
  unfold Cr0Bad PdptFaults
  exact ⟨by decide, by decide, by decide, by decide, by decide⟩

theorem witness_WriteCr2 :
    CrWriteOf (.movCrR64 p0 3#2 .cr2 .rax) (reg .rax 0xFFFFFFFFFFFFFFFF#64 l64) .cr2 0xFFFFFFFFFFFFFFFF#64 ∧
    MayMoveSystem (reg .rax 0xFFFFFFFFFFFFFFFF#64 l64) :=
  ⟨crWriteOf64 _ _, .inr (by decide)⟩

/-- With PCIDE set. -/
def pcide : State := { l64 with cr := l64.cr.set .cr4 0x206A0#64 }

/-- The lowest reserved bit of CR3; bit 63 without and with PCIDE. -/
theorem witness_WriteCr3 :
    (CrWriteOf (.movCrR64 p0 3#2 .cr3 .rax) (reg .rax 0x8000000000200000#64 pcide) .cr3 0x8000000000200000#64 ∧
      MayMoveSystem (reg .rax 0x8000000000200000#64 pcide)) ∧
    Cr3Bad l64 0x0010000000000000#64 ∧ Cr3Bad l64 0x8000000000000000#64 ∧ ¬ Cr3Bad l64 0x000FFFFFFFFFF000#64 ∧
    ¬ Cr3Bad pcide 0x8000000000200000#64 ∧ pcide.cr.cr4.getLsbD 17 = true := by
  refine ⟨⟨crWriteOf64 _ _, .inr (by decide)⟩, ?_⟩
  unfold Cr3Bad PdptFaults
  exact ⟨by decide, by decide, by decide, by decide, by decide⟩

/-- The lowest reserved bit of CR4; PCIDE outside IA-32e mode; PAE cleared in it; values that are accepted; and the lowest
reserved bit in REAL mode, written from a register. -/
theorem witness_WriteCr4 :
    (CrWriteOf (.movCrR32 p0 3#2 .cr4 .rax) (reg .rax 0x20#64 p32) .cr4 0x20#64 ∧ MayMoveSystem (reg .rax 0x20#64 p32) ∧
      p32.params.hasCr4 = true) ∧
    Cr4Bad l64 0x16A0#64 ∧ Cr4Bad p32 0x20020#64 ∧ Cr4Bad l64 0x680#64 ∧ ¬ Cr4Bad p32 0x20#64 ∧ ¬ Cr4Bad l64 0x206A0#64 ∧
    (CrWriteOf (.movCrR32 p0 3#2 .cr4 .rax) (reg .rax 0x1000#64 r16) .cr4 0x1000#64 ∧
      MayMoveSystem (reg .rax 0x1000#64 r16) ∧ r16.params.hasCr4 = true ∧ r16.mode = .real ∧
      Cr4Bad (reg .rax 0x1000#64 r16) 0x1000#64 ∧ Cr4Bad r16 0x20000#64) := by
  refine ⟨⟨crWriteOf32 _ _, .inr (by decide), rfl⟩, ?_⟩
  unfold Cr4Bad PdptFaults
  exact ⟨by decide, by decide, by decide, by decide, by decide, crWriteOf32 _ _, .inl rfl, by decide, by decide, by decide,
    by decide⟩

theorem witness_WriteCr8 :
    pRexR.locked = false ∧ l64.mode = .long64 ∧ l64.cpl = 0#2 ∧
    (reg .rax 0x10#64 l64).gpr.get .rax &&& l64.params.cr8Reserved ≠ 0#64 ∧
    (reg .rax 0xF#64 l64).gpr.get .rax &&& l64.params.cr8Reserved = 0#64 := by decide

/-- PE changed in REAL mode, and a write of CR0 that changes none of the three bits. -/
theorem witness_ModeChangeEndsRun :
    r16.modeChanged = false ∧
    (∃ t, exec (.movCrR32 p0 3#2 .cr0 .rax) (reg .rax 0x60000011#64 r16) = .next t ∧ t.modeChanged = true) ∧
    (∃ t, exec (.movCrR32 p0 3#2 .cr0 .rax) (reg .rax 0x60000018#64 r16) = .next t ∧ (!t.modeChanged) = true) :=
  ⟨rfl, next_of_ends (by decide), next_of_ends (by decide)⟩

/-- A write that changes the epoch and PE, and instructions that do not: one that keeps what `Translate` asks for, a byte of a
page table, and one that changes it. -/
theorem witness_TranslationChanges :
    r16.params.tlbFlushOnModeBits = true ∧
    (∃ t, exec (.movCrR32 p0 3#2 .cr0 .rax) (reg .rax 0x60000011#64 r16) = .next t ∧
      (t.epoch != r16.epoch && (t.cr.cr0.getLsbD 0 != r16.cr.cr0.getLsbD 0)) = true) ∧
    (∃ t, exec (.movR8Imm8 p0 .rax 1#8) (paged l64) = .next t ∧
      (t.epoch == 0 && (paged l64).params.translate.all fun q => q.conds.all fun c => t.condHolds c == (paged l64).condHolds c) = true) ∧
    (∃ t, exec (.movRm8Imm8 p0 (.mem atBx) 0#8) (reg .rbx 0x3000#64 (paged l64)) = .next t ∧
      (t.epoch == 0 && (paged l64).params.translate.any fun q =>
        q.conds.any fun c => t.condHolds c != (paged l64).condHolds c) = true) :=
  ⟨rfl, next_of_ends (by decide), next_of_ends (by decide), next_of_ends (by decide)⟩

/-- DR5 with CR4.DE clear is allowed. -/
theorem drAllowed_dr5 : DrAllowed l64 p0 .dr5 := by unfold DrAllowed MayMoveSystem; decide

theorem witness_ReadDr :
    (DrNum.dr5, DrReg.dr7) ∈ [(DrNum.dr0, DrReg.dr0), (.dr1, .dr1), (.dr2, .dr2), (.dr3, .dr3), (.dr4, .dr6),
      (.dr5, .dr7), (.dr6, .dr6), (.dr7, .dr7)] ∧ p0.locked = false ∧ DrAllowed l64 p0 .dr5 :=
  ⟨by decide, by decide, drAllowed_dr5⟩

theorem drWriteOf64 (s : State) (d : DrNum) : DrWriteOf (.movDrR64 p0 3#2 d .rax) s p0 d (s.gpr.get .rax) :=
  ⟨3#2, .rax, .inr ⟨rfl, rfl⟩⟩

/-- The least value with a bit above 31, and the greatest without. -/
theorem witness_WriteDr :
    (DrNum.dr5, DrReg.dr7) ∈ [(DrNum.dr0, DrReg.dr0), (.dr1, .dr1), (.dr2, .dr2), (.dr3, .dr3), (.dr4, .dr6),
      (.dr5, .dr7), (.dr6, .dr6), (.dr7, .dr7)] ∧
    DrWriteOf (.movDrR64 p0 3#2 .dr5 .rax) (reg .rax 0x100000000#64 l64) p0 .dr5 0x100000000#64 ∧
    DrWriteOf (.movDrR64 p0 3#2 .dr5 .rax) (reg .rax 0xFFFFFFFF#64 l64) p0 .dr5 0xFFFFFFFF#64 ∧
    p0.locked = false ∧ DrAllowed l64 p0 .dr5 ∧ l64.mode = .long64 ∧ 2 ^ 32 ≤ (0x100000000#64).toNat ∧
    (0xFFFFFFFF#64).toNat < 2 ^ 32 ∧ l64.params.drRules = [] :=
  ⟨by decide, drWriteOf64 _ _, drWriteOf64 _ _, by decide, drAllowed_dr5, by decide⟩

/-- REX.R; DR4 with CR4.DE set; privilege level 1; general detect. -/
theorem witness_DrFaults :
    DrMoveOf (.movDrR64 pRexR 3#2 .dr0 .rax) pRexR .dr0 ∧ DrMoveOf (.movDrR64 p0 3#2 .dr4 .rax) p0 .dr4 ∧
    (l64.mode = .long64 ∧ pRexR.rexR = true) ∧
    (l64.params.hasCr4 = true ∧ { l64 with cr := l64.cr.set .cr4 0x6A8#64 }.cr.cr4.getLsbD 3 = true) ∧
    (p0.locked = false ∧ ¬ (l64.mode = .long64 ∧ p0.rexR = true) ∧ ¬ (l64.cr.cr4.getLsbD 3 = true)) ∧
    ¬ MayMoveSystem { l64 with cpl := 1#2 } ∧ MayMoveSystem l64 ∧
    { l64 with dr := l64.dr.set .dr7 0x2400#64 }.dr.dr7.getLsbD 13 = true := by
  refine ⟨⟨3#2, .rax, .inr (.inr (.inr rfl))⟩, ⟨3#2, .rax, .inr (.inr (.inr rfl))⟩, ?_⟩
  unfold MayMoveSystem
  decide

end Sys2Proof.Tests
end

section
/-! PROOFS. How addresses are translated changes only by writes of CR0, CR3, CR4 or of what `Translate` asks for
(00_scope.md R6; 20_memory.md R83, R99; 42_mov_cr.md R261). -/

namespace Sys2Proof.Machine

/-! ### What no instruction writes -/

/-- A load of a segment register writes none of the fixed parts and no control register, in any mode. -/
theorem loadSreg_keeps {s t : State} {r : Sreg} {sel : Half} (h : s.loadSreg r sel = .ok t) :
    FixedSame s t ∧ ControlSame s t := by
  obtain ⟨-, rfl⟩ | ⟨-, rfl⟩ | ⟨-, -, -, rfl⟩ | ⟨-, -, hd⟩ := loadSreg_eq_ok.1 h
  · constructor <;> constructor <;> rfl
  · constructor <;> constructor <;> rfl
  · constructor <;> constructor <;> rfl
  · obtain ⟨d, pas, -, -, -, -, rfl⟩ := loadDescriptor_eq_ok.1 hd
    constructor <;> constructor <;> simp

theorem writeCrReg_fixedSame {s u : State} {r : CrReg} {v : Word} (h : s.writeCrReg r v = .ok u) : FixedSame s u := by
  rw [writeCrReg_touches h]
  constructor <;> rfl

theorem Effect.fixedSame {i : Instr} {s u : State} (h : Effect i s u) : FixedSame s u := by
  cases h with
  | loaded r sel u hm hs hr hl hu => exact (loadSreg_keeps hu).1
  | wroteCr w g r x hm hp hc hn h8 hu => exact { writeCrReg_fixedSame hu with }
  | wroteReg | stored | readSystem | wroteDr => constructor <;> rfl

/-- An instruction that completes writes none of the fixed parts. -/
theorem exec_fixedSame {i : Instr} {s t : State} (h : exec i s = .next t) : FixedSame s t := by
  obtain ⟨-, u, he, rfl⟩ := exec_effect h
  exact { he.fixedSame with }

/-! ### The control registers and what goes with them -/

/-- An instruction that completes leaves the control registers, or it is a move to one and leaves them as that write did. -/
theorem exec_control {i : Instr} {s t : State} (h : exec i s = .next t) :
    ControlSame s t ∨
    ∃ r v u, (r ≠ .cr8 → ∃ c, crOfNum c = some r ∧ CrWriteOf i s c v) ∧ s.writeCrReg r v = .ok u ∧ ControlSame u t := by
  obtain ⟨-, u, he, rfl⟩ := exec_effect h
  cases he with
  | loaded r sel u hm hs hr hl hu => exact .inl { (loadSreg_keeps hu).2 with }
  | wroteCr w g r x hm hp hc hn h8 hu => exact .inr ⟨r, _, x, hc, hu, rfl, rfl, rfl, rfl⟩
  | wroteReg | stored | readSystem | wroteDr => exact .inl ⟨rfl, rfl, rfl, rfl⟩

theorem writeCr8_eq_set {s u : State} {v : Word} (h : s.writeCr8 v = .ok u) :
    u = { s with cr := s.cr.set .cr8 v } := by
  unfold State.writeCr8 at h
  split at h
  · simp [crFault, raise] at h
  · cases h; rfl

/-- A write of CR0, CR3 or CR4 begins a new epoch of `Translate`; one of CR2 or CR8 stays in the epoch and leaves CR0 and
CR4 (20_memory.md R99; log 16). -/
theorem writeCrReg_epoch {s u : State} {r : CrReg} {v : Word} (h : s.writeCrReg r v = .ok u) :
    ((r = .cr0 ∨ r = .cr3 ∨ r = .cr4) ∧ u.epoch = s.epoch + 1) ∨
    (u.epoch = s.epoch ∧ u.cr.cr0 = s.cr.cr0 ∧ u.cr.cr4 = s.cr.cr4) := by
  cases r with
  | cr0 =>
    obtain ⟨-, -, hepoch, -⟩ := writeCr0_eq_ok h
    exact .inl ⟨.inl rfl, hepoch⟩
  | cr3 =>
    obtain ⟨-, -, hepoch, -⟩ := writeCr3_eq_ok h
    exact .inl ⟨.inr (.inl rfl), hepoch⟩
  | cr4 =>
    obtain ⟨-, -, hepoch, -⟩ := writeCr4_eq_ok h
    exact .inl ⟨.inr (.inr rfl), hepoch⟩
  | cr2 => cases h; exact .inr ⟨rfl, rfl, rfl⟩
  | cr8 => rw [writeCr8_eq_set h]; exact .inr ⟨rfl, rfl, rfl⟩

/-! ### The epoch -/

/-- Only the numbers 0, 3 and 4 name a register whose write begins an epoch (42_mov_cr.md R243). -/
theorem crOfNum_begins_epoch {c : CrNum} {r : CrReg} (hn : crOfNum c = some r) (hr : r = .cr0 ∨ r = .cr3 ∨ r = .cr4) :
    c = .cr0 ∨ c = .cr3 ∨ c = .cr4 := by
  cases c with
  | cr0 | cr3 | cr4 => simp
  | cr2 => cases hn; simp at hr
  | cr1 | cr5 | cr6 | cr7 => cases hn

/-- The epoch changes only by a move to CR0, CR3 or CR4. -/
theorem exec_epoch_changed {i : Instr} {s t : State} (h : exec i s = .next t) (hne : t.epoch ≠ s.epoch) :
    ∃ c v, CrWriteOf i s c v ∧ (c = .cr0 ∨ c = .cr3 ∨ c = .cr4) := by
  obtain hsame | ⟨r, v, u, hc, hu, hsame⟩ := exec_control h
  · exact absurd hsame.epoch hne
  · obtain ⟨hr, -⟩ | ⟨hepoch, -⟩ := writeCrReg_epoch hu
    · obtain ⟨c, hn, hw⟩ := hc (by rintro rfl; simp at hr)
      exact ⟨c, v, hw, crOfNum_begins_epoch hn hr⟩
    · exact absurd (hsame.epoch.trans hepoch) hne

/-! ### Translation within an epoch -/

/-- Within an epoch CR0 stays, so paging stays on or off. -/
theorem exec_cr0_of_epoch {i : Instr} {s t : State} (h : exec i s = .next t) (he : t.epoch = s.epoch) :
    t.cr.cr0 = s.cr.cr0 := by
  obtain hsame | ⟨r, v, u, -, hu, hsame⟩ := exec_control h
  · rw [hsame.cr]
  · obtain ⟨-, hepoch⟩ | ⟨-, hcr0, -⟩ := writeCrReg_epoch hu
    · have := hsame.epoch
      omega
    · rw [hsame.cr, hcr0]

/-- What `Translate` answers rests on the parameters, on whether paging is on, on the epoch, and on the conditions of its
rules. -/
theorem translateByte_congr {s t : State} (hp : t.params = s.params) (hon : t.pagingOn = s.pagingOn)
    (he : t.epoch = s.epoch) (hc : ∀ q ∈ s.params.translate, ∀ c ∈ q.conds, t.condHolds c = s.condHolds c)
    (acc : Access) (lin : Nat) : t.translateByte acc lin = s.translateByte acc lin := by
  have hcovers : ∀ q ∈ s.params.translate, t.xlatCovers acc lin q = s.xlatCovers acc lin q := by
    intro q hq
    have hconds : q.conds.all t.condHolds = q.conds.all s.condHolds := by
      rw [Bool.eq_iff_iff, List.all_eq_true, List.all_eq_true]
      exact forall₂_congr fun c hm => by rw [hc q hq c hm]
    simp only [State.xlatCovers, he, hconds]
  unfold State.translateByte
  rw [hon, hp, List.find?_congr hcovers]

theorem exec_translateByte {i : Instr} {s t : State} (h : exec i s = .next t) (he : t.epoch = s.epoch)
    (hc : ∀ q ∈ s.params.translate, ∀ c ∈ q.conds, t.condHolds c = s.condHolds c) (acc : Access) (lin : Nat) :
    t.translateByte acc lin = s.translateByte acc lin := by
  have hfixed := exec_fixedSame h
  have hon : t.pagingOn = s.pagingOn := by simp only [State.pagingOn, hfixed.mode, exec_cr0_of_epoch h he]
  exact translateByte_congr hfixed.params hon he hc acc lin

/-! ### The note on the translation caches -/

/-- One of the bits whose change flushes all entries differs: PE, PG, PSE or PAE (42_mov_cr.md R261). -/
def FlushBitsDiffer (s t : State) : Prop :=
  t.cr.cr0.getLsbD 0 ≠ s.cr.cr0.getLsbD 0 ∨ t.cr.cr0.getLsbD 31 ≠ s.cr.cr0.getLsbD 31 ∨
    t.cr.cr4.getLsbD 4 ≠ s.cr.cr4.getLsbD 4 ∨ t.cr.cr4.getLsbD 5 ≠ s.cr.cr4.getLsbD 5

theorem not_flushBitsDiffer {s t : State} (h0 : t.cr.cr0 = s.cr.cr0) (h4 : t.cr.cr4 = s.cr.cr4) :
    ¬ FlushBitsDiffer s t := by
  simp [FlushBitsDiffer, h0, h4]

theorem writeCr0_flush {s u : State} {v : Word} (h : s.writeCr0 v = .ok u) (hf : s.params.tlbFlushOnModeBits = true)
    (hd : FlushBitsDiffer s u) : u.tlb = .allEntries := by
  unfold State.writeCr0 at h
  split at h
  · simp [crFault, raise] at h
  · cases h
    obtain hpe | hpg | hpse | hpae := hd
    · simp_all [cr0PE, Crs.set]
    · simp_all [cr0PG, Crs.set]
    · exact absurd rfl hpse
    · exact absurd rfl hpae

theorem writeCr4_flush {s u : State} {v : Word} (h : s.writeCr4 v = .ok u) (hf : s.params.tlbFlushOnModeBits = true)
    (hd : FlushBitsDiffer s u) : u.tlb = .allEntries := by
  unfold State.writeCr4 at h
  split at h
  · simp [crFault, raise] at h
  · cases h
    obtain hpe | hpg | hpse | hpae := hd
    · exact absurd rfl hpe
    · exact absurd rfl hpg
    · simp_all [cr4PSE, Crs.set]
    · simp_all [cr4PAE, Crs.set]

/-- In the families that flush on a change of these bits, a write that changed one is noted as flushing all entries. -/
theorem writeCrReg_flush {s u : State} {r : CrReg} {v : Word} (h : s.writeCrReg r v = .ok u)
    (hf : s.params.tlbFlushOnModeBits = true) (hd : FlushBitsDiffer s u) : u.tlb = .allEntries := by
  cases r with
  | cr0 => exact writeCr0_flush h hf hd
  | cr4 => exact writeCr4_flush h hf hd
  | cr2 | cr3 | cr8 =>
    rw [writeCrReg_touches h] at hd
    exact absurd hd (not_flushBitsDiffer rfl rfl)

theorem exec_flush {i : Instr} {s t : State} (h : exec i s = .next t) (hf : s.params.tlbFlushOnModeBits = true)
    (hd : FlushBitsDiffer s t) : t.tlb = .allEntries := by
  obtain hsame | ⟨r, v, u, -, hu, hsame⟩ := exec_control h
  · exact absurd hd (not_flushBitsDiffer (by rw [hsame.cr]) (by rw [hsame.cr]))
  · unfold FlushBitsDiffer at hd
    rw [hsame.cr] at hd
    exact hsame.tlb.trans (writeCrReg_flush hu hf hd)

/-- Settles O57, from what an instruction that completes can do to the control registers, the epoch and the note, and from
what `Translate` rests on. -/
theorem translationChanges : Obligations.TranslationChanges := by
  unfold Obligations.TranslationChanges
  intro i s t h
  exact ⟨exec_epoch_changed h, exec_translateByte h, exec_flush h⟩

end Sys2Proof.Machine
end

section
/-! PROOFS. What every step and every instruction that completes does to `pc`, the flags, CS and the inhibition, and the
power-up values (10_state.md R28, R29, R37, R53, R54, R58, R59; 41_mov_sreg.md R208, R215; 60_exceptions.md R335). -/

namespace Sys2Proof.Machine

/-! ### The power-up values -/

/-- After reset the five data and stack segment registers hold the same (10_state.md R58). -/
theorem reset_seg_of_ne_cs {r : Sreg} (h : r ≠ .cs) : State.reset.seg.get r = SegReg.afterReset := by
  cases r with
  | cs => exact absurd rfl h
  | es | ss | ds | fs | gs => rfl

/-- Settles O10, field by field; the registers of a file one by one. -/
theorem resetValues : Obligations.ResetValues := by
  have hgpr : ∀ r : Gpr, State.reset.gpr.get r = 0#64 := fun r => by cases r <;> rfl
  have hseg : ∀ r : Sreg, (State.reset.seg.get r).hid.attr.byteLimit = 0xFFFF ∧
      (State.reset.seg.get r).hid.attr.present = true ∧
      (r ≠ .cs → (State.reset.seg.get r).sel = 0#16 ∧ (State.reset.seg.get r).hid.base = 0#64 ∧
        (State.reset.seg.get r).hid.attr.writable = true) := by
    intro r
    by_cases hr : r = .cs
    · subst hr
      exact ⟨rfl, rfl, fun hne => absurd rfl hne⟩
    · rw [reset_seg_of_ne_cs hr]
      exact ⟨rfl, rfl, fun _ => ⟨rfl, rfl, rfl⟩⟩
  exact ⟨rfl, rfl, rfl, hgpr, rfl, rfl, rfl, rfl, rfl, rfl, rfl, hseg, fun _ => rfl⟩

/-! ### Loads of segment registers, in every mode -/

/-- A completed load wrote the register it names, and the inhibition where that is SS (41_mov_sreg.md R210, R215). -/
theorem loadSreg_seg {s u : State} {r : Sreg} {sel : Half} (h : s.loadSreg r sel = .ok u) :
    ∃ hid, u.seg = s.seg.set r { sel := sel, hid := hid } ∧ u.inhibit = (s.inhibit || r == .ss) := by
  obtain ⟨-, rfl⟩ | ⟨-, rfl⟩ | ⟨-, -, -, rfl⟩ | ⟨-, -, hd⟩ := loadSreg_eq_ok.1 h
  · exact ⟨_, rfl, rfl⟩
  · exact ⟨_, rfl, rfl⟩
  · exact ⟨_, rfl, rfl⟩
  · obtain ⟨d, pas, -, -, -, -, rfl⟩ := loadDescriptor_eq_ok.1 hd
    exact ⟨_, State.loadedDesc_seg .., State.loadedDesc_inhibit ..⟩

/-- A load leaves `pc` and touches no flag (41_mov_sreg.md R200). -/
theorem loadSreg_pc_flags {s u : State} {r : Sreg} {sel : Half} (h : s.loadSreg r sel = .ok u) :
    u.pc = s.pc ∧ u.flags = s.flags := by
  obtain ⟨-, rfl⟩ | ⟨-, rfl⟩ | ⟨-, -, -, rfl⟩ | ⟨-, -, hd⟩ := loadSreg_eq_ok.1 h
  · exact ⟨rfl, rfl⟩
  · exact ⟨rfl, rfl⟩
  · exact ⟨rfl, rfl⟩
  · obtain ⟨d, pas, -, -, -, -, rfl⟩ := loadDescriptor_eq_ok.1 hd
    simp

/-! ### `pc` -/

/-- Before `pc` advances no instruction has written it. -/
theorem Effect.pc_eq {i : Instr} {s u : State} (h : Effect i s u) : u.pc = s.pc := by
  cases h with
  | loaded r sel u hm hs hr hl hu => exact (loadSreg_pc_flags hu).1
  | wroteCr w g r u hm hp hc hn h8 hu => rw [State.undefineFlags_pc, writeCrReg_touches hu]
  | wroteReg | stored | readSystem | wroteDr => rfl

open Sys2Proof.Laws.EncodedLength in
/-- The encoding of an instruction has as many bytes as its length says (30_encoding.md R137). -/
theorem encode_length : ∀ i : Instr, (encode i).length = instrLength i
  | .movRm8R8 p rm g => movRm8R8 p rm g
  | .movRm8R8Rex p rm g => movRm8R8Rex p rm g
  | .movRm16R16 p rm g => movRm16R16 p rm g
  | .movRm32R32 p rm g => movRm32R32 p rm g
  | .movRm64R64 p rm g => movRm64R64 p rm g
  | .movR8Rm8 p g rm => movR8Rm8 p g rm
  | .movR8Rm8Rex p g rm => movR8Rm8Rex p g rm
  | .movR16Rm16 p g rm => movR16Rm16 p g rm
  | .movR32Rm32 p g rm => movR32Rm32 p g rm
  | .movR64Rm64 p g rm => movR64Rm64 p g rm
  | .movRm16Sreg p rm f => movRm16Sreg p rm f
  | .movR32M16Sreg p rm f => movR32M16Sreg p rm f
  | .movR64M16Sreg p rm f => movR64M16Sreg p rm f
  | .movSregRm16 p f rm => movSregRm16 p f rm
  | .movSregRm64 p f rm => movSregRm64 p f rm
  | .movAlMoffs8 p o => movAlMoffs8 p o
  | .movAlMoffs8RexW p o => movAlMoffs8RexW p o
  | .movAxMoffs16 p o => movAxMoffs16 p o
  | .movEaxMoffs32 p o => movEaxMoffs32 p o
  | .movRaxMoffs64 p o => movRaxMoffs64 p o
  | .movMoffs8Al p o => movMoffs8Al p o
  | .movMoffs8AlRexW p o => movMoffs8AlRexW p o
  | .movMoffs16Ax p o => movMoffs16Ax p o
  | .movMoffs32Eax p o => movMoffs32Eax p o
  | .movMoffs64Rax p o => movMoffs64Rax p o
  | .movR8Imm8 p g imm => movR8Imm8 p g imm
  | .movR8Imm8Rex p g imm => movR8Imm8Rex p g imm
  | .movR16Imm16 p g imm => movR16Imm16 p g imm
  | .movR32Imm32 p g imm => movR32Imm32 p g imm
  | .movR64Imm64 p g imm => movR64Imm64 p g imm
  | .movRm8Imm8 p rm imm => movRm8Imm8 p rm imm
  | .movRm8Imm8Rex p rm imm => movRm8Imm8Rex p rm imm
  | .movRm16Imm16 p rm imm => movRm16Imm16 p rm imm
  | .movRm32Imm32 p rm imm => movRm32Imm32 p rm imm
  | .movRm64Imm32 p rm imm => movRm64Imm32 p rm imm
  | .movR32Cr p m g c => movR32Cr p m g c
  | .movR64Cr p m g c => movR64Cr p m g c
  | .movR64Cr8 p m g c => movR64Cr8 p m g c
  | .movCrR32 p m c g => movCrR32 p m c g
  | .movCrR64 p m c g => movCrR64 p m c g
  | .movCr8R64 p m c g => movCr8R64 p m c g
  | .movR32Dr p m g d => movR32Dr p m g d
  | .movR64Dr p m g d => movR64Dr p m g d
  | .movDrR32 p m d g => movDrR32 p m d g
  | .movDrR64 p m d g => movDrR64 p m d g

/-- Settles O13: the effect of an instruction leaves `pc`, and `complete` then adds the length. -/
theorem pcAdvances : Obligations.PcAdvances := by
  unfold Obligations.PcAdvances
  intro i s t h
  obtain ⟨-, u, he, rfl⟩ := exec_effect h
  rw [State.advance_pc, he.pc_eq, encode_length]

/-! ### What no MOV writes -/

/-- No effect writes CS: a load names another register (41_mov_sreg.md R208). -/
theorem Effect.cs_eq {i : Instr} {s u : State} (h : Effect i s u) : u.seg.cs = s.seg.cs := by
  cases h with
  | loaded r sel u hm hs hr hl hu =>
    obtain ⟨hid, hseg, -⟩ := loadSreg_seg hu
    rw [hseg, Sregs.set_cs _ _ hr]
  | wroteCr w g r u hm hp hc hn h8 hu => rw [State.undefineFlags_seg, writeCrReg_touches hu]
  | wroteReg | stored | readSystem | wroteDr => rfl

/-- Settles O15: `exec_fixedSame`, and CS by the kind of effect. -/
theorem fixedNeverWritten : Obligations.FixedNeverWritten := by
  unfold Obligations.FixedNeverWritten
  intro i s t h
  refine ⟨exec_fixedSame h, ?_⟩
  obtain ⟨-, u, he, rfl⟩ := exec_effect h
  exact he.cs_eq

/-! ### The flags -/

/-- The effects of rows 1 to 35 touch no status flag (10_state.md R29). -/
theorem Effect.flags_eq {i : Instr} {s u : State} (h : Effect i s u) (hi : movesSystem i = false) :
    u.flags = s.flags := by
  cases h with
  | wroteReg | stored => rfl
  | loaded r sel u hm hs hr hl hu => exact (loadSreg_pc_flags hu).2
  | readSystem w g v hm | wroteCr w g r u hm | wroteDr w g p d hm => simp [hi] at hm

/-- Settles O18: the status flags by the kind of effect, AC by `exec_fixedSame`. -/
theorem flagsUntouched : Obligations.FlagsUntouched := by
  unfold Obligations.FlagsUntouched
  intro i s t hi h
  have hac := (exec_fixedSame h).ac
  obtain ⟨-, u, he, rfl⟩ := exec_effect h
  exact ⟨he.flags_eq hi, hac⟩

/-! ### The inhibition -/

/-- The rows that move a control or debug register load no segment register. -/
theorem sregLoaded_of_movesSystem {i : Instr} (h : movesSystem i = true) : sregLoaded i = none := by
  cases i with
  | movSregRm16 | movSregRm64 => cases h
  | _ => rfl

/-- The inhibition comes into force exactly by a load of SS (41_mov_sreg.md R215). -/
theorem Effect.inhibit_iff {i : Instr} {s u : State} (h : Effect i s u) :
    u.inhibit = true ↔ s.inhibit = true ∨ sregLoaded i = some (.reg .ss) := by
  cases h with
  | wroteReg w x r v n hm hl | stored d pas v hm hl => simp [hl]
  | loaded r sel u hm hs hr hl hu =>
    obtain ⟨hid, -, hinhibit⟩ := loadSreg_seg hu
    simp [hinhibit, hs]
  | readSystem w g v hm | wroteDr w g p d hm => simp [sregLoaded_of_movesSystem hm]
  | wroteCr w g r u hm hp hc hn h8 hu =>
    rw [State.undefineFlags_inhibit, writeCrReg_touches hu]
    simp [sregLoaded_of_movesSystem hm]

/-- Settles O8: past the boundary the inhibition is not in force, and then only a load of SS brings it. -/
theorem inhibitionLastsOneStep : Obligations.InhibitionLastsOneStep := by
  unfold Obligations.InhibitionLastsOneStep
  intro s t h
  obtain ⟨-, -, i, hi, hexec⟩ := step_eq_next.1 h
  obtain ⟨-, u, he, rfl⟩ := exec_effect hexec
  rw [State.advance_inhibit, he.inhibit_iff, enter_fetchInstr, hi]
  simp

end Sys2Proof.Machine
end

section
/-! PROOFS. What the limit test and the canonical test say of each byte (10_state.md R35, R59; 20_memory.md R80). -/

namespace Sys2Proof.Machine

/-! ### The limit -/

/-- The last of at least one byte lies at most at the bound exactly if each does. -/
theorem last_le_iff {off n bound : Nat} (hn : 0 < n) :
    off + n - 1 ≤ bound ↔ ∀ k, k < n → off + k ≤ bound := by
  constructor
  · intro h k hk
    omega
  · intro h
    have hlast := h (n - 1) (by omega)
    omega

/-- `InLimit` of an expand-down segment: above the limit, and below the top that D/B gives (10_state.md R59). -/
theorem inLimit_expandDown {d : SegAttr} {off n : Nat} (hd : d.expandDown = true) (hn : 0 < n) :
    d.inLimit off n = true ↔
      ∀ k, k < n → d.byteLimit < off + k ∧ off + k < (if d.db = true then 2 ^ 32 else 2 ^ 16) := by
  have htop : ∀ a : Nat, a ≤ (if d.db = true then 0xFFFFFFFF else 0xFFFF) ↔
      a < (if d.db = true then 2 ^ 32 else 2 ^ 16) := by
    intro a
    split <;> omega
  simp only [SegAttr.inLimit, hd, if_true, Bool.and_eq_true, decide_eq_true_eq, last_le_iff hn, htop]
  constructor
  · rintro ⟨hlow, hhigh⟩ k hk
    exact ⟨by omega, hhigh k hk⟩
  · intro h
    exact ⟨(h 0 hn).1, fun k hk => (h k hk).2⟩

/-- `InLimit` of any other segment: at most at the limit (10_state.md R35). -/
theorem inLimit_expandUp {d : SegAttr} {off n : Nat} (hd : d.expandDown = false) (hn : 0 < n) :
    d.inLimit off n = true ↔ ∀ k, k < n → off + k ≤ d.byteLimit := by
  simp [SegAttr.inLimit, hd, last_le_iff hn]

/-! ### The canonical form -/

/-- A number of `n` bits that all equal `b`. -/
def sameBits (n : Nat) (b : Bool) : Nat := if b then 2 ^ n - 1 else 0

theorem testBit_sameBits (n : Nat) (b : Bool) (j : Nat) : (sameBits n b).testBit j = (decide (j < n) && b) := by
  cases b <;> simp [sameBits]

/-- What is left of a word above its low `m` bits is the number of all `b`s exactly if its bits from `m` on are `b`. -/
theorem div_eq_sameBits_iff {lin : Word} {m : Nat} (hm : m ≤ 64) (b : Bool) :
    lin.toNat / 2 ^ m = sameBits (64 - m) b ↔ ∀ k, m ≤ k → k < 64 → lin.getLsbD k = b := by
  have hbit : ∀ j, (lin.toNat / 2 ^ m).testBit j = lin.getLsbD (m + j) := by
    intro j
    rw [Nat.testBit_div_two_pow, Nat.add_comm]
    rfl
  constructor
  · intro h k hmk hk
    have hj := hbit (k - m)
    rw [h, testBit_sameBits, show m + (k - m) = k by omega] at hj
    simpa [show k - m < 64 - m by omega] using hj.symm
  · intro h
    apply Nat.eq_of_testBit_eq
    intro j
    rw [hbit, testBit_sameBits]
    by_cases hj : j < 64 - m
    · rw [h (m + j) (by omega) (by omega)]
      simp [hj]
    · rw [BitVec.getLsbD_of_ge _ _ (by omega)]
      simp [hj]

/-- The two numbers the canonical test allows above bit `VA_BITS − 2`: no bit set, or every bit. -/
theorem canonical_iff {va : Nat} {lin : Word} (hva : va ≤ 64) :
    canonical va lin.toNat = true ↔ ∃ b, lin.toNat / 2 ^ (va - 1) = sameBits (64 - (va - 1)) b := by
  have htop : 2 ^ 64 / 2 ^ (va - 1) - 1 = sameBits (64 - (va - 1)) true := by
    rw [Nat.pow_div (by omega) (by omega)]
    rfl
  simp only [canonical, Bool.or_eq_true, beq_iff_eq, htop, Bool.exists_bool]
  rfl

/-! ### The statement -/

/-- Settles O31: the limit by the direction of the segment, the canonical form by the bit that all the high ones equal. -/
theorem limitAndCanonicalMeaning : Obligations.LimitAndCanonicalMeaning := by
  unfold Obligations.LimitAndCanonicalMeaning
  refine ⟨fun d off n hn => ?_, fun va lin hlow hva => ?_⟩
  · cases hd : d.expandDown with
    | true => simpa using inLimit_expandDown hd hn
    | false => simpa using inLimit_expandUp hd hn
  · simp only [canonical_iff hva, div_eq_sameBits_iff (show va - 1 ≤ 64 by omega)]
    constructor
    · rintro ⟨b, h⟩ k hvk hk
      rw [h k hvk hk, h 63 (by omega) (by omega)]
    · exact fun h => ⟨lin.getLsbD 63, h⟩

end Sys2Proof.Machine
end

section
/-! PROOFS. Where a descriptor is, and when the lookup does not find it (10_state.md R33, R36, R59; 20_memory.md R91, R92;
41_mov_sreg.md R220). -/

namespace Sys2Proof.Machine

/-! ### The table and the addresses of a descriptor -/

theorem tableOf_invalidLdt {s : State} {sel : Half} (hti : sel.getLsbD 2 = true) (hv : s.ldtr.valid = false) :
    s.tableOf sel = none := by
  simp only [State.tableOf, selTi, hti, hv, if_true, Bool.false_eq_true, if_false]

/-- The selector means this table: the GDT, or the LDT where a valid one is loaded (10_state.md R33, R59). -/
theorem tableOf_eq_some {s : State} {sel : Half} {base : Word} {limit : Nat}
    (h : (sel.getLsbD 2 = false ∧ base = s.gdtr.base ∧ limit = s.gdtr.limit.toNat) ∨
      (sel.getLsbD 2 = true ∧ s.ldtr.valid = true ∧ base = s.ldtr.base ∧ limit = s.ldtr.limit.toNat)) :
    s.tableOf sel = some (base, limit) := by
  obtain ⟨hti, rfl, rfl⟩ | ⟨hti, hv, rfl, rfl⟩ := h
  · simp only [State.tableOf, selTi, hti, Bool.false_eq_true, if_false]
  · simp only [State.tableOf, selTi, hti, hv, if_true]

theorem State.linearSpace_eq (s : State) : s.linearSpace = if s.mode = .long64 then 2 ^ 64 else 2 ^ 32 := by
  simp [State.linearSpace, State.long64_iff]

/-- The linear address of byte `k` of the descriptor of a selector (10_state.md R59). -/
def State.descByte (s : State) (base : Word) (sel : Half) (k : Nat) : Nat :=
  (base.toNat + 8 * (sel.toNat / 8) + k) % s.linearSpace

theorem descBytes_eq (s : State) (base : Word) (sel : Half) :
    s.descBytes base sel = (List.range 8).map (s.descByte base sel) := by
  simp [State.descBytes, State.linearBytes, State.descByte, selIndex_eq]

theorem getD_map_range {α : Type} (f : Nat → α) (x : α) {n k : Nat} (hk : k < n) :
    ((List.range n).map f).getD k x = f k := by
  simp [List.getD_eq_getElem?_getD, hk]

/-! ### Before the bytes are translated -/

theorem descLookup_noTable {s : State} {sel : Half} (h : s.tableOf sel = none) :
    s.descLookup sel = .ok .outsideLimit := by
  simp only [State.descLookup, h]

theorem descLookup_outsideLimit {s : State} {sel : Half} {base : Word} {limit : Nat}
    (h : s.tableOf sel = some (base, limit)) (hl : limit < 8 * (sel.toNat / 8) + 7) :
    s.descLookup sel = .ok .outsideLimit := by
  simp only [State.descLookup, h, selIndex_eq, gt_iff_lt, if_pos hl]

theorem descLookup_nonCanonical {s : State} {sel : Half} {base : Word} {limit k : Nat}
    (h : s.tableOf sel = some (base, limit)) (hl : 8 * (sel.toNat / 8) + 7 ≤ limit) (hm : s.mode = .long64) (hk : k < 8)
    (hc : canonical s.params.vaBits (s.descByte base sel k) = false) : s.descLookup sel = .ok .nonCanonical := by
  have hall : (s.descBytes base sel).all (canonical s.params.vaBits) = false := by
    rw [descBytes_eq, List.all_eq_false]
    exact ⟨_, List.mem_map_of_mem (List.mem_range.2 hk), by simp [hc]⟩
  simp [State.descLookup, h, selIndex_eq, Nat.not_lt.2 hl, (State.long64_iff s).2 hm, hall]

/-- The tests before the descriptor's bytes are translated pass: the selector has a table, the table's limit holds the
last byte, and in LONG64 mode every byte is canonical. -/
structure DescInTable (s : State) (sel : Half) (base : Word) (limit : Nat) : Prop where
  table : s.tableOf sel = some (base, limit)
  last : 8 * (sel.toNat / 8) + 7 ≤ limit
  bytes : s.mode = .long64 → ∀ k, k < 8 → canonical s.params.vaBits (s.descByte base sel k) = true

/-! ### Past those tests -/

section
variable {s : State} {sel : Half} {base : Word} {limit : Nat} {pa : Nat → Nat}

theorem DescInTable.canonical_test (h : DescInTable s sel base limit) :
    (s.long64 && !(s.descBytes base sel).all (canonical s.params.vaBits)) = false := by
  cases hm : s.long64 with
  | false => rfl
  | true =>
    have hall := h.bytes ((State.long64_iff s).1 hm)
    simpa [descBytes_eq] using hall

theorem DescInTable.pageFault (h : DescInTable s sel base limit) {code : Nat}
    (ht : s.translate .table (s.descBytes base sel) = .error code) : s.descLookup sel = .ok (.pageFault code) := by
  simp [State.descLookup, h.table, selIndex_eq, Nat.not_lt.2 h.last, h.canonical_test, ht]

/-- Where the bytes have physical addresses, the lookup asks whether they exist and reads them there. -/
theorem DescInTable.translated (h : DescInTable s sel base limit) {pas : List Nat}
    (ht : s.translate .table (s.descBytes base sel) = .ok pas) :
    s.descLookup sel =
      (s.checkOwned pas).bind fun _ =>
        (readBytes s.mem pas).map fun bs => .found (BitVec.ofNat 64 (leValue bs)) pas := by
  simp [State.descLookup, h.table, selIndex_eq, Nat.not_lt.2 h.last, h.canonical_test, ht]

/-- The first byte that page-faults gives the code. -/
theorem DescInTable.pageFault_first (h : DescInTable s sel base limit) {k code : Nat} (hk : k < 8)
    (hb : ∀ j, j < k → ∃ a, s.translateByte .table (s.descByte base sel j) = .ok a)
    (hf : s.translateByte .table (s.descByte base sel k) = .error code) : s.descLookup sel = .ok (.pageFault code) := by
  refine h.pageFault (translate_error (k := k) (by simp [descBytes_eq, hk]) ?_ fun j hj => ?_)
  · rwa [descBytes_eq, getD_map_range _ _ hk]
  · rw [descBytes_eq, getD_map_range _ _ (hj.trans hk)]
    exact hb j hj

/-- Translating the eight bytes one by one. -/
theorem translate_descBytes
    (ht : ∀ k, k < 8 → s.translateByte .table (s.descByte base sel k) = .ok (pa k)) :
    s.translate .table (s.descBytes base sel) = .ok ((List.range 8).map pa) := by
  rw [descBytes_eq, translate_eq_ok]
  refine ⟨by simp, fun k hk => ?_⟩
  have hk8 : k < 8 := by simpa using hk
  rw [getD_map_range _ _ hk8, getD_map_range _ _ hk8]
  exact ht k hk8

theorem checkOwned_range (ho : ∀ k, k < 8 → s.owns (pa k) = true) : s.checkOwned ((List.range 8).map pa) = .ok () := by
  rw [checkOwned_eq_ok]
  intro a ha
  obtain ⟨k, hk, rfl⟩ := List.mem_map.1 ha
  exact ho k (List.mem_range.1 hk)

variable (h : DescInTable s sel base limit)
  (ht : ∀ k, k < 8 → s.translateByte .table (s.descByte base sel k) = .ok (pa k))
include h ht

/-- The eight bytes exist and have values: they are the descriptor, the least significant first. -/
theorem DescInTable.found {d : Word} (ho : ∀ k, k < 8 → s.owns (pa k) = true)
    (hv : ∀ k, k < 8 → memGet s.mem (pa k) = some (d.extractLsb' (8 * k) 8)) :
    s.descLookup sel = .ok (.found d ((List.range 8).map pa)) := by
  have hbytes : BytesAre s.mem ((List.range 8).map pa) 8 d := by
    intro k hk
    rw [getD_map_range _ _ hk]
    exact hv k hk
  have hd : BitVec.ofNat 64 (leValue (leBytes 8 d.toNat)) = d := by
    rw [leValue_leBytes, Nat.mod_eq_of_lt d.isLt, BitVec.ofNat_toNat, BitVec.setWidth_eq]
  rw [h.translated (translate_descBytes ht), checkOwned_range ho, readBytes_of_bytesAre (by simp) hbytes, bind_ok,
    map_ok, hd]

/-- The first byte that does not exist stops the lookup (20_memory.md R91; log 7). -/
theorem DescInTable.notOwned {k : Nat} (hk : k < 8) (hn : s.owns (pa k) = false)
    (ho : ∀ j, j < k → s.owns (pa j) = true) :
    s.descLookup sel = .error (.fault (.notOwned (pa k))) := by
  have hstop := checkOwned_error (s := s) (pas := (List.range 8).map pa) (k := k) (by simpa using hk)
    (by rwa [getD_map_range _ _ hk]) (fun j hj => by rw [getD_map_range _ _ (hj.trans hk)]; exact ho j hj)
  rw [getD_map_range _ _ hk] at hstop
  rw [h.translated (translate_descBytes ht), hstop, bind_error]

/-- Where all bytes exist, the first that nothing has written stops the lookup (log 7). -/
theorem DescInTable.unwritten {k : Nat} (hk : k < 8) (ho : ∀ j, j < 8 → s.owns (pa j) = true)
    (hn : memGet s.mem (pa k) = none) (hv : ∀ j, j < k → (memGet s.mem (pa j)).isSome = true) :
    s.descLookup sel = .error (.fault (.unwritten (pa k))) := by
  have hstop := readBytes_unwritten (m := s.mem) (as := (List.range 8).map pa) (k := k) (by simpa using hk)
    (by rwa [getD_map_range _ _ hk]) (fun j hj => by rw [getD_map_range _ _ (hj.trans hk)]; exact hv j hj)
  rw [getD_map_range _ _ hk] at hstop
  rw [h.translated (translate_descBytes ht), checkOwned_range ho, bind_ok, hstop, map_error]

end

/-! ### The statement -/

/-- Settles O47, outcome by outcome in the order of the tests. -/
theorem descriptorLookup : Obligations.DescriptorLookup := by
  unfold Obligations.DescriptorLookup
  rintro s sel base limit _ rfl
  rw [← State.linearSpace_eq]
  refine ⟨fun hti hv => descLookup_noTable (tableOf_invalidLdt hti hv), fun hmeans => ?_⟩
  have htable := tableOf_eq_some hmeans
  refine ⟨descLookup_outsideLimit htable, fun hlast hm ⟨k, hk, hc⟩ => descLookup_nonCanonical htable hlast hm hk hc,
    fun hlast hcanonical pa => ?_⟩
  have hin : DescInTable s sel base limit := ⟨htable, hlast, hcanonical⟩
  refine ⟨fun ht => ⟨fun d ho hv => hin.found ht ho hv, fun k hk hn ho => hin.notOwned ht hk hn ho,
    fun k hk ho hn hv => hin.unwritten ht hk ho hn hv⟩, fun k code hk hb hf => ?_⟩
  exact hin.pageFault_first hk (fun j hj => ⟨pa j, hb j hj⟩) hf

end Sys2Proof.Machine
end

section
/-! PROOFS. The instruction that a step runs, and what is not run (20_memory.md R98, R100; 30_encoding.md R135, R137;
10_state.md R28). -/

namespace Sys2Proof.Machine

/-! ### The bytes fetched -/

section
variable {s : State} {bs : List Byte} {k : Nat}

/-- Bytes that are all supplied are fetched. -/
theorem fetchBytes_supplied (h : ∀ j, j < bs.length → s.fetchByte (k + j) = .ok (bs.getD j 0#8)) :
    s.fetchBytes bs.length k = (bs, none) := by
  induction bs generalizing k with
  | nil => rfl
  | cons b bs ih =>
    have hfirst : s.fetchByte k = .ok b := h 0 (by simp)
    have hrest : s.fetchBytes bs.length (k + 1) = (bs, none) := ih fun j hj => by
      rw [Nat.add_right_comm]
      exact h (j + 1) (by simpa using hj)
    simp [State.fetchBytes, hfirst, hrest]

/-- The fetch ends at the first byte that is refused, with that byte's reason. -/
theorem fetchBytes_refused {n : Nat} {r : Refusal} (hn : bs.length < n)
    (h : ∀ j, j < bs.length → s.fetchByte (k + j) = .ok (bs.getD j 0#8))
    (hr : s.fetchByte (k + bs.length) = .error r) :
    s.fetchBytes n k = (bs, some r) := by
  induction bs generalizing n k with
  | nil =>
    obtain ⟨m, rfl⟩ := Nat.exists_eq_succ_of_ne_zero (Nat.ne_of_gt hn)
    exact fetchBytes_error hr
  | cons b bs ih =>
    obtain ⟨m, rfl⟩ := Nat.exists_eq_succ_of_ne_zero (Nat.ne_zero_of_lt hn)
    have hfirst : s.fetchByte k = .ok b := h 0 (by simp)
    have hrest : s.fetchBytes m (k + 1) = (bs, some r) := by
      refine ih (by simpa using hn) (fun j hj => ?_) ?_
      · rw [Nat.add_right_comm]
        exact h (j + 1) (by simpa using hj)
      · rw [Nat.add_right_comm]
        exact hr
    simp [State.fetchBytes, hfirst, hrest]

end

/-- A byte is not supplied where it has no address to be fetched from, or none that exists and has a value
(20_memory.md R100, 92 D3). -/
theorem fetchByte_notSupplied {s : State} {k : Nat}
    (h : ∀ a, s.fetchAddr k = some a → a ∉ s.stored ∧ (s.owns a = false ∨ memGet s.mem a = none)) :
    s.fetchByte k = .error (.fetch s.pc) := by
  unfold State.fetchByte
  cases ha : s.fetchAddr k with
  | none => rfl
  | some a =>
    obtain ⟨hstored, howned | hvalue⟩ := h a ha
    · simp [hstored, howned]
    · simp [hstored, hvalue]

/-! ### Why no instruction is fetched -/

section
variable {s : State}

theorem fetchInstr_rejected {why : Reject} (h : decode s.env (s.fetchBytes 15 0).1 = .error why)
    (hw : why ≠ .truncated) : s.fetchInstr = .error (.notAMov why s.pc) := by
  simp only [State.fetchInstr, h]

/-- The decoder needs a byte that is not fetched: the reason is that byte's. -/
theorem fetchInstr_refused {bs : List Byte} {r : Refusal} (hf : s.fetchBytes 15 0 = (bs, some r))
    (hd : decode s.env bs = .error .truncated) : s.fetchInstr = .error r := by
  simp only [State.fetchInstr, hf, hd]

/-- The decoder needs a sixteenth byte (30_encoding.md R137). -/
theorem fetchInstr_tooLong {bs : List Byte} (hf : s.fetchBytes 15 0 = (bs, none))
    (hd : decode s.env bs = .error .truncated) : s.fetchInstr = .error (.notAMov .tooLong s.pc) := by
  simp only [State.fetchInstr, hf, hd]

theorem fetchInstr_pastTop {i : Instr} {rest : List Byte} (hd : decode s.env (s.fetchBytes 15 0).1 = .ok (i, rest))
    (hm : s.mode = .long64) (ht : 2 ^ 64 ≤ s.pc.toNat + instrLength i) : s.fetchInstr = .error (.pcPastTop s.pc) := by
  simp only [State.fetchInstr, hd, (State.long64_iff s).2 hm, ht, decide_true, Bool.and_true, if_true]

end

/-- No bytes are too few for any instruction. -/
theorem decode_nil (e : DecodeEnv) : decode e [] = .error .truncated := rfl

/-! ### The statements -/

/-- Settles O4: the bytes decode, so `fetchInstr` gives the instruction, and the step runs it past the boundary. -/
theorem stepRunsDecoded : Obligations.StepRunsDecoded := by
  unfold Obligations.StepRunsDecoded
  intro s i rest hrun hevent hdecode htop
  exact step_of_fetchInstr hrun hevent (fetchInstr_eq_ok.2 ⟨⟨rest, hdecode⟩, htop⟩)

/-- Settles O6, clause by clause: each names why `fetchInstr` or `fetchByte` refuses. -/
theorem fetchRefused : Obligations.FetchRefused := by
  unfold Obligations.FetchRefused
  intro s hrun hevent
  have hstep : ∀ r, s.fetchInstr = .error r → step s = .refused r := fun r => step_of_fetchInstr_error hrun hevent
  have hfirst : ∀ r, s.fetchByte 0 = .error r → step s = .refused r := fun r hr =>
    hstep r (fetchInstr_refused (fetchBytes_error hr) (decode_nil s.env))
  refine ⟨hfirst, fun a ha hs => hfirst _ (fetchByte_stored ha hs), fun bs r hl hb hd hr => ?_,
    fun k a => fetchByte_stored, fun k => fetchByte_notSupplied, fun why hd hw => hstep _ (fetchInstr_rejected hd hw),
    fun bs hl hb hd => ?_, fun i rest hd hm ht => hstep _ (fetchInstr_pastTop hd hm ht)⟩
  · exact hstep r (fetchInstr_refused (fetchBytes_refused hl (by simpa using hb) (by simpa using hr)) hd)
  · have hfetched := fetchBytes_supplied (s := s) (bs := bs) (k := 0) (by simpa [hl] using hb)
    rw [hl] at hfetched
    exact hstep _ (fetchInstr_tooLong hfetched hd)

end Sys2Proof.Machine
end

section
/-! PROOFS. What holds of every instruction: LOCK, and which bytes of memory can change (20_memory.md R73, R86,
R87, R89; 10_state.md R59). -/

namespace Sys2Proof.Machine

/-! ### LOCK -/

/-- Every row is its own effect in the one frame of `complete`. -/
theorem exec_eq_complete (i : Instr) (s : State) :
    ∃ body, exec i s = complete (instrPfx i) (instrLength i) s body := by
  cases i with
  | movR8Imm8 | movR8Imm8Rex | movR16Imm16 | movR32Imm32 | movR64Imm64 => exact ⟨.ok _, rfl⟩
  | _ => exact ⟨_, rfl⟩

/-- Settles O14: `complete` tests for LOCK before it looks at the row's own effect. -/
theorem lockRaises : Obligations.LockRaises := by
  unfold Obligations.LockRaises Raises
  intro i s hlock
  obtain ⟨body, hexec⟩ := exec_eq_complete i s
  rw [hexec, complete_locked hlock]

/-! ### The bytes that change -/

/-- A byte that a store changes is at one of its addresses. -/
theorem store_changed {s : State} {pas : List Nat} {bs : List Byte} {a : Nat}
    (h : memGet (s.store pas bs).mem a ≠ memGet s.mem a) : a ∈ pas :=
  Decidable.by_contra fun ha => h (memGet_memSetAll_outside ha)

/-- A byte that a load of a segment register changes is the sixth of the descriptor it found, not marked accessed before
(10_state.md R59; log 21). -/
theorem loadSreg_changed {s u : State} {r : Sreg} {sel : Half} {a : Nat} (h : s.loadSreg r sel = .ok u)
    (ha : memGet u.mem a ≠ memGet s.mem a) :
    ∃ d pas, s.descLookup sel = .ok (.found d pas) ∧ a = pas.getD 5 0 ∧ d.getLsbD 40 = false := by
  obtain ⟨-, rfl⟩ | ⟨-, rfl⟩ | ⟨-, -, -, rfl⟩ | ⟨-, -, hload⟩ := loadSreg_eq_ok.1 h
  · exact absurd rfl ha
  · exact absurd rfl ha
  · exact absurd rfl ha
  · obtain ⟨d, pas, hfound, -, -, -, rfl⟩ := loadDescriptor_eq_ok.1 hload
    obtain ⟨hmarked, hmark⟩ := setAccessed_accessedSet s d pas
    cases hbit : d.getLsbD 40 with
    | true => exact absurd ((hmarked hbit).bytes a) ha
    | false => exact ⟨d, pas, hfound, Decidable.by_contra fun hne => ha ((hmark hbit).2 a hne), hbit⟩

/-- Settles O17, by the kind of effect: only stores and loads from a descriptor write memory. -/
theorem storesOnlyItsOperand : Obligations.StoresOnlyItsOperand := by
  unfold Obligations.StoresOnlyItsOperand
  intro i s t a h ha
  obtain ⟨-, u, he, rfl⟩ := exec_effect h
  rw [State.advance_mem] at ha
  cases he with
  | stored d pas v hm hl hd hacc hp => exact .inl ⟨d, pas, hd, hacc, hp, store_changed ha⟩
  | loaded r sel u hm hs hr hl hu =>
    obtain ⟨d, pas, hfound, hbyte, hclear⟩ := loadSreg_changed hu ha
    exact .inr ⟨r, sel, d, pas, hl, hfound, hbyte, hclear⟩
  | wroteCr w g r u hm hp hc hn h8 hu =>
    rw [State.undefineFlags_mem, writeCrReg_touches hu] at ha
    exact absurd rfl ha
  | wroteReg | readSystem | wroteDr => exact absurd rfl ha

end Sys2Proof.Machine
end

section
/-! PROOFS. The offset and the segment of a memory operand (20_memory.md R74, R75; 30_encoding.md R111, R112, R117 to R122,
R124, R127). -/

namespace Sys2Proof.Machine

/-! ### Words as numbers modulo 2 to a width -/

section
variable {k : Nat} {x y : Word} {m n : Int}

/-- A word's number modulo 2 to a smaller width does not see the reduction to 64 bits. -/
theorem mod_word_modEq (hk : k ≤ 64) (n : Int) : n % 2 ^ 64 ≡ n [ZMOD 2 ^ k] :=
  (Int.mod_modEq n (2 ^ 64)).of_dvd (pow_dvd_pow 2 hk)

theorem add_modEq (hk : k ≤ 64) (hx : (x.toNat : Int) ≡ m [ZMOD 2 ^ k]) (hy : (y.toNat : Int) ≡ n [ZMOD 2 ^ k]) :
    ((x + y).toNat : Int) ≡ m + n [ZMOD 2 ^ k] := by
  rw [BitVec.toNat_add]
  push_cast
  exact (mod_word_modEq hk _).trans (hx.add hy)

theorem shiftLeft_modEq (hk : k ≤ 64) (j : Nat) (hx : (x.toNat : Int) ≡ m [ZMOD 2 ^ k]) :
    ((x <<< j).toNat : Int) ≡ m * 2 ^ j [ZMOD 2 ^ k] := by
  rw [BitVec.toNat_shiftLeft, Nat.shiftLeft_eq]
  push_cast
  exact (mod_word_modEq hk _).trans (hx.mul_right _)

theorem signExtend_modEq (hk : k ≤ 64) {w : Nat} (hw : w ≤ 64) (v : BitVec w) :
    ((v.signExtend 64).toNat : Int) ≡ v.toInt [ZMOD 2 ^ k] := by
  have hsame : (v.signExtend 64).toInt = v.toInt := BitVec.toInt_signExtend_of_le hw
  rw [← hsame, BitVec.toInt_eq_toNat_bmod]
  exact (Int.ModEq.symm (Int.bmod_emod ..)).of_dvd (pow_dvd_pow 2 hk)

theorem ofNat_modEq (hk : k ≤ 64) (n : Nat) : ((BitVec.ofNat 64 n).toNat : Int) ≡ n [ZMOD 2 ^ k] := by
  rw [BitVec.toNat_ofNat]
  push_cast
  exact mod_word_modEq hk n

theorem dispValue_modEq (hk : k ≤ 64) {w : Nat} (hw : w ≤ 64) (d : Disp w) :
    ((dispValue d).toNat : Int) ≡ dispInt d [ZMOD 2 ^ k] := by
  cases d with
  | none => rfl
  | d8 v => exact signExtend_modEq hk (by decide) v
  | full v => exact signExtend_modEq hk hw v

end

/-! ### The address size -/

theorem addrBits_le (a : AddrSize) : addrBits a ≤ 64 := by cases a <;> decide

theorem truncAddr_toNat (a : AddrSize) (v : Word) : (truncAddr a v).toNat = v.toNat % 2 ^ addrBits a := by
  have hv := v.isLt
  cases a with
  | a16 | a32 => simp only [truncAddr, addrBits, BitVec.toNat_setWidth]; omega
  | a64 => exact (Nat.mod_eq_of_lt hv).symm

/-- Truncation to the address size: the sum modulo 2 to that size (20_memory.md R74). -/
theorem truncAddr_eq {a : AddrSize} {v : Word} {n : Int} (h : (v.toNat : Int) ≡ n [ZMOD 2 ^ addrBits a]) :
    ((truncAddr a v).toNat : Int) = n % 2 ^ addrBits a := by
  rw [truncAddr_toNat]
  push_cast
  exact h

theorem addrReg_modEq (s : State) (a : AddrSize) (r : Gpr) :
    ((s.addrReg a r).toNat : Int) ≡ (s.gpr.get r).toNat [ZMOD 2 ^ addrBits a] := by
  rw [State.addrReg, truncAddr_eq rfl]
  exact Int.mod_modEq ..

theorem indexTerm_modEq (s : State) (a : AddrSize) (scale : BitVec 2) (r : Gpr) :
    ((s.indexTerm a scale (some r)).toNat : Int) ≡ (s.gpr.get r).toNat * 2 ^ scale.toNat [ZMOD 2 ^ addrBits a] :=
  shiftLeft_modEq (addrBits_le a) _ (addrReg_modEq s a r)

/-- The sum of the registers of a 16-bit base, each a number (30_encoding.md R118). -/
theorem base16_modEq (s : State) (b : Base16) :
    ((s.base16 b).toNat : Int) ≡ ((base16Regs b).map fun r => ((s.gpr.get r).toNat : Int)).sum [ZMOD 2 ^ 16] := by
  cases b with
  | bxSi | bxDi | bpSi | bpDi =>
    simp only [base16Regs, List.map_cons, List.map_nil, List.sum_cons, List.sum_nil, add_zero]
    exact add_modEq (by decide) Int.ModEq.rfl Int.ModEq.rfl
  | si | di | bp | bx =>
    simp only [base16Regs, List.map_cons, List.map_nil, List.sum_cons, List.sum_nil, add_zero]
    exact Int.ModEq.rfl

/-! ### The effective address -/

/-- Settles O29, form by form: each term is its number modulo 2 to the address size, and so is the sum. -/
theorem effectiveAddress : Obligations.EffectiveAddress := by
  unfold Obligations.EffectiveAddress
  intro s p len
  have hle := addrBits_le (addrSize s.env p)
  have hreg := addrReg_modEq s (addrSize s.env p)
  have hindex := indexTerm_modEq s (addrSize s.env p)
  have hdisp (d : Disp 32) := dispValue_modEq hle (by decide) d
  have hdisp32 (d : Dword) := signExtend_modEq hle (by decide) d
  refine ⟨fun b d => ?_, fun d => ?_, fun r d => ?_, fun sc x b d => ?_, fun sc b d => ?_, fun sc x d => ?_,
    fun sc d => ?_, fun d => ?_, fun d => ?_⟩
  · exact truncAddr_eq (a := .a16)
      (add_modEq (by decide) (base16_modEq s b) (dispValue_modEq (by decide) (by decide) d))
  · simp only [State.effAddr, BitVec.toNat_setWidth]
    omega
  · exact truncAddr_eq (add_modEq hle (hreg r) (hdisp d))
  · exact truncAddr_eq (add_modEq hle (add_modEq hle (hreg b) (hindex sc x)) (hdisp d))
  · have hnone : s.addrReg (addrSize s.env p) b + s.indexTerm (addrSize s.env p) sc none =
        s.addrReg (addrSize s.env p) b := BitVec.add_zero _
    rw [State.effAddr, hnone]
    exact truncAddr_eq (add_modEq hle (hreg b) (hdisp d))
  · exact truncAddr_eq (add_modEq hle (hindex sc x) (hdisp32 d))
  · simpa [State.effAddr, State.indexTerm] using truncAddr_eq (hdisp32 d)
  · exact truncAddr_eq (hdisp32 d)
  · have hpc := add_modEq hle (Int.ModEq.rfl (a := (s.pc.toNat : Int))) (ofNat_modEq hle len)
    exact truncAddr_eq (add_modEq hle hpc (hdisp32 d))

/-! ### The segment override -/

/-- The segment register that a legacy byte makes the operand's, if it is an override that counts (30_encoding.md R111;
log 32). -/
def overrideOf (long64 : Bool) : LegacyPfx → Option Sreg
  | .seg q => if long64 = true ∧ q ≠ .fs ∧ q ≠ .gs then none else some q
  | .opSize | .addrSize | .lock | .staleRex _ => none

/-- The override of the prefixes is the last that counts (30_encoding.md R112). -/
theorem override_eq (p : Pfx) (l : Bool) : p.override l = (p.legacy.filterMap (overrideOf l)).getLast? := by
  unfold Pfx.override
  refine congrArg (fun f => (p.legacy.filterMap f).getLast?) (funext fun x => ?_)
  cases x with
  | seg q => cases l <;> cases q <;> rfl
  | opSize | addrSize | lock | staleRex => rfl

theorem filterMap_override_of_no_seg {ys : List LegacyPfx} (l : Bool) (h : ∀ y, y ∈ ys → isSegPfx y = false) :
    ys.filterMap (overrideOf l) = [] := by
  rw [List.filterMap_eq_nil_iff]
  intro y hy
  cases y with
  | seg q => exact absurd (h _ hy) (by simp [isSegPfx])
  | opSize | addrSize | lock | staleRex => rfl

section
variable {xs ys : List LegacyPfx} {rex : Option Rex} {l : Bool} (h : ∀ y, y ∈ ys → isSegPfx y = false)
include h

theorem override_none : (⟨ys, rex⟩ : Pfx).override l = none := by
  rw [override_eq, filterMap_override_of_no_seg l h]
  rfl

/-- The last override, if it counts, is in force. -/
theorem override_last {q : Sreg} (hq : l = false ∨ q = .fs ∨ q = .gs) :
    (⟨xs ++ .seg q :: ys, rex⟩ : Pfx).override l = some q := by
  have hcounts : overrideOf l (.seg q) = some q := if_neg (by rcases hq with rfl | rfl | rfl <;> simp)
  simp [override_eq, hcounts, filterMap_override_of_no_seg l h]

omit h in
/-- An override that does not count is as if it were not there (log 32). -/
theorem override_ignored {q : Sreg} (hl : l = true) (hfs : q ≠ .fs) (hgs : q ≠ .gs) :
    (⟨xs ++ .seg q :: ys, rex⟩ : Pfx).override l = (⟨xs ++ ys, rex⟩ : Pfx).override l := by
  have hcounts : overrideOf l (.seg q) = none := if_pos ⟨hl, hfs, hgs⟩
  simp [override_eq, hcounts]

end

theorem operandSeg_of_override {s : State} {p : Pfx} {q : Sreg} (stack : Bool) (h : p.override s.long64 = some q) :
    s.operandSeg p stack = q := by
  simp only [State.operandSeg, h]

theorem operandSeg_default {s : State} {p : Pfx} (stack : Bool) (h : p.override s.long64 = none) :
    s.operandSeg p stack = if stack = true then .ss else .ds := by
  simp only [State.operandSeg, h]

theorem operandSeg_congr {s : State} {p p' : Pfx} (stack : Bool) (h : p.override s.long64 = p'.override s.long64) :
    s.operandSeg p stack = s.operandSeg p' stack := by
  simp only [State.operandSeg, h]

/-- Settles O30: the override that is in force, or the default of the form. -/
theorem operandSegment : Obligations.OperandSegment := by
  unfold Obligations.OperandSegment
  intro s xs ys rex q hys
  have hdefault : ∀ stack, s.operandSeg ⟨ys, rex⟩ stack = if stack = true then .ss else .ds := fun stack =>
    operandSeg_default stack (override_none hys)
  refine ⟨fun hq => ?_, fun hm hfs hgs => ?_, fun b d => ?_, fun d => hdefault _, fun r d => ?_, fun sc idx b d => ?_,
    fun sc idx d => hdefault _, fun d => hdefault _, fun d => hdefault _, hdefault _⟩
  · have hcounts : s.long64 = false ∨ q = .fs ∨ q = .gs :=
      hq.imp_left fun hm => Bool.eq_false_iff.2 fun hl => hm ((State.long64_iff s).1 hl)
    have hlast : ∀ stack, s.operandSeg ⟨xs ++ .seg q :: ys, rex⟩ stack = q := fun stack =>
      operandSeg_of_override stack (override_last hys hcounts)
    exact ⟨fun m => hlast _, hlast _⟩
  · have hignored : ∀ stack, s.operandSeg ⟨xs ++ .seg q :: ys, rex⟩ stack = s.operandSeg ⟨xs ++ ys, rex⟩ stack :=
      fun stack => operandSeg_congr stack (override_ignored ((State.long64_iff s).2 hm) hfs hgs)
    exact ⟨fun m => hignored _, hignored _⟩
  · rw [State.memSeg, hdefault]
    cases b <;> rfl
  · simp [State.memSeg, hdefault, stackDefault]
  · simp [State.memSeg, hdefault, stackDefault]

end Sys2Proof.Machine
end

section
/-! PROOFS. Where a data access reaches, what stops it, and that every row with a memory operand stops with it
(20_memory.md R72, R76 to R87, R90, R91; 60_exceptions.md R321). -/

namespace Sys2Proof.Machine

/-! ### Linear addresses -/

theorem segBase_toNat (s : State) (r : Sreg) :
    (s.segBase r).toNat = if s.mode = .long64 ∧ r ≠ .fs ∧ r ≠ .gs then 0 else (s.seg.get r).hid.base.toNat := by
  unfold State.segBase
  by_cases hm : s.mode = .long64
  · cases r <;> simp [State.long64, hm]
  · simp [State.long64, hm]

theorem pagingOn_eq_false {s : State} (h : s.mode = .real ∨ s.cr.cr0.getLsbD 31 = false) : s.pagingOn = false := by
  obtain hreal | hpg := h
  · simp [State.pagingOn, hreal]
  · rw [State.pagingOn, cr0PG, hpg, Bool.and_false]

/-- Settles O32: `physBytes_eq_ok`, where `Translate` is the identity without paging. -/
theorem accessReaches : Obligations.AccessReaches := by
  unfold Obligations.AccessReaches
  intro s d pas hseg halign howned
  have hreach : translateAccess s d = .ok pas → s.physBytes d.seg d.off d.n d.acc = .ok pas := fun ht =>
    physBytes_eq_ok.2 ⟨hseg, ht, halign, howned⟩
  refine ⟨fun hoff hpas => hreach ?_, hreach⟩
  rw [translateAccess, translate_off _ (pagingOn_eq_false hoff), hpas]
  simp only [State.linearBytes, State.linear, segBase_toNat, State.linearSpace_eq]

/-! ### The segment-level faults -/

section
variable {s : State} {r : Sreg} {off : Word} {n : Nat} {acc : Access}

theorem checkSegment_null (hm : s.mode = .prot ∨ s.mode = .compat) (hr : DataSreg r)
    (hk : (s.seg.get r).hid.kind = .null) : s.checkSegment r off n acc = raise s .gp (.code 0) := by
  have hd := (isDataSreg_iff r).2 hr
  obtain hm | hm := hm <;> simp [State.checkSegment, hm, hd, hk]

/-- The test for a NULL segment passes. -/
theorem nullTest_eq_false (h : ¬ (DataSreg r ∧ (s.seg.get r).hid.kind = .null)) :
    (isDataSreg r && (s.seg.get r).hid.kind == .null) = false := by
  rw [← isDataSreg_iff] at h
  simpa using h

theorem checkSegment_limit (hm : s.mode = .prot ∨ s.mode = .compat)
    (hk : ¬ (DataSreg r ∧ (s.seg.get r).hid.kind = .null)) (hl : (s.seg.get r).hid.attr.inLimit off.toNat n = false) :
    s.checkSegment r off n acc = raise s (if r = .ss then .ss else .gp) (.code 0) := by
  have hnull := nullTest_eq_false hk
  obtain hm | hm := hm <;> simp [State.checkSegment, hm, hnull, hl, segFaultClass_eq]

theorem checkSegment_notWritable (hm : s.mode = .prot ∨ s.mode = .compat)
    (hk : ¬ (DataSreg r ∧ (s.seg.get r).hid.kind = .null)) (hl : (s.seg.get r).hid.attr.inLimit off.toNat n = true)
    (hw : (s.seg.get r).hid.attr.writable = false) : s.checkSegment r off n .write = raise s .gp (.code 0) := by
  have hnull := nullTest_eq_false hk
  obtain hm | hm := hm <;> simp [State.checkSegment, hm, hnull, hl, hw]

theorem checkSegment_limit_unchecked (hm : s.mode = .real ∨ s.mode = .v86)
    (hl : (s.seg.get r).hid.attr.inLimit off.toNat n = false) :
    s.checkSegment r off n acc = raise s (if r = .ss then .ss else .gp) s.zeroCode := by
  obtain hm | hm := hm <;> simp [State.checkSegment, hm, hl, segFaultClass_eq]

theorem checkSegment_nonCanonical (hm : s.mode = .long64)
    (hc : ∃ k, k < n ∧ canonical s.params.vaBits ((s.linear r off + k) % 2 ^ 64) = false) :
    s.checkSegment r off n acc = raise s (if r = .ss then .ss else .gp) (.code 0) := by
  have hall : ¬ (s.linearBytes (s.linear r off) n).all (canonical s.params.vaBits) = true := by
    rw [linearBytes_all, State.linearSpace_long64 hm]
    obtain ⟨k, hk, hc⟩ := hc
    exact fun h => Bool.false_ne_true (hc.symm.trans (h k hk))
  simp only [State.checkSegment, hm, if_neg hall, segFaultClass_eq]

end

/-! ### The faults after the segment-level tests -/

section
variable {s : State} {d : DataAccess} (hseg : SegmentPasses s d)
include hseg

theorem physBytes_misaligned {pas : List Nat} (ht : translateAccess s d = .ok pas) (hm : Misaligned s d) :
    s.physBytes d.seg d.off d.n d.acc = raise s .ac (.code 0) := by
  unfold translateAccess at ht
  simp only [State.physBytes, checkSegment_eq_ok.2 hseg, bind_ok, ht, misaligned_iff.2 hm, if_true]

/-- An access that page-faults raises #PF, or #AC where that applies too and comes first (20_memory.md R84; log 10). -/
theorem physBytes_pageFault {code : Nat} (ht : translateAccess s d = .error code) :
    s.physBytes d.seg d.off d.n d.acc =
      if s.misaligned (s.linear d.seg d.off) d.n && s.acBeforePf then raise s .ac (.code 0)
      else raise s .pf (.code code) := by
  unfold translateAccess at ht
  simp only [State.physBytes, checkSegment_eq_ok.2 hseg, bind_ok, ht]

theorem physBytes_aligned {pas : List Nat} (ht : translateAccess s d = .ok pas) (hm : ¬ Misaligned s d) :
    s.physBytes d.seg d.off d.n d.acc = (s.checkOwned pas).map fun _ => pas := by
  unfold translateAccess at ht
  rw [← misaligned_iff] at hm
  simp only [State.physBytes, checkSegment_eq_ok.2 hseg, bind_ok, ht, if_neg hm]

end

theorem translateAccess_length {s : State} {d : DataAccess} {pas : List Nat} (h : translateAccess s d = .ok pas) :
    pas.length = d.n := by
  simpa using translate_length h

/-! ### A row stops with its access -/

/-- The access stops the machine with this fault, as a read or as a write of any value. -/
structure AccessStops (s : State) (d : DataAccess) (f : Fault) : Prop where
  read : d.acc = .read → s.logRead d.seg d.off d.n = .error (.fault f)
  write : d.acc = .write → ∀ v, s.logWrite d.seg d.off d.n v = .error (.fault f)

theorem AccessStops.of_physBytes {s : State} {d : DataAccess} {f : Fault}
    (h : s.physBytes d.seg d.off d.n d.acc = .error (.fault f)) : AccessStops s d f where
  read ha := by
    rw [ha] at h
    rw [State.logRead, h, bind_error]
  write ha v := by
    rw [ha] at h
    rw [State.logWrite, h, map_error]

/-- A read whose tests pass stops at the first byte without a value (log 7). -/
theorem AccessStops.of_readBytes {s : State} {d : DataAccess} {pas : List Nat} {f : Fault} (ha : d.acc = .read)
    (hp : s.physBytes d.seg d.off d.n d.acc = .ok pas) (hr : readBytes s.mem pas = .error (.fault f)) :
    AccessStops s d f where
  read _ := by
    rw [ha] at hp
    rw [State.logRead, hp, bind_ok, hr, map_error]
  write hw := by
    rw [ha] at hw
    cases hw

section
variable {s : State} {p : Pfx} {len n : Nat} {w : Width} {x : Bool} {rm : RmOp} {o : Moffs} {d : DataAccess} {f : Fault}
  (hs : AccessStops s d f)
include hs

theorem AccessStops.writeRm {v : Word} (hd : rmAccess s p len w.bytes .write rm = some d) :
    s.writeRm p len w x rm v = .error (.fault f) := by
  cases rm with
  | reg r => cases hd
  | mem m => cases hd; exact hs.write rfl v

theorem AccessStops.loadRm {g : Gpr} (hd : rmAccess s p len w.bytes .read rm = some d) :
    s.loadRm p len w x g rm = .error (.fault f) := by
  cases rm with
  | reg r => cases hd
  | mem m =>
    cases hd
    have hread : s.readRm p len w x (.mem m) = .error (.fault f) := hs.read rfl
    rw [State.loadRm, hread, map_error]

theorem AccessStops.loadMoffs (hd : moffsAccess s p w.bytes .read o = some d) :
    s.loadMoffs p w o = .error (.fault f) := by
  cases hd
  have hread : s.logRead (s.moffsSeg p) (moffsValue o) w.bytes = .error (.fault f) := hs.read rfl
  rw [State.loadMoffs, hread, map_error]

theorem AccessStops.storeMoffs (hd : moffsAccess s p w.bytes .write o = some d) :
    s.storeMoffs p w o = .error (.fault f) := by
  cases hd
  exact hs.write rfl _

theorem AccessStops.storeSelector {q : SregField} {k : Gpr → Half → State}
    (hd : (if namesSreg q = true then rmAccess s p len 2 .write rm else none) = some d) :
    s.storeSelector p len rm q k = .error (.fault f) := by
  cases q with
  | num6 | num7 => cases hd
  | reg r =>
    cases rm with
    | reg g => cases hd
    | mem m => cases hd; exact hs.write rfl _

theorem AccessStops.readSelector (hd : rmAccess s p len n .read rm = some d) :
    s.readSelector p len n rm = .error (.fault f) := by
  cases rm with
  | reg g => cases hd
  | mem m =>
    cases hd
    have hread : s.logRead (s.memSeg p m) (s.effAddr p len m) n = .error (.fault f) := hs.read rfl
    rw [State.readSelector, hread, map_error]

theorem AccessStops.loadSelector {q : SregField}
    (hd : (if loadsSreg q = true then rmAccess s p len n .read rm else none) = some d) :
    s.loadSelector p len n q rm = .error (.fault f) := by
  split at hd
  · next hq =>
    have hsel := hs.readSelector hd
    cases q with
    | num6 | num7 => cases hq
    | reg r =>
      cases r with
      | cs => cases hq
      | es | ss | ds | fs | gs => simp [State.loadSelector, State.sregOf, hsel]
  · cases hd

end

/-- Without LOCK an instruction whose data access stops ends with that fault, in every row. -/
theorem exec_of_accessStops {i : Instr} {s : State} {d : DataAccess} {f : Fault} (hp : (instrPfx i).locked = false)
    (hd : dataAccess i s = some d) (hs : AccessStops s d f) : exec i s = .fault f := by
  cases i with
  | movRm8R8 | movRm8R8Rex | movRm8Imm8 | movRm8Imm8Rex => exact complete_fault hp (hs.writeRm (w := .b8) hd)
  | movRm16R16 | movRm16Imm16 => exact complete_fault hp (hs.writeRm (w := .b16) hd)
  | movRm32R32 | movRm32Imm32 => exact complete_fault hp (hs.writeRm (w := .b32) hd)
  | movRm64R64 | movRm64Imm32 => exact complete_fault hp (hs.writeRm (w := .b64) hd)
  | movR8Rm8 | movR8Rm8Rex => exact complete_fault hp (hs.loadRm (w := .b8) hd)
  | movR16Rm16 => exact complete_fault hp (hs.loadRm (w := .b16) hd)
  | movR32Rm32 => exact complete_fault hp (hs.loadRm (w := .b32) hd)
  | movR64Rm64 => exact complete_fault hp (hs.loadRm (w := .b64) hd)
  | movRm16Sreg | movR32M16Sreg | movR64M16Sreg => exact complete_fault hp (hs.storeSelector hd)
  | movSregRm16 | movSregRm64 => exact complete_fault hp (hs.loadSelector hd)
  | movAlMoffs8 | movAlMoffs8RexW => exact complete_fault hp (hs.loadMoffs (w := .b8) hd)
  | movAxMoffs16 => exact complete_fault hp (hs.loadMoffs (w := .b16) hd)
  | movEaxMoffs32 => exact complete_fault hp (hs.loadMoffs (w := .b32) hd)
  | movRaxMoffs64 => exact complete_fault hp (hs.loadMoffs (w := .b64) hd)
  | movMoffs8Al | movMoffs8AlRexW => exact complete_fault hp (hs.storeMoffs (w := .b8) hd)
  | movMoffs16Ax => exact complete_fault hp (hs.storeMoffs (w := .b16) hd)
  | movMoffs32Eax => exact complete_fault hp (hs.storeMoffs (w := .b32) hd)
  | movMoffs64Rax => exact complete_fault hp (hs.storeMoffs (w := .b64) hd)
  | movR8Imm8 | movR8Imm8Rex | movR16Imm16 | movR32Imm32 | movR64Imm64 => cases hd
  | movR32Cr | movR64Cr | movR64Cr8 | movCrR32 | movCrR64 | movCr8R64 => cases hd
  | movR32Dr | movR64Dr | movDrR32 | movDrR64 => cases hd

/-- What an access raises, its instruction raises. -/
theorem raises_of_physBytes {i : Instr} {s : State} {d : DataAccess} {c : ExcClass} {info : ExcInfo}
    (hp : (instrPfx i).locked = false) (hd : dataAccess i s = some d)
    (h : s.physBytes d.seg d.off d.n d.acc = raise s c info) : Raises i s c info :=
  exec_of_accessStops hp hd (.of_physBytes h)

/-! ### The statements -/

/-- Settles O33: each clause is a stop of `checkSegment`, and every row stops with its access. -/
theorem segmentFaults : Obligations.SegmentFaults := by
  unfold Obligations.SegmentFaults
  intro i s d hp hd
  have hraises : ∀ c info, s.checkSegment d.seg d.off d.n d.acc = raise s c info → Raises i s c info :=
    fun c info h => raises_of_physBytes hp hd (physBytes_segment_error h)
  refine ⟨fun hm hr hk => hraises _ _ (checkSegment_null hm hr hk),
    fun hm hk hl => hraises _ _ (checkSegment_limit hm hk hl), fun hm hk hl ha hw => hraises _ _ ?_,
    fun hm hl => hraises _ _ ?_, fun hm hl => hraises _ _ ?_,
    fun hm hc => hraises _ _ (checkSegment_nonCanonical hm hc)⟩
  · rw [ha]
    exact checkSegment_notWritable hm hk hl hw
  · rw [checkSegment_limit_unchecked (.inr hm) hl, State.zeroCode, hm]
    rfl
  · rw [checkSegment_limit_unchecked (.inl hm) hl, State.zeroCode, hm]
    rfl

/-- Settles O34: each clause is a stop of `physBytes` past the segment-level tests, or of the read after it. -/
theorem alignmentAndPageFaults : Obligations.AlignmentAndPageFaults := by
  unfold Obligations.AlignmentAndPageFaults
  intro i s d hp hd hseg
  refine ⟨fun pas ht hm => raises_of_physBytes hp hd (physBytes_misaligned hseg ht hm), fun code ht hm => ?_,
    fun code ht _ => ?_, fun pas k ht hm hk hn hb => ?_, fun pas k ht hm ha hk howned hn hb => ?_⟩
  · refine raises_of_physBytes hp hd ?_
    rw [← misaligned_iff] at hm
    simp [physBytes_pageFault hseg ht, hm]
  · have hfault := physBytes_pageFault hseg ht
    split at hfault
    · exact .inl (raises_of_physBytes hp hd hfault)
    · exact .inr (raises_of_physBytes hp hd hfault)
  · have hstop := checkOwned_error (by rwa [translateAccess_length ht]) hn hb
    refine exec_of_accessStops hp hd (.of_physBytes ?_)
    rw [physBytes_aligned hseg ht hm, hstop, map_error]
  · have hstop := readBytes_unwritten (by rwa [translateAccess_length ht]) hn hb
    exact exec_of_accessStops hp hd (.of_readBytes ha (physBytes_eq_ok.2 ⟨hseg, ht, hm, howned⟩) hstop)

/-- Settles O35: a write that completes is a store at its physical addresses, and a read there gives what was stored. -/
theorem readAfterWrite : Obligations.ReadAfterWrite := by
  unfold Obligations.ReadAfterWrite
  intro s t r off n v _ hwrite pas hpas hnodup
  obtain ⟨pas', hpas', rfl⟩ := logWrite_eq_ok.1 hwrite
  obtain rfl : pas = pas' := Except.ok.inj (hpas.symm.trans hpas')
  have hbytes := (store_storedAt s v (physBytes_length hpas)).bytes hnodup
  refine ⟨hbytes, fun hread => ⟨_, logRead_of_bytesAre hread hbytes, ?_⟩⟩
  rw [BitVec.toNat_ofNat]
  exact Nat.mod_eq_of_lt ((Nat.mod_le ..).trans_lt v.isLt)

end Sys2Proof.Machine
end

section
/-! PROOFS. The decoder and the encoder are inverse (30_encoding.md R110 to R137): opcode by opcode from the laws of the
operands, then under the prefixes, then for the instruction that a step fetches (20_memory.md R100). -/

namespace Sys2Proof

/-! ### The body of an instruction -/

/-- The bytes `bs` are the body of `i`, an instruction under the prefixes `p` whose row takes them and its operands, and
then `rest`. -/
structure BodyOf (e : DecodeEnv) (p : Pfx) (bs : List Byte) (i : Instr) (rest : List Byte) : Prop where
  pfx : instrPfx i = p
  row : i.rowWf e = true
  bytes : bs = bodyBytes i ++ rest

section
variable {e : DecodeEnv} {p : Pfx} {bs rest : List Byte} {i : Instr}

/-! ### What the decoder of an opcode reads is a body -/

theorem decodeRmReg_bodyOf {byteRow : Bool} (h : decodeRmReg e p byteRow bs = .ok (i, rest)) :
    BodyOf e p ((if byteRow then 0x88#8 else 0x89#8) :: bs) i rest := by
  obtain ⟨⟨reg, rm, r⟩, htake, hrow⟩ := exceptMap_eq_ok.1 h
  obtain ⟨hrm, rfl⟩ := takeModRm_eq_ok.1 htake
  obtain ⟨hbyte, hrow⟩ | ⟨hbyte, hrow⟩ := ite_eq_iff.1 hrow
  · split at hrow <;> next hrex =>
      cases hrow
      exact ⟨rfl, by simpa [Instr.rowWf, hrm, Gpr.hi_of, Pfx.hasRex] using hrex,
        by simp [bodyBytes, hbyte, Gpr.lo_of]⟩
  · split at hrow <;> next hsize =>
      cases hrow
      exact ⟨rfl, by simp [Instr.rowWf, hrm, hsize, Gpr.hi_of], by simp [bodyBytes, hbyte, Gpr.lo_of]⟩

theorem decodeRegRm_bodyOf {byteRow : Bool} (h : decodeRegRm e p byteRow bs = .ok (i, rest)) :
    BodyOf e p ((if byteRow then 0x8A#8 else 0x8B#8) :: bs) i rest := by
  obtain ⟨⟨reg, rm, r⟩, htake, hrow⟩ := exceptMap_eq_ok.1 h
  obtain ⟨hrm, rfl⟩ := takeModRm_eq_ok.1 htake
  obtain ⟨hbyte, hrow⟩ | ⟨hbyte, hrow⟩ := ite_eq_iff.1 hrow
  · split at hrow <;> next hrex =>
      cases hrow
      exact ⟨rfl, by simpa [Instr.rowWf, hrm, Gpr.hi_of, Pfx.hasRex] using hrex,
        by simp [bodyBytes, hbyte, Gpr.lo_of]⟩
  · split at hrow <;> next hsize =>
      cases hrow
      exact ⟨rfl, by simp [Instr.rowWf, hrm, hsize, Gpr.hi_of], by simp [bodyBytes, hbyte, Gpr.lo_of]⟩

theorem decodeRmSreg_bodyOf (h : decodeRmSreg e p bs = .ok (i, rest)) : BodyOf e p (0x8C#8 :: bs) i rest := by
  obtain ⟨⟨reg, rm, r⟩, htake, hrow⟩ := exceptMap_eq_ok.1 h
  obtain ⟨hrm, rfl⟩ := takeModRm_eq_ok.1 htake
  dsimp only at hrow
  split at hrow <;> next hsize =>
    cases hrow
    exact ⟨rfl, by simp [Instr.rowWf, hrm, hsize], by simp [bodyBytes]⟩

theorem decodeSregRm_bodyOf (h : decodeSregRm e p bs = .ok (i, rest)) : BodyOf e p (0x8E#8 :: bs) i rest := by
  obtain ⟨⟨reg, rm, r⟩, htake, hrow⟩ := exceptMap_eq_ok.1 h
  obtain ⟨hrm, rfl⟩ := takeModRm_eq_ok.1 htake
  dsimp only at hrow
  split at hrow <;> next hsize =>
    cases hrow
    exact ⟨rfl, by simpa [Instr.rowWf, hrm] using hsize, by simp [bodyBytes]⟩

theorem decodeAccMoffs_bodyOf {byteRow : Bool} (h : decodeAccMoffs e p byteRow bs = .ok (i, rest)) :
    BodyOf e p ((if byteRow then 0xA0#8 else 0xA1#8) :: bs) i rest := by
  obtain ⟨⟨o, r⟩, htake, hrow⟩ := exceptMap_eq_ok.1 h
  obtain ⟨ho, rfl⟩ := takeMoffs_eq_ok.1 htake
  obtain ⟨hbyte, hrow⟩ | ⟨hbyte, hrow⟩ := ite_eq_iff.1 hrow
  · split at hrow <;> next hrex =>
      cases hrow
      exact ⟨rfl, by simpa [Instr.rowWf, ho] using hrex, by simp [bodyBytes, hbyte]⟩
  · split at hrow <;> next hsize =>
      cases hrow
      exact ⟨rfl, by simp [Instr.rowWf, ho, hsize], by simp [bodyBytes, hbyte]⟩

theorem decodeMoffsAcc_bodyOf {byteRow : Bool} (h : decodeMoffsAcc e p byteRow bs = .ok (i, rest)) :
    BodyOf e p ((if byteRow then 0xA2#8 else 0xA3#8) :: bs) i rest := by
  obtain ⟨⟨o, r⟩, htake, hrow⟩ := exceptMap_eq_ok.1 h
  obtain ⟨ho, rfl⟩ := takeMoffs_eq_ok.1 htake
  obtain ⟨hbyte, hrow⟩ | ⟨hbyte, hrow⟩ := ite_eq_iff.1 hrow
  · split at hrow <;> next hrex =>
      cases hrow
      exact ⟨rfl, by simpa [Instr.rowWf, ho] using hrex, by simp [bodyBytes, hbyte]⟩
  · split at hrow <;> next hsize =>
      cases hrow
      exact ⟨rfl, by simp [Instr.rowWf, ho, hsize], by simp [bodyBytes, hbyte]⟩

theorem decodeReg8Imm_bodyOf {suffix : BitVec 3} (h : decodeReg8Imm p suffix bs = .ok (i, rest)) :
    BodyOf e p ((0b10110#5 ++ suffix) :: bs) i rest := by
  obtain ⟨⟨imm, r⟩, htake, hrow⟩ := exceptMap_eq_ok.1 h
  obtain rfl := take8_eq_ok.1 htake
  dsimp only at hrow
  split at hrow <;> next hrex =>
    cases hrow
    exact ⟨rfl, by simpa [Instr.rowWf, Gpr.hi_of, Pfx.hasRex] using hrex, by simp [bodyBytes, Gpr.lo_of]⟩

theorem decodeRegImm_bodyOf {suffix : BitVec 3} (h : decodeRegImm e p suffix bs = .ok (i, rest)) :
    BodyOf e p ((0b10111#5 ++ suffix) :: bs) i rest := by
  unfold decodeRegImm at h
  split at h <;> next hsize =>
    obtain ⟨⟨imm, r⟩, htake, hrow⟩ := exceptMap_eq_ok.1 h
    cases hrow
    simp only [take16_eq_ok, take32_eq_ok, take64_eq_ok] at htake
    exact ⟨rfl, by simp [Instr.rowWf, hsize, Gpr.hi_of], by simp [bodyBytes, Gpr.lo_of, htake]⟩

theorem decodeRm8Imm_bodyOf (h : decodeRm8Imm e p bs = .ok (i, rest)) : BodyOf e p (0xC6#8 :: bs) i rest := by
  obtain ⟨⟨reg, rm, r⟩, htake, himm⟩ := exceptBind_eq_ok.1 h
  obtain ⟨hrm, rfl⟩ := takeModRm_eq_ok.1 htake
  dsimp only at himm
  split at himm
  · cases himm
  · next hreg =>
    obtain rfl := Decidable.not_not.1 hreg
    obtain ⟨⟨imm, r⟩, htake, hrow⟩ := exceptMap_eq_ok.1 himm
    obtain rfl := take8_eq_ok.1 htake
    dsimp only at hrow
    split at hrow <;> next hrex =>
      cases hrow
      exact ⟨rfl, by simpa [Instr.rowWf, hrm, Pfx.hasRex] using hrex, by simp [bodyBytes]⟩

theorem decodeRmImm_bodyOf (h : decodeRmImm e p bs = .ok (i, rest)) : BodyOf e p (0xC7#8 :: bs) i rest := by
  obtain ⟨⟨reg, rm, r⟩, htake, himm⟩ := exceptBind_eq_ok.1 h
  obtain ⟨hrm, rfl⟩ := takeModRm_eq_ok.1 htake
  dsimp only at himm
  split at himm
  · cases himm
  · next hreg =>
    obtain rfl := Decidable.not_not.1 hreg
    split at himm <;> next hsize =>
      obtain ⟨⟨imm, r⟩, htake, hrow⟩ := exceptMap_eq_ok.1 himm
      cases hrow
      simp only [take16_eq_ok, take32_eq_ok] at htake
      exact ⟨rfl, by simp [Instr.rowWf, hrm, hsize], by simp [bodyBytes, htake]⟩

theorem decode0F_bodyOf {op : Byte} (h : decode0F e p op bs = .ok (i, rest)) :
    BodyOf e p (0x0F#8 :: op :: bs) i rest := by
  unfold decode0F at h
  split_ifs at h <;>
  · rw [exceptMap_eq_ok] at h
    obtain ⟨⟨m, reg, g, r⟩, htake, hrow⟩ := h
    obtain ⟨hg, rfl⟩ := takeRegRm_eq_ok.1 htake
    cases hrow
    exact ⟨rfl, by simp [Instr.rowWf, *], by simp [bodyBytes, *]⟩

theorem extract_suffixed {hi : BitVec 5} {suffix : BitVec 3} : (hi ++ suffix).extractLsb' 3 5 = hi :=
  (extract_append_high (n := 3) (j := 0) hi suffix).trans BitVec.extractLsb'_eq_self

theorem suffixed_ne {hi : BitVec 5} {suffix : BitVec 3} {c : Byte} (hc : c.extractLsb' 3 5 ≠ hi) : hi ++ suffix ≠ c := by
  rintro rfl
  exact hc extract_suffixed

/-- An opcode with a register in its low three bits is its high bits and that suffix (30_encoding.md R128). -/
theorem append_suffix {hi : BitVec 5} {op : Byte} (h : op.extractLsb' 3 5 = hi) : hi ++ op.extractLsb' 0 3 = op := by
  subst h
  exact (append_extract op 0 5 3).trans BitVec.extractLsb'_eq_self

/-- The tests of the opcode map in their order: an opcode that passes one has the decoder of its rows. -/
theorem decodeOp_bodyOf {op : Byte} (h : decodeOp e p op bs = .ok (i, rest)) : BodyOf e p (op :: bs) i rest := by
  unfold decodeOp at h
  obtain ⟨rfl, h⟩ | ⟨-, h⟩ := ite_eq_iff.1 h
  · exact decodeRmReg_bodyOf h
  obtain ⟨rfl, h⟩ | ⟨-, h⟩ := ite_eq_iff.1 h
  · exact decodeRmReg_bodyOf h
  obtain ⟨rfl, h⟩ | ⟨-, h⟩ := ite_eq_iff.1 h
  · exact decodeRegRm_bodyOf h
  obtain ⟨rfl, h⟩ | ⟨-, h⟩ := ite_eq_iff.1 h
  · exact decodeRegRm_bodyOf h
  obtain ⟨rfl, h⟩ | ⟨-, h⟩ := ite_eq_iff.1 h
  · exact decodeRmSreg_bodyOf h
  obtain ⟨rfl, h⟩ | ⟨-, h⟩ := ite_eq_iff.1 h
  · exact decodeSregRm_bodyOf h
  obtain ⟨rfl, h⟩ | ⟨-, h⟩ := ite_eq_iff.1 h
  · exact decodeAccMoffs_bodyOf h
  obtain ⟨rfl, h⟩ | ⟨-, h⟩ := ite_eq_iff.1 h
  · exact decodeAccMoffs_bodyOf h
  obtain ⟨rfl, h⟩ | ⟨-, h⟩ := ite_eq_iff.1 h
  · exact decodeMoffsAcc_bodyOf h
  obtain ⟨rfl, h⟩ | ⟨-, h⟩ := ite_eq_iff.1 h
  · exact decodeMoffsAcc_bodyOf h
  obtain ⟨hop, h⟩ | ⟨-, h⟩ := ite_eq_iff.1 h
  · exact append_suffix hop ▸ decodeReg8Imm_bodyOf h
  obtain ⟨hop, h⟩ | ⟨-, h⟩ := ite_eq_iff.1 h
  · exact append_suffix hop ▸ decodeRegImm_bodyOf h
  obtain ⟨rfl, h⟩ | ⟨-, h⟩ := ite_eq_iff.1 h
  · exact decodeRm8Imm_bodyOf h
  obtain ⟨rfl, h⟩ | ⟨-, h⟩ := ite_eq_iff.1 h
  · exact decodeRmImm_bodyOf h
  obtain ⟨rfl, h⟩ | ⟨-, h⟩ := ite_eq_iff.1 h
  · obtain ⟨⟨op, r⟩, htake, h⟩ := exceptBind_eq_ok.1 h
    obtain rfl := take8_eq_ok.1 htake
    exact decode0F_bodyOf h
  obtain ⟨-, h⟩ | ⟨-, h⟩ := ite_eq_iff.1 h <;> cases h

/-! ### The opcode map, an equation for each opcode (30_encoding.md R114, R130) -/

@[simp] theorem decodeOp_88 : decodeOp e p 0x88#8 bs = decodeRmReg e p true bs := rfl
@[simp] theorem decodeOp_89 : decodeOp e p 0x89#8 bs = decodeRmReg e p false bs := rfl
@[simp] theorem decodeOp_8A : decodeOp e p 0x8A#8 bs = decodeRegRm e p true bs := rfl
@[simp] theorem decodeOp_8B : decodeOp e p 0x8B#8 bs = decodeRegRm e p false bs := rfl
@[simp] theorem decodeOp_8C : decodeOp e p 0x8C#8 bs = decodeRmSreg e p bs := rfl
@[simp] theorem decodeOp_8E : decodeOp e p 0x8E#8 bs = decodeSregRm e p bs := rfl
@[simp] theorem decodeOp_A0 : decodeOp e p 0xA0#8 bs = decodeAccMoffs e p true bs := rfl
@[simp] theorem decodeOp_A1 : decodeOp e p 0xA1#8 bs = decodeAccMoffs e p false bs := rfl
@[simp] theorem decodeOp_A2 : decodeOp e p 0xA2#8 bs = decodeMoffsAcc e p true bs := rfl
@[simp] theorem decodeOp_A3 : decodeOp e p 0xA3#8 bs = decodeMoffsAcc e p false bs := rfl
@[simp] theorem decodeOp_C6 : decodeOp e p 0xC6#8 bs = decodeRm8Imm e p bs := rfl
@[simp] theorem decodeOp_C7 : decodeOp e p 0xC7#8 bs = decodeRmImm e p bs := rfl
@[simp] theorem decodeOp_0F : decodeOp e p 0x0F#8 bs = (take8 bs).bind fun o => decode0F e p o.1 o.2 := rfl

/-- The ten tests before that of B0 ask for opcodes with other high bits. -/
@[simp] theorem decodeOp_B0 (suffix : BitVec 3) :
    decodeOp e p (0b10110#5 ++ suffix) bs = decodeReg8Imm p suffix bs := by
  unfold decodeOp
  iterate 10 rw [if_neg (suffixed_ne (by decide))]
  rw [if_pos extract_suffixed, extract_append_low]

@[simp] theorem decodeOp_B8 (suffix : BitVec 3) :
    decodeOp e p (0b10111#5 ++ suffix) bs = decodeRegImm e p suffix bs := by
  unfold decodeOp
  iterate 10 rw [if_neg (suffixed_ne (by decide))]
  rw [extract_suffixed, if_neg (by decide), if_pos rfl, extract_append_low]

/-! ### A body is read back -/

theorem takeModRm_rmBytes {reg : BitVec 3} {rm : RmOp} (h : rm.wf e p = true) :
    takeModRm e p (rmBytes reg rm ++ rest) = .ok (reg, rm, rest) :=
  takeModRm_eq_ok.2 ⟨h, rfl⟩

theorem takeMoffs_moffsBytes {o : Moffs} (h : o.wf e p = true) : takeMoffs e p (moffsBytes o ++ rest) = .ok (o, rest) :=
  takeMoffs_eq_ok.2 ⟨h, rfl⟩

theorem takeRegRm_modrmByte {m : BitVec 2} {reg : BitVec 3} {g : Gpr} (h : g.hi = p.rexB) :
    takeRegRm p (modrmByte m reg g.lo :: rest) = .ok (m, reg, g, rest) :=
  takeRegRm_eq_ok.2 ⟨h, rfl⟩

/-- The decoder picks the row by what the row asks of its prefixes (REX, REX.W, the operand size, the mode), and reads the
operands back from their fields. -/
theorem decodeOp_bodyBytes (h : i.rowWf e = true) :
    ((take8 (bodyBytes i ++ rest)).bind fun o => decodeOp e (instrPfx i) o.1 o.2) = .ok (i, rest) := by
  cases i with
  | movRm8R8 p rm g | movRm8R8Rex p rm g | movR8Rm8 p g rm | movR8Rm8Rex p g rm =>
    simp only [Instr.rowWf, Bool.and_eq_true, Option.isNone_iff_eq_none, beq_iff_eq] at h
    obtain ⟨⟨hrex, hrm⟩, hg⟩ := h
    simp [bodyBytes, instrPfx, take8_cons, decodeRmReg, decodeRegRm, takeModRm_rmBytes hrm, Pfx.hasRex, hrex, ← hg]
  | movRm16R16 p rm g | movRm32R32 p rm g | movRm64R64 p rm g
  | movR16Rm16 p g rm | movR32Rm32 p g rm | movR64Rm64 p g rm =>
    simp only [Instr.rowWf, Bool.and_eq_true, beq_iff_eq] at h
    obtain ⟨⟨hsize, hrm⟩, hg⟩ := h
    simp [bodyBytes, instrPfx, take8_cons, decodeRmReg, decodeRegRm, takeModRm_rmBytes hrm, hsize, ← hg]
  | movRm16Sreg p rm f | movR32M16Sreg p rm f | movR64M16Sreg p rm f | movSregRm16 p f rm | movSregRm64 p f rm =>
    simp only [Instr.rowWf, Bool.and_eq_true, bne_iff_ne, beq_iff_eq] at h
    obtain ⟨hsize, hrm⟩ := h
    simp [bodyBytes, instrPfx, take8_cons, decodeRmSreg, decodeSregRm, takeModRm_rmBytes hrm, hsize]
  | movAlMoffs8 p o | movAlMoffs8RexW p o | movMoffs8Al p o | movMoffs8AlRexW p o =>
    simp only [Instr.rowWf, Bool.and_eq_true, Bool.not_eq_true'] at h
    obtain ⟨hrex, ho⟩ := h
    simp [bodyBytes, instrPfx, take8_cons, decodeAccMoffs, decodeMoffsAcc, takeMoffs_moffsBytes ho, hrex]
  | movAxMoffs16 p o | movEaxMoffs32 p o | movRaxMoffs64 p o | movMoffs16Ax p o | movMoffs32Eax p o
  | movMoffs64Rax p o =>
    simp only [Instr.rowWf, Bool.and_eq_true, beq_iff_eq] at h
    obtain ⟨hsize, ho⟩ := h
    simp [bodyBytes, instrPfx, take8_cons, decodeAccMoffs, decodeMoffsAcc, takeMoffs_moffsBytes ho, hsize]
  | movR8Imm8 p g imm | movR8Imm8Rex p g imm =>
    simp only [Instr.rowWf, Bool.and_eq_true, Option.isNone_iff_eq_none, beq_iff_eq] at h
    obtain ⟨hrex, hg⟩ := h
    simp [bodyBytes, instrPfx, take8_cons, decodeReg8Imm, Pfx.hasRex, hrex, ← hg]
  | movR16Imm16 p g imm | movR32Imm32 p g imm | movR64Imm64 p g imm =>
    simp only [Instr.rowWf, Bool.and_eq_true, beq_iff_eq] at h
    obtain ⟨hsize, hg⟩ := h
    simp [bodyBytes, instrPfx, take8_cons, decodeRegImm, take16_bytes, take32_bytes, take64_bytes, hsize, ← hg]
  | movRm8Imm8 p rm imm | movRm8Imm8Rex p rm imm =>
    simp only [Instr.rowWf, Bool.and_eq_true, Option.isNone_iff_eq_none] at h
    obtain ⟨hrex, hrm⟩ := h
    simp [bodyBytes, instrPfx, take8_cons, decodeRm8Imm, takeModRm_rmBytes hrm, Pfx.hasRex, hrex]
  | movRm16Imm16 p rm imm | movRm32Imm32 p rm imm | movRm64Imm32 p rm imm =>
    simp only [Instr.rowWf, Bool.and_eq_true, beq_iff_eq] at h
    obtain ⟨hsize, hrm⟩ := h
    simp [bodyBytes, instrPfx, take8_cons, decodeRmImm, takeModRm_rmBytes hrm, take16_bytes, take32_bytes, hsize]
  | movR32Cr p m g c | movCrR32 p m c g | movR32Dr p m g c | movDrR32 p m c g | movR64Dr p m g c | movDrR64 p m c g =>
    simp only [Instr.rowWf, Bool.and_eq_true, Bool.not_eq_true', beq_iff_eq] at h
    obtain ⟨hmode, hg⟩ := h
    simp [bodyBytes, instrPfx, take8_cons, decode0F, takeRegRm_modrmByte hg, hmode]
  | movR64Cr p m g c | movR64Cr8 p m g c | movCrR64 p m c g | movCr8R64 p m c g =>
    simp only [Instr.rowWf, Bool.and_eq_true, Bool.not_eq_true', beq_iff_eq] at h
    obtain ⟨⟨hmode, hr⟩, hg⟩ := h
    simp [bodyBytes, instrPfx, take8_cons, decode0F, takeRegRm_modrmByte hg, hmode, hr]

/-- Bytes after the prefixes decode exactly to the instruction whose body they are. -/
theorem decodeBody_eq_ok :
    ((take8 bs).bind fun o => decodeOp e p o.1 o.2) = .ok (i, rest) ↔ BodyOf e p bs i rest := by
  constructor
  · intro h
    obtain ⟨⟨op, r⟩, htake, h⟩ := exceptBind_eq_ok.1 h
    obtain rfl := take8_eq_ok.1 htake
    exact decodeOp_bodyOf h
  · rintro ⟨rfl, hrow, rfl⟩
    exact decodeOp_bodyBytes hrow

/-! ### Whole instructions -/

theorem decode_eq_ok :
    decode e bs = .ok (i, rest) ↔
      BodyOf e (takePfx e.long64 bs).1 (takePfx e.long64 bs).2 i rest ∧ instrLength i ≤ 15 := by
  have hdecode : decode e bs =
      ((take8 (takePfx e.long64 bs).2).bind fun o => decodeOp e (takePfx e.long64 bs).1 o.1 o.2).bind fun r =>
        if instrLength r.1 > 15 then .error .tooLong else .ok r := by
    unfold decode
    dsimp only
    cases take8 (takePfx e.long64 bs).2 <;> rfl
  rw [hdecode, exceptBind_eq_ok]
  constructor
  · rintro ⟨r, hbody, h⟩
    obtain ⟨-, h⟩ | ⟨hlength, h⟩ := ite_eq_iff.1 h <;> cases h
    exact ⟨decodeBody_eq_ok.1 hbody, Nat.le_of_not_gt hlength⟩
  · rintro ⟨hbody, hlength⟩
    exact ⟨_, decodeBody_eq_ok.2 hbody, if_neg (Nat.not_lt.2 hlength)⟩

/-- A body begins with an opcode, which is none of the prefixes (30_encoding.md R111 to R114). -/
theorem bodyBytes_cons (i : Instr) : ∃ op bs, bodyBytes i = op :: bs ∧ isPrefixByte op = false := by
  have hsuffixed : ∀ suffix : BitVec 3,
      isPrefixByte (0b10110#5 ++ suffix) = false ∧ isPrefixByte (0b10111#5 ++ suffix) = false := by decide
  cases i with
  | movR8Imm8 | movR8Imm8Rex => exact ⟨_, _, rfl, (hsuffixed _).1⟩
  | movR16Imm16 | movR32Imm32 | movR64Imm64 => exact ⟨_, _, rfl, (hsuffixed _).2⟩
  | _ => exact ⟨_, _, rfl, rfl⟩

/-- The prefixes of a well-formed instruction end where its body begins. -/
theorem takePfx_encode (h : (instrPfx i).wf e = true) :
    takePfx e.long64 (encode i ++ rest) = (instrPfx i, bodyBytes i ++ rest) := by
  obtain ⟨op, tl, hbody, hop⟩ := bodyBytes_cons i
  obtain ⟨hmode, hlast⟩ := Bool.and_eq_true_iff.1 h
  rw [encode, List.append_assoc, hbody]
  exact takePfx_bytes hmode hlast (fun b bs hb => by rwa [← (List.cons.inj hb).1]) (by simp)

end

/-- Settles O1: the prefixes end at the body, and the body is read back. -/
theorem decodeEncode : Obligations.DecodeEncode := by
  unfold Obligations.DecodeEncode
  intro e i rest h
  simp only [Instr.wf, Bool.and_eq_true, decide_eq_true_eq] at h
  obtain ⟨⟨hpfx, hrow⟩, hlength⟩ := h
  rw [decode_eq_ok, takePfx_encode hpfx]
  exact ⟨⟨rfl, hrow, rfl⟩, hlength⟩

/-- Settles O2: the bytes taken off as prefixes are the instruction's, and no further one stands where its body begins. -/
theorem encodeDecode : Obligations.EncodeDecode := by
  unfold Obligations.EncodeDecode
  intro e bs rest i h
  obtain ⟨⟨hpfx, hrow, hbody⟩, hlength⟩ := decode_eq_ok.1 h
  obtain ⟨hbytes, hmode, hlast⟩ := bytes_takePfx e.long64 bs
  obtain ⟨op, tl, hop, hfirst⟩ := bodyBytes_cons i
  rw [hbody, hop] at hlast
  rw [hbody, ← hpfx, ← List.append_assoc] at hbytes
  rw [← hpfx] at hmode hlast
  have hlast := hlast.resolve_right (by simp [nextIsPrefix, hfirst])
  exact ⟨by simp [Instr.wf, Pfx.wf, hmode, hlast, hrow, hlength], hbytes⟩

/-- Settles O3: the ten words, each decoded. -/
theorem decodeSamples : Obligations.DecodeSamples := by
  unfold Obligations.DecodeSamples
  decide

end Sys2Proof

namespace Sys2Proof.Machine

/-- Settles O5: the fetched bytes begin with the encoding, which decodes to the instruction whatever follows it. -/
theorem stepRunsEncoded : Obligations.StepRunsEncoded := by
  unfold Obligations.StepRunsEncoded
  intro s i hrun hevent hwf hbytes htop
  have hshort : (encode i).length ≤ 15 := by
    simp only [Instr.wf, Bool.and_eq_true, decide_eq_true_eq] at hwf
    exact encode_length i ▸ hwf.2
  obtain ⟨rest, hfetch⟩ := fetchBytes_prefix (k := 0) hshort (by simpa using hbytes)
  refine stepRunsDecoded s i rest hrun hevent ?_ (encode_length i ▸ htop)
  rw [hfetch]
  exact decodeEncode s.env i rest hwf

end Sys2Proof.Machine
end

section
/-! PROOFS. MOV between general registers and memory (40_mov_data.md): a row completes with the one register write or the
one store that it is, and a read gives the bytes at the operand's physical addresses. -/

namespace Sys2Proof.Machine

/-! ### Values that agree at the width -/

theorem Width.bytes_le (w : Width) : w.bytes ≤ 8 := by
  cases w <;> decide

/-- A register write is told by the low bits of its value. -/
theorem WroteReg.congr {s t : State} {len : Nat} {w : Width} {x : Bool} {r : Gpr} {u v : Word}
    (hbits : ∀ k, k < 8 * w.bytes → u.getLsbD k = v.getLsbD k) (h : WroteReg s t len w x r u) :
    WroteReg s t len w x r v :=
  { h with gpr := regWritten_congr hbits h.gpr }

/-- Bytes in memory are told by the low bits of their value. -/
theorem bytesAre_congr {m : Memory} {pas : List Nat} {n : Nat} {u v : Word}
    (hbits : ∀ k, k < 8 * n → u.getLsbD k = v.getLsbD k) (h : BytesAre m pas n u) : BytesAre m pas n v := by
  intro k hk
  have hbyte : u.extractLsb' (8 * k) 8 = v.extractLsb' (8 * k) 8 := by
    apply BitVec.eq_of_getLsbD_eq
    intro j hj
    simp only [BitVec.getLsbD_extractLsb', hbits (8 * k + j) (by omega)]
  rw [h k hk, hbyte]

theorem WroteMem.congr {s t : State} {len n : Nat} {pas : List Nat} {u v : Word}
    (hbits : ∀ k, k < 8 * n → u.getLsbD k = v.getLsbD k) (h : WroteMem s t len pas n u) : WroteMem s t len pas n v :=
  { h with mem := { h.mem with bytes := fun hd => bytesAre_congr hbits (h.mem.bytes hd) } }

/-- AL, AX, EAX and RAX are low bits of RAX, with and without REX (10_state.md R22 to R25). -/
theorem readReg_rax_getLsbD (s : State) (w : Width) (x : Bool) {k : Nat} (hk : k < 8 * w.bytes) :
    (s.readReg w x .rax).getLsbD k = s.gpr.rax.getLsbD k := by
  have hlow : s.gpr.get8 x .rax = s.gpr.rax.extractLsb' 0 8 := by cases x <;> rfl
  have hword : k < 64 := by have := w.bytes_le; omega
  cases w with
  | b8 =>
    have hk : k < 8 := hk
    simp [State.readReg, hlow, hk, hword]
  | b16 =>
    have hk : k < 16 := hk
    simp [State.readReg, Gprs.get, hk, hword]
  | b32 =>
    have hk : k < 32 := hk
    simp [State.readReg, Gprs.get, hk, hword]
  | b64 => rfl

/-! ### A row whose effect is one register write or one store -/

section
variable {i : Instr} {s : State} {p : Pfx} {w : Width} {x : Bool} {g : Gpr} {v : Word} {r : Sreg} {off : Word} {n : Nat}
  {acc : Access} {pas : List Nat}

/-- Where the tests of a row's one data access pass, its bytes are at the addresses. -/
theorem Reaches.physBytes (hr : Reaches i s pas) (hd : dataAccess i s = some ⟨r, off, n, acc⟩) :
    s.physBytes r off n acc = .ok pas := by
  obtain ⟨d, hd', hpas⟩ := hr
  obtain rfl := Option.some.inj (hd.symm.trans hd')
  exact hpas

theorem movesToReg_of_writeReg (hp : p.locked = false)
    (hexec : exec i s = complete p (instrLength i) s (.ok (s.writeReg w x g v))) : MovesToReg i s w x g v :=
  ⟨_, hexec.trans (complete_ok hp rfl), writeReg_wroteReg s (instrLength i) w x g v⟩

/-- A row that writes what it reads from memory to a register: the tests pass, so it reads `v` at the width. -/
theorem movesToReg_of_logRead (hp : p.locked = false) (hd : dataAccess i s = some ⟨r, off, w.bytes, .read⟩)
    (hexec : exec i s =
      complete p (instrLength i) s ((s.logRead r off w.bytes).map fun u => s.writeReg w x g u))
    (hr : Reaches i s pas) (hv : BytesAre s.mem pas w.bytes v) : MovesToReg i s w x g v := by
  rw [logRead_of_bytesAre (hr.physBytes hd) hv, map_ok] at hexec
  obtain ⟨t, ht, hwrote⟩ := movesToReg_of_writeReg hp hexec
  exact ⟨t, ht, hwrote.congr fun k hk => ofNat_mod_getLsbD v hk w.bytes_le⟩

/-- A row that stores `v`: the tests pass, so memory takes its low bytes. -/
theorem movesToMem_of_logWrite (hp : p.locked = false) (hd : dataAccess i s = some ⟨r, off, n, .write⟩)
    (hexec : exec i s = complete p (instrLength i) s (s.logWrite r off n v)) (hr : Reaches i s pas) :
    MovesToMem i s pas n v := by
  have hpas := hr.physBytes hd
  exact ⟨_, hexec.trans (complete_ok hp (logWrite_eq_ok.2 ⟨pas, hpas, rfl⟩)),
    store_wroteMem s (instrLength i) v (physBytes_length hpas)⟩

/-- A row that stores the accumulator at the width: memory takes the low bytes of RAX. -/
theorem movesToMem_of_storeMoffs {o : Moffs} (hp : p.locked = false)
    (hd : dataAccess i s = moffsAccess s p w.bytes .write o)
    (hexec : exec i s = complete p (instrLength i) s (s.storeMoffs p w o)) (hr : Reaches i s pas) :
    MovesToMem i s pas w.bytes s.gpr.rax := by
  obtain ⟨t, ht, hwrote⟩ := movesToMem_of_logWrite hp hd hexec hr
  exact ⟨t, ht, hwrote.congr fun k hk => readReg_rax_getLsbD s w p.hasRex hk⟩

end

/-! ### The statements -/

/-- Settles O20: with a register destination each row writes the source register's value to it. -/
theorem rmFromRegRegister : Obligations.RmFromRegRegister := by
  unfold Obligations.RmFromRegRegister
  intro s p d g hp
  simp only [← regValue_readReg]
  refine ⟨?_, ?_, ?_, ?_, ?_⟩ <;> exact movesToReg_of_writeReg hp rfl

/-- Settles O21: with a memory destination each row stores the source register's value. -/
theorem rmFromRegMemory : Obligations.RmFromRegMemory := by
  unfold Obligations.RmFromRegMemory
  intro s p m g pas hp
  simp only [← regValue_readReg]
  refine ⟨?_, ?_, ?_, ?_, ?_⟩ <;> exact fun hr => movesToMem_of_logWrite hp rfl rfl hr

/-- Settles O22: with a register source each row writes its value to the destination. -/
theorem regFromRmRegister : Obligations.RegFromRmRegister := by
  unfold Obligations.RegFromRmRegister
  intro s p d g hp
  simp only [← regValue_readReg]
  refine ⟨?_, ?_, ?_, ?_, ?_⟩ <;> exact movesToReg_of_writeReg hp rfl

/-- Settles O23: with a memory source each row reads the operand's bytes and writes them to the destination. -/
theorem regFromRmMemory : Obligations.RegFromRmMemory := by
  unfold Obligations.RegFromRmMemory
  intro s p d m pas v hp
  refine ⟨?_, ?_, ?_, ?_, ?_⟩ <;> exact fun hr hv => movesToReg_of_logRead hp rfl rfl hr hv

/-- Settles O24: each row reads the bytes at its offset and writes them to the accumulator. -/
theorem accFromMoffs : Obligations.AccFromMoffs := by
  unfold Obligations.AccFromMoffs
  intro s p o pas v hp
  refine ⟨?_, ?_, ?_, ?_, ?_⟩ <;> exact fun hr hv => movesToReg_of_logRead hp rfl rfl hr hv

/-- Settles O25: each row stores the accumulator, which is the low bytes of RAX. -/
theorem moffsFromAcc : Obligations.MoffsFromAcc := by
  unfold Obligations.MoffsFromAcc
  intro s p o pas hp
  exact ⟨movesToMem_of_storeMoffs (w := .b8) hp rfl rfl, movesToMem_of_storeMoffs (w := .b8) hp rfl rfl,
    movesToMem_of_storeMoffs (w := .b16) hp rfl rfl, movesToMem_of_storeMoffs (w := .b32) hp rfl rfl,
    movesToMem_of_storeMoffs (w := .b64) hp rfl rfl⟩

/-- Settles O26: each row writes its immediate, zero-extended, to the register. -/
theorem regFromImm : Obligations.RegFromImm := by
  unfold Obligations.RegFromImm
  intro s p g b h d w hp
  refine ⟨?_, ?_, ?_, ?_, ?_⟩ <;> exact movesToReg_of_writeReg hp rfl

/-- Settles O27: each row writes its immediate to the register; `signExtend` is the number of the immediate as a word. -/
theorem rmFromImmRegister : Obligations.RmFromImmRegister := by
  unfold Obligations.RmFromImmRegister
  intro s p g b h d hp
  refine ⟨?_, ?_, ?_, ?_, ?_⟩ <;> exact movesToReg_of_writeReg hp rfl

/-- Settles O28: each row stores its immediate; `signExtend` is the number of the immediate as a word. -/
theorem rmFromImmMemory : Obligations.RmFromImmMemory := by
  unfold Obligations.RmFromImmMemory
  intro s p m b h d pas hp
  refine ⟨?_, ?_, ?_, ?_, ?_⟩ <;> exact fun hr => movesToMem_of_logWrite hp rfl rfl hr

end Sys2Proof.Machine
end

section
/-! PROOFS. Loads of segment registers (41_mov_sreg.md R205 to R220): what each mode leaves in the register, and that every
step keeps the segment registers as loads leave them. -/

namespace Sys2Proof.Machine

/-! ### The hidden part that a load leaves -/

/-- What the hidden part must hold rests on the mode, CPL and the register alone. -/
theorem hiddenOk_congr {s t : State} {q : Sreg} (hmode : t.mode = s.mode) (hcpl : t.cpl = s.cpl)
    (hreg : t.seg.get q = s.seg.get q) : hiddenOk t q ↔ hiddenOk s q := by
  simp only [hiddenOk, hmode, hcpl, hreg]

/-- The hidden part of a checked mode, for a register in it. -/
theorem hiddenOk_checked {s : State} (hm : CheckedMode s) (q : Sreg) :
    hiddenOk s q ↔
      ((s.seg.get q).hid.kind = .null ∧ selNull (s.seg.get q).sel = true ∧
        (q = .ss → s.mode = .long64 ∧ s.cpl ≠ 3#2 ∧ selRpl (s.seg.get q).sel = s.cpl)) ∨
      ((s.seg.get q).hid.kind = .desc ∧ selNull (s.seg.get q).sel = false ∧ (s.seg.get q).hid.attr.present = true ∧
        if q = .ss then
          (s.seg.get q).hid.attr.writable = true ∧ (s.seg.get q).hid.attr.dpl = s.cpl ∧
            selRpl (s.seg.get q).sel = s.cpl
        else (s.seg.get q).hid.attr.isData = true ∨ (s.seg.get q).hid.attr.readable = true) := by
  obtain hm | hm | hm := hm <;> simp only [hiddenOk, hm]

theorem loadedNull_hiddenOk {s : State} {r : Sreg} {sel : Half} (hm : CheckedMode s) (hn : selNull sel = true)
    (hss : r = .ss → s.ssNullAllowed sel = true) : hiddenOk (s.loadedNull r sel) r := by
  rw [hiddenOk_checked (s := s.loadedNull r sel) hm]
  simp only [State.loadedNull_seg, Sregs.get_set_same]
  exact .inl ⟨trivial, hn, fun hr => ssNullAllowed_iff.1 (hss hr)⟩

/-- A descriptor that a load of DS, ES, FS or GS admits is data or readable code (41_mov_sreg.md R213 (1)). -/
theorem isData_or_readable {s : State} {sel : Half} {d : SegAttr} (h : ¬ DataDescriptorBad s sel d) :
    d.isData = true ∨ d.readable = true :=
  (not_not.1 (not_or.1 h).1).imp id And.right

/-- A descriptor that a load of SS admits is writable data of the privilege of CPL (41_mov_sreg.md R211 (2)). -/
theorem stackDescriptor_good {s : State} {sel : Half} {d : SegAttr} (h : ¬ StackDescriptorBad s sel d) :
    d.writable = true ∧ d.dpl = s.cpl ∧ selRpl sel = s.cpl := by
  simp only [StackDescriptorBad, not_or, not_not] at h
  exact ⟨h.2.1.2, h.2.2, h.1⟩

theorem loadDescriptor_hiddenOk {s u : State} {r : Sreg} {sel : Half} (hm : CheckedMode s) (hn : selNull sel = false)
    (h : s.loadDescriptor r sel = .ok u) : hiddenOk u r := by
  obtain ⟨d, pas, -, hpresent, hss, hdata, rfl⟩ := loadDescriptor_eq_ok.1 h
  have hm' : CheckedMode (s.loadedDesc r sel d pas) := by simpa [CheckedMode] using hm
  rw [hiddenOk_checked hm']
  simp only [State.loadedDesc_seg, State.loadedDesc_cpl, Sregs.get_set_same]
  refine .inr ⟨rfl, hn, hpresent, ?_⟩
  split
  · next hr => exact stackDescriptor_good (hss hr)
  · next hr => exact isData_or_readable (hdata hr)

/-- A load that completes leaves in its register what the mode asks, in every mode (R210 to R216). -/
theorem loadSreg_hiddenOk {s u : State} {r : Sreg} {sel : Half} (h : s.loadSreg r sel = .ok u) : hiddenOk u r := by
  obtain ⟨hm, rfl⟩ | ⟨hm, rfl⟩ | ⟨hm, hn, hss, rfl⟩ | ⟨hm, hn, hd⟩ := loadSreg_eq_ok.1 h
  · simp [hiddenOk, hm]
  · simp [hiddenOk, hm]
  · exact loadedNull_hiddenOk hm hn hss
  · exact loadDescriptor_hiddenOk hm hn hd

/-! ### Every step -/

/-- The segment registers change only by a load. -/
theorem Effect.seg_eq_or_load {i : Instr} {s u : State} (h : Effect i s u) :
    u.seg = s.seg ∨ ∃ r sel, s.loadSreg r sel = .ok u := by
  cases h with
  | loaded r sel u hm hs hr hl hu => exact .inr ⟨r, sel, hu⟩
  | wroteCr w g r u hm hp hc hn h8 hu => exact .inl (by rw [State.undefineFlags_seg, writeCrReg_touches hu])
  | wroteReg | stored | readSystem | wroteDr => exact .inl rfl

theorem Effect.segmentsOk {i : Instr} {s u : State} (h : Effect i s u) (hs : SegmentsOk s) : SegmentsOk u := by
  intro q hq
  have hkeep : u.seg.get q = s.seg.get q → hiddenOk u q := fun hreg =>
    (hiddenOk_congr h.fixedSame.mode h.fixedSame.cpl hreg).2 (hs q hq)
  obtain hseg | ⟨r, sel, hload⟩ := h.seg_eq_or_load
  · exact hkeep (by rw [hseg])
  · by_cases hqr : q = r
    · exact hqr ▸ loadSreg_hiddenOk hload
    · obtain ⟨hid, hseg, -⟩ := loadSreg_seg hload
      exact hkeep (by rw [hseg, Sregs.get_set_other _ _ hqr])

/-- Settles O12, by the kind of effect: only a load changes a segment register, and it leaves there what the mode asks. -/
theorem stepKeepsSegments : Obligations.StepKeepsSegments := by
  unfold Obligations.StepKeepsSegments
  intro s t hs h
  obtain ⟨-, -, i, -, hexec⟩ := step_eq_next.1 h
  obtain ⟨-, u, he, rfl⟩ := exec_effect hexec
  have henter : SegmentsOk s.enter := fun q hq => (hiddenOk_congr rfl rfl rfl).2 (hs q hq)
  exact fun q hq => (hiddenOk_congr rfl rfl rfl).2 (he.segmentsOk henter q hq)

/-! ### A row of opcode 8E is its load -/

theorem loadSelector_of_selectorIs {s : State} {p : Pfx} {len n : Nat} {r : Sreg} {rm : RmOp} {sel : Half} (hr : r ≠ .cs)
    (h2 : 2 ≤ n) (hn : n ≤ 8) (h : SelectorIs s p len n rm sel) :
    s.loadSelector p len n (.reg r) rm = s.loadSreg r sel := by
  simp [State.loadSelector, State.sregOf, hr, (readSelector_eq_ok hn h2).2 h]

/-- Both rows load the selector that their source operand gives, and nothing stands before the load. -/
theorem LoadOf.exec_eq {i : Instr} {s : State} {r : Sreg} {sel : Half} (h : LoadOf i s r sel) (hr : r ≠ .cs) :
    ∃ p : Pfx, p.locked = false ∧ exec i s = complete p (instrLength i) s (s.loadSreg r sel) := by
  obtain ⟨p, rm, hp, ⟨rfl, hsel⟩ | ⟨rfl, hsel⟩⟩ := h
  · refine ⟨p, hp, ?_⟩
    rw [exec, execMovSregRm16, loadSelector_of_selectorIs hr (by decide) (by decide) hsel]
  · obtain ⟨h2, h8⟩ := sregLoadWidth_le s
    refine ⟨p, hp, ?_⟩
    rw [exec, execMovSregRm64, loadSelector_of_selectorIs hr h2 h8 hsel]

theorem LoadOf.raises {i : Instr} {s : State} {r : Sreg} {sel : Half} {c : ExcClass} {info : ExcInfo}
    (h : LoadOf i s r sel) (hr : r ≠ .cs) (hload : s.loadSreg r sel = raise s c info) : Raises i s c info := by
  obtain ⟨p, hp, hexec⟩ := h.exec_eq hr
  rw [Raises, hexec, hload]
  exact complete_fault hp rfl

/-- A load leaves the general registers and the debug registers. -/
theorem loadSreg_gpr_dr {s u : State} {r : Sreg} {sel : Half} (h : s.loadSreg r sel = .ok u) :
    u.gpr = s.gpr ∧ u.dr = s.dr := by
  obtain ⟨-, rfl⟩ | ⟨-, rfl⟩ | ⟨-, -, -, rfl⟩ | ⟨-, -, hd⟩ := loadSreg_eq_ok.1 h
  · exact ⟨rfl, rfl⟩
  · exact ⟨rfl, rfl⟩
  · exact ⟨rfl, rfl⟩
  · obtain ⟨d, pas, -, -, -, -, rfl⟩ := loadDescriptor_eq_ok.1 hd
    simp

/-- What a load that completes does in every mode, past the instruction: all but the hidden part and memory. -/
theorem loadSreg_loadedSeg {s u : State} {r : Sreg} {sel : Half} (len : Nat) (h : s.loadSreg r sel = .ok u) :
    LoadedSeg s (u.advance len) len r sel := by
  obtain ⟨hid, hseg, hinhibit⟩ := loadSreg_seg h
  obtain ⟨hpc, hflags⟩ := loadSreg_pc_flags h
  obtain ⟨hgpr, hdr⟩ := loadSreg_gpr_dr h
  obtain ⟨hfixed, hcontrol⟩ := loadSreg_keeps h
  exact {
    sel := by rw [State.advance_seg, hseg, Sregs.get_set_same]
    others := fun q hq => by rw [State.advance_seg, hseg, Sregs.get_set_other _ _ hq]
    inhibit := hinhibit
    gpr := hgpr
    pc := by rw [State.advance_pc, hpc]
    flags := hflags
    fixed := { hfixed with }
    control := { hcontrol with }
    dr := hdr }

/-- A load that completes, with what the mode's own load adds about the hidden part and memory. -/
theorem LoadOf.completes {i : Instr} {s u : State} {r : Sreg} {sel : Half} {post : State → Prop} (h : LoadOf i s r sel)
    (hr : r ≠ .cs) (hload : s.loadSreg r sel = .ok u) (hpost : post (u.advance (instrLength i))) :
    Completes i s fun t => LoadedSeg s t (instrLength i) r sel ∧ post t := by
  obtain ⟨p, hp, hexec⟩ := h.exec_eq hr
  exact ⟨_, hexec.trans (complete_ok hp hload), loadSreg_loadedSeg _ hload, hpost⟩

theorem DataSreg.ne_cs {r : Sreg} (h : DataSreg r) : r ≠ .cs := by
  rintro rfl
  simp [DataSreg] at h

theorem DataSreg.ne_ss {r : Sreg} (h : DataSreg r) : r ≠ .ss := by
  rintro rfl
  simp [DataSreg] at h

/-! ### REAL and V86 mode -/

/-- The base after a load in REAL or V86 mode (R216). -/
theorem realBase_toNat (sel : Half) : (sel.setWidth 64 <<< 4 : Word).toNat = 16 * sel.toNat := by
  have := sel.isLt
  simp only [BitVec.toNat_shiftLeft, BitVec.toNat_setWidth, Nat.shiftLeft_eq]
  omega

/-- Whatever the free attributes are, the segment ends at FFFFh after a load in V86 mode (R216; log 24). -/
theorem v86Attr_inLimit (d : Word) (off n : Nat) :
    (v86Attr d).inLimit off n = true ↔ off + n ≤ 0x10000 := by
  have hup : (v86Attr d).expandDown = false := by simp [SegAttr.expandDown, v86Attr]
  have hlimit : (v86Attr d).byteLimit = 0xFFFF := rfl
  simp only [SegAttr.inLimit, hup, hlimit, Bool.false_eq_true, if_false, decide_eq_true_eq]
  omega

/-- Settles O40: in REAL mode the load is `loadedReal`, without a test. -/
theorem loadSregReal : Obligations.LoadSregReal := by
  unfold Obligations.LoadSregReal
  intro i s r sel h hr hm
  refine h.completes hr (loadSreg_eq_ok.2 (.inl ⟨hm, rfl⟩)) ⟨⟨fun _ => rfl, rfl⟩, ?_⟩
  simp only [State.advance_seg, State.loadedReal_seg, Sregs.get_set_same]
  exact ⟨trivial, realBase_toNat sel, trivial⟩

/-- Settles O41: in V86 mode the load is `loadedV86`, without a test. -/
theorem loadSregV86 : Obligations.LoadSregV86 := by
  unfold Obligations.LoadSregV86
  intro i s r sel h hr hm
  refine h.completes hr (loadSreg_eq_ok.2 (.inr (.inl ⟨hm, rfl⟩))) ⟨⟨fun _ => rfl, rfl⟩, ?_⟩
  simp only [State.advance_seg, State.loadedV86_seg, Sregs.get_set_same]
  exact ⟨trivial, realBase_toNat sel, fun off n _ => v86Attr_inLimit _ off n⟩

/-! ### NULL selectors -/

/-- A NULL selector that the register admits loads, and leaves memory. -/
theorem LoadOf.completes_null {i : Instr} {s : State} {r : Sreg} {sel : Half} (h : LoadOf i s r sel) (hr : r ≠ .cs)
    (hm : CheckedMode s) (hn : sel.toNat ≤ 3) (hss : r = .ss → s.ssNullAllowed sel = true) :
    Completes i s fun t => LoadedSeg s t (instrLength i) r sel ∧ MemorySame s t ∧ (t.seg.get r).hid.kind = .null := by
  refine h.completes hr (loadSreg_eq_ok.2 (.inr (.inr (.inl ⟨hm, (selNull_iff sel).2 hn, hss, rfl⟩))))
    ⟨⟨fun _ => rfl, rfl⟩, ?_⟩
  rw [State.advance_seg, State.loadedNull_seg, Sregs.get_set_same]

/-- A NULL selector that SS refuses raises #GP(0) (R211 (1), R212 (1)). -/
theorem loadSreg_ssNull {s : State} {sel : Half} (hm : CheckedMode s) (hn : sel.toNat ≤ 3)
    (hss : s.ssNullAllowed sel = false) : s.loadSreg .ss sel = raise s .gp (.code 0) := by
  have hnull := (selNull_iff sel).2 hn
  obtain hm | hm | hm := hm <;> simp [State.loadSreg, hm, hnull, hss]

/-- Settles O42: DS, ES, FS and GS take every NULL selector. -/
theorem loadSregNull : Obligations.LoadSregNull := by
  unfold Obligations.LoadSregNull
  intro i s r sel h hm hr hn
  exact h.completes_null hr.ne_cs hm hn fun hss => absurd hss hr.ne_ss

/-- Settles O43: `ssNullAllowed_iff` says when SS admits a NULL selector. -/
theorem loadSsNull : Obligations.LoadSsNull := by
  unfold Obligations.LoadSsNull
  intro i s sel h hm hn
  have hraises : ¬ (s.mode = .long64 ∧ s.cpl ≠ 3#2 ∧ selRpl sel = s.cpl) → Raises i s .gp (.code 0) := fun hbad =>
    h.raises nofun (loadSreg_ssNull hm hn (Bool.eq_false_iff.2 (mt ssNullAllowed_iff.1 hbad)))
  refine ⟨fun hl => hraises fun hok => hl hok.1, fun _ hbad => hraises fun ⟨_, hcpl, hrpl⟩ => ?_, fun hl hcpl hrpl => ?_⟩
  · exact hbad.elim hcpl fun hne => hne hrpl
  · exact h.completes_null nofun hm hn fun _ => ssNullAllowed_iff.2 ⟨hl, hcpl, hrpl⟩

/-! ### Loads from a descriptor -/

theorem selNull_eq_false {sel : Half} (h : 3 < sel.toNat) : selNull sel = false :=
  Bool.eq_false_iff.2 fun hn => absurd ((selNull_iff sel).1 hn) (by omega)

theorem loadSreg_eq_loadDescriptor {s : State} {r : Sreg} {sel : Half} (hm : CheckedMode s) (hn : 3 < sel.toNat) :
    s.loadSreg r sel = s.loadDescriptor r sel := by
  have hnull := selNull_eq_false hn
  obtain hm | hm | hm := hm <;> simp [State.loadSreg, hm, hnull]

/-- What a load leaves in memory is a matter of memory alone, whatever else changed. -/
theorem AccessedSet.congr {s t u : State} {d : Word} {pas : List Nat} (hmem : u.mem = t.mem) (hstored : u.stored = t.stored)
    (h : AccessedSet s t d pas) : AccessedSet s u d pas := by
  obtain ⟨hset, hclear⟩ := h
  rw [← hmem] at hclear
  exact ⟨fun hd => ⟨fun a => hmem ▸ (hset hd).bytes a, hstored.trans (hset hd).stored⟩, hclear⟩

/-- A load from a descriptor that passes the tests of the register completes. -/
theorem LoadOf.completes_descriptor {i : Instr} {s : State} {r : Sreg} {sel : Half} {d : Word} {pas : List Nat}
    (h : LoadOf i s r sel) (hr : r ≠ .cs) (hm : CheckedMode s) (hn : 3 < sel.toNat)
    (hfound : s.descLookup sel = .ok (.found d pas)) (hss : r = .ss → ¬ StackDescriptorBad s sel (descAttr d))
    (hdata : r ≠ .ss → ¬ DataDescriptorBad s sel (descAttr d)) (hpresent : (descAttr d).present = true) :
    Completes i s fun t => LoadedSeg s t (instrLength i) r sel ∧ AccessedSet s t d pas ∧
      (t.seg.get r).hid = { kind := .desc, base := descBase d, attr := descAttr d } := by
  have hload : s.loadSreg r sel = .ok (s.loadedDesc r sel d pas) := by
    rw [loadSreg_eq_loadDescriptor hm hn]
    exact loadDescriptor_eq_ok.2 ⟨d, pas, hfound, hpresent, hss, hdata, rfl⟩
  refine h.completes hr hload ⟨AccessedSet.congr (t := s.setAccessed d pas) rfl rfl (setAccessed_accessedSet s d pas), ?_⟩
  rw [State.advance_seg, State.loadedDesc_seg, Sregs.get_set_same, Hidden.ofDesc]

/-- Settles O44, with the tests of DS, ES, FS and GS. -/
theorem loadSregDescriptor : Obligations.LoadSregDescriptor := by
  unfold Obligations.LoadSregDescriptor
  intro i s r sel d pas h hm hr hn hfound hgood hpresent
  exact h.completes_descriptor hr.ne_cs hm hn hfound (fun hss => absurd hss hr.ne_ss) (fun _ => hgood) hpresent

/-- Settles O45, with the tests of SS; the inhibition is what every load of SS sets. -/
theorem loadSsDescriptor : Obligations.LoadSsDescriptor := by
  unfold Obligations.LoadSsDescriptor
  intro i s sel d pas h hm hn hfound hgood hpresent
  obtain ⟨t, hexec, hloaded, haccessed, hhid⟩ :=
    h.completes_descriptor nofun hm hn hfound (fun _ => hgood) (absurd rfl) hpresent
  exact ⟨t, hexec, hloaded, haccessed, by simp [hloaded.inhibit], hhid⟩

section
variable {s : State} {sel : Half} {d : Word} {pas : List Nat} (hfound : s.descLookup sel = .ok (.found d pas))
include hfound

theorem loadDescriptor_ssBad (hbad : StackDescriptorBad s sel (descAttr d)) :
    s.loadDescriptor .ss sel = raise s .gp (selCode sel) := by
  simp [State.loadDescriptor, hfound, ssDescBad_iff.2 hbad]

theorem loadDescriptor_ssAbsent (hgood : ¬ StackDescriptorBad s sel (descAttr d))
    (habsent : (descAttr d).present = false) : s.loadDescriptor .ss sel = raise s .ss (selCode sel) := by
  rw [← ssDescBad_iff] at hgood
  simp [State.loadDescriptor, hfound, hgood, habsent]

theorem loadDescriptor_dataBad {r : Sreg} (hr : r ≠ .ss) (hbad : DataDescriptorBad s sel (descAttr d)) :
    s.loadDescriptor r sel = raise s .gp (selCode sel) := by
  simp [State.loadDescriptor, hfound, hr, dataDescBad_iff.2 hbad]

theorem loadDescriptor_dataAbsent {r : Sreg} (hr : r ≠ .ss) (hgood : ¬ DataDescriptorBad s sel (descAttr d))
    (habsent : (descAttr d).present = false) : s.loadDescriptor r sel = raise s .np (selCode sel) := by
  rw [← dataDescBad_iff] at hgood
  simp [State.loadDescriptor, hfound, hr, hgood, habsent]

end

/-- Settles O46: each clause is a stop of `loadDescriptor`, in the order of its tests. -/
theorem loadDescriptorFaults : Obligations.LoadDescriptorFaults := by
  unfold Obligations.LoadDescriptorFaults
  intro i s r sel h hm hr hn
  have hraises : ∀ c info, s.loadDescriptor r sel = raise s c info → Raises i s c info := fun c info hd =>
    h.raises hr ((loadSreg_eq_loadDescriptor hm hn).trans hd)
  simp only [← selCode_eq]
  refine ⟨fun code hl => hraises _ _ ?_, fun hl => hraises _ _ ?_, fun hl => hraises _ _ ?_, fun d pas hfound => ?_⟩
  · rw [State.loadDescriptor, hl, bind_ok]
  · rw [State.loadDescriptor, hl, bind_ok]
  · rw [State.loadDescriptor, hl, bind_ok]
  · refine ⟨?_, ?_, fun hss hbad => hraises _ _ (loadDescriptor_dataBad hfound hss hbad),
      fun hss hgood habsent => hraises _ _ (loadDescriptor_dataAbsent hfound hss hgood habsent)⟩
    · rintro rfl hbad
      exact hraises _ _ (loadDescriptor_ssBad hfound hbad)
    · rintro rfl hgood habsent
      exact hraises _ _ (loadDescriptor_ssAbsent hfound hgood habsent)

end Sys2Proof.Machine
end

section
/-! PROOFS. MOV from a segment register (41_mov_sreg.md R200 to R204, R219), and the register numbers that raise #UD in
either direction (R208, R209). -/

namespace Sys2Proof.Machine

/-! ### A selector to a general register -/

/-- Bits 15:0 of what a 32-bit register takes are the selector (R219). -/
theorem selectorWord_low (s : State) (sel : Half) : (s.selectorWord sel).extractLsb' 0 16 = sel := by
  apply BitVec.eq_of_getLsbD_eq
  intro k hk
  unfold State.selectorWord
  split
  · simp [hk, show k < 64 by omega]
  · simp only [BitVec.getLsbD_extractLsb', BitVec.getLsbD_setWidth, BitVec.getLsbD_append]
    simp [hk, show k < 64 by omega]

/-- Where a parameter says so, the other bits are 0 (R219; log 14). -/
theorem selectorWord_zeroExtended {s : State} (sel : Half)
    (h : s.params.sregUpperZero = true ∨ s.params.hasIntel64 = true) : s.selectorWord sel = sel.setWidth 64 := by
  rw [State.selectorWord, if_pos (by simpa using h)]

/-- The selector row of 32 bits writes as any 32-bit write does: only the count of free values differs. -/
theorem writeSelector32_wroteReg (s : State) (len : Nat) (g : Gpr) (sel : Half) :
    WroteReg s ((s.writeSelector32 g sel).advance len) len .b32 false g (s.selectorWord sel) where
  gpr := regsAfter_written s .b32 false g (s.selectorWord sel)
  pc := rfl
  flags := rfl
  system := ⟨⟨rfl, rfl, rfl, rfl, rfl, rfl, rfl, rfl⟩, ⟨rfl, rfl, rfl, rfl⟩, ⟨rfl, rfl⟩, rfl⟩
  memory := ⟨fun _ => rfl, rfl⟩

/-! ### Register numbers that raise #UD -/

theorem sregOf_undefined {s : State} {f : SregField} (hf : f = .num6 ∨ f = .num7) : s.sregOf f = raise s .ud .none := by
  obtain rfl | rfl := hf <;> rfl

theorem storeSelector_undefined {s : State} {p : Pfx} {len : Nat} {rm : RmOp} {f : SregField} {k : Gpr → Half → State}
    (hf : f = .num6 ∨ f = .num7) : s.storeSelector p len rm f k = raise s .ud .none := by
  rw [State.storeSelector, sregOf_undefined hf, raise, bind_error, raise]

theorem loadSelector_undefined {s : State} {p : Pfx} {len n : Nat} {rm : RmOp} {f : SregField}
    (hf : f = .num6 ∨ f = .num7) : s.loadSelector p len n f rm = raise s .ud .none := by
  rw [State.loadSelector, sregOf_undefined hf, raise, bind_error, raise]

theorem loadSelector_cs (s : State) (p : Pfx) (len n : Nat) (rm : RmOp) :
    s.loadSelector p len n (.reg .cs) rm = raise s .ud .none := rfl

/-- Where opcode 8E raises #UD, both rows do, with and without LOCK. -/
theorem load_rows_raise_ud {s : State} {p : Pfx} {f : SregField} {rm : RmOp}
    (h : ∀ len n, s.loadSelector p len n f rm = raise s .ud .none) :
    Raises (.movSregRm16 p f rm) s .ud .none ∧ Raises (.movSregRm64 p f rm) s .ud .none :=
  ⟨complete_ud (h _ _), complete_ud (h _ _)⟩

/-! ### The statements -/

/-- Settles O36: each row writes its form of the selector to the register. -/
theorem sregToRegister : Obligations.SregToRegister := by
  unfold Obligations.SregToRegister
  intro s p g r hp
  refine ⟨movesToReg_of_writeReg hp rfl, ?_, movesToReg_of_writeReg hp rfl⟩
  exact ⟨s.selectorWord (s.seg.get r).sel, selectorWord_low s _, selectorWord_zeroExtended _,
    _, complete_ok hp rfl, writeSelector32_wroteReg s _ g _⟩

/-- Settles O37: with a memory destination each row stores the two bytes of the selector. -/
theorem sregToMemory : Obligations.SregToMemory := by
  unfold Obligations.SregToMemory
  intro s p m r pas hp
  refine ⟨?_, ?_, ?_⟩ <;> exact fun hr => movesToMem_of_logWrite hp rfl rfl hr

/-- Settles O38: `sregOf` raises #UD before the operand is looked at, in all five rows. -/
theorem sregNumbersUndefined : Obligations.SregNumbersUndefined := by
  unfold Obligations.SregNumbersUndefined
  intro s p rm f hf
  have hstore : ∀ len k, s.storeSelector p len rm f k = raise s .ud .none := fun _ _ => storeSelector_undefined hf
  exact ⟨complete_ud (hstore _ _), complete_ud (hstore _ _), complete_ud (hstore _ _),
    load_rows_raise_ud fun _ _ => loadSelector_undefined hf⟩

/-- Settles O39: the test for CS stands before the read of the operand. -/
theorem loadCsUndefined : Obligations.LoadCsUndefined := by
  unfold Obligations.LoadCsUndefined
  intro s p rm
  exact load_rows_raise_ud fun _ _ => loadSelector_cs ..

end Sys2Proof.Machine
end

section
/-! PROOFS. What rows 36 to 45 ask of the privilege and leave in the flags, and when the run ends (42_mov_cr.md R250, R259,
R262, R265; 43_mov_dr.md R302, R305; 10_state.md R29; 70_reset_and_hazards.md R371). -/

namespace Sys2Proof.Machine

/-! ### The privilege -/

/-- Rows 36 to 45 complete only where control and debug registers may be moved (42_mov_cr.md R250, 43_mov_dr.md R305). -/
theorem Effect.mayMoveSystem {i : Instr} {s u : State} (h : Effect i s u) (hi : movesSystem i = true) :
    MayMoveSystem s := by
  cases h with
  | wroteReg w x r v n hm | stored d pas v hm | loaded r sel u hm => simp [hi] at hm
  | readSystem w g v hm hp | wroteCr w g r u hm hp => exact hp
  | wroteDr w g p d hm hp =>
    obtain ⟨-, -, hmay, -⟩ := hp
    exact hmay

/-- Rows 1 to 35 leave the control and the debug registers. -/
theorem Effect.cr_dr_eq {i : Instr} {s u : State} (h : Effect i s u) (hi : movesSystem i = false) :
    u.cr = s.cr ∧ u.dr = s.dr := by
  cases h with
  | wroteReg | stored => exact ⟨rfl, rfl⟩
  | loaded r sel u hm hs hr hl hu => exact ⟨(loadSreg_keeps hu).2.cr, (loadSreg_gpr_dr hu).2⟩
  | readSystem w g v hm | wroteCr w g r u hm | wroteDr w g p d hm => simp [hi] at hm

/-- Settles O16: rows 36 to 45 complete only with the privilege, and the other rows leave these registers. -/
theorem unprivilegedKeepsSystem : Obligations.UnprivilegedKeepsSystem := by
  unfold Obligations.UnprivilegedKeepsSystem
  intro i s t hp h
  obtain ⟨-, u, he, rfl⟩ := exec_effect h
  have hi : movesSystem i = false := Bool.eq_false_iff.2 (mt he.mayMoveSystem hp)
  obtain ⟨hcr, hdr⟩ := he.cr_dr_eq hi
  exact ⟨hcr, hdr, hi⟩

/-! ### The flags -/

/-- Undefined flags are the next free value, which counts as used then (log 11, log 13). -/
theorem undefineFlags_free {s u : State} (h : s.draws ≤ u.draws) :
    ∃ n, s.draws ≤ n ∧ n < u.undefineFlags.draws ∧ u.undefineFlags.flags = Flags.ofDraw (Config.draw n) :=
  ⟨u.draws, h, Nat.lt_succ_self _, rfl⟩

/-- The effects of rows 36 to 45 end with the flags undefined, and no free value is used twice. -/
theorem Effect.flags_free {i : Instr} {s u : State} (h : Effect i s u) (hi : movesSystem i = true) :
    ∃ n, s.draws ≤ n ∧ n < u.draws ∧ u.flags = Flags.ofDraw (Config.draw n) := by
  cases h with
  | wroteReg w x r v n hm | stored d pas v hm | loaded r sel u hm => simp [hi] at hm
  | readSystem => exact undefineFlags_free (Nat.le_add_right _ _)
  | wroteCr w g r u hm hp hc hn h8 hu =>
    have hdraws : u.draws = s.draws := by rw [writeCrReg_touches hu]
    exact undefineFlags_free hdraws.ge
  | wroteDr => exact undefineFlags_free le_rfl

/-- Settles O19, by the kind of effect. -/
theorem flagsFree : Obligations.FlagsFree := by
  unfold Obligations.FlagsFree
  intro i s t hi h
  obtain ⟨-, u, he, rfl⟩ := exec_effect h
  exact he.flags_free hi

/-! ### The end of the run -/

/-- One of the bits whose change ends the run differs: CR0.PE, CR0.PG or CR4.PAE (42_mov_cr.md R262). -/
def ModeBitsDiffer (s t : State) : Prop :=
  t.cr.cr0.getLsbD 0 ≠ s.cr.cr0.getLsbD 0 ∨ t.cr.cr0.getLsbD 31 ≠ s.cr.cr0.getLsbD 31 ∨
    t.cr.cr4.getLsbD 5 ≠ s.cr.cr4.getLsbD 5

theorem not_modeBitsDiffer {s t : State} (h0 : t.cr.cr0 = s.cr.cr0) (h4 : t.cr.cr4 = s.cr.cr4) :
    ¬ ModeBitsDiffer s t := by
  simp [ModeBitsDiffer, h0, h4]

/-- A write of a control register ends a run that goes on exactly if it changed one of these bits. -/
theorem writeCrReg_modeChanged {s u : State} {r : CrReg} {v : Word} (h : s.writeCrReg r v = .ok u)
    (hrun : s.modeChanged = false) : u.modeChanged = true ↔ ModeBitsDiffer s u := by
  have hstays : u.modeChanged = s.modeChanged → u.cr.cr0 = s.cr.cr0 → u.cr.cr4 = s.cr.cr4 →
      (u.modeChanged = true ↔ ModeBitsDiffer s u) := fun hsame h0 h4 => by
    simp [hsame, hrun, not_modeBitsDiffer h0 h4]
  cases r with
  | cr0 =>
    have hcr4 : u.cr.cr4 = s.cr.cr4 := by rw [writeCrReg_touches h]; rfl
    obtain ⟨-, -, -, hends⟩ := writeCr0_eq_ok h
    simp [hends, hrun, ModeBitsDiffer, hcr4, cr0PE, cr0PG]
  | cr4 =>
    have hcr0 : u.cr.cr0 = s.cr.cr0 := by rw [writeCrReg_touches h]; rfl
    obtain ⟨-, hcr4, -, hends⟩ := writeCr4_eq_ok h
    simp [hends, hrun, ModeBitsDiffer, hcr0, hcr4, cr4PAE]
  | cr2 => cases h; exact hstays rfl rfl rfl
  | cr3 =>
    obtain ⟨-, -, -, hsame⟩ := writeCr3_eq_ok h
    exact hstays hsame (by rw [writeCrReg_touches h]; rfl) (by rw [writeCrReg_touches h]; rfl)
  | cr8 => rw [writeCr8_eq_set h] at hstays ⊢; exact hstays rfl rfl rfl

theorem exec_modeChanged {i : Instr} {s t : State} (h : exec i s = .next t) (hrun : s.modeChanged = false) :
    t.modeChanged = true ↔ ModeBitsDiffer s t := by
  obtain hsame | ⟨r, v, u, -, hu, hsame⟩ := exec_control h
  · simp [hsame.modeChanged, hrun, not_modeBitsDiffer (congrArg Crs.cr0 hsame.cr) (congrArg Crs.cr4 hsame.cr)]
  · rw [hsame.modeChanged, writeCrReg_modeChanged hu hrun]
    simp only [ModeBitsDiffer, hsame.cr]

/-- An instruction that ends the run is no load of a segment register. -/
theorem exec_seg_of_modeChanged {i : Instr} {s t : State} (h : exec i s = .next t) (hrun : s.modeChanged = false)
    (hends : t.modeChanged = true) : t.seg = s.seg := by
  obtain ⟨-, u, he, rfl⟩ := exec_effect h
  obtain hseg | ⟨r, sel, hload⟩ := he.seg_eq_or_load
  · exact hseg
  · have hgoes : u.modeChanged = s.modeChanged := (loadSreg_keeps hload).2.modeChanged
    simp [hgoes, hrun] at hends

theorem step_of_modeChanged {s : State} (h : s.modeChanged = true) : step s = .refused (.modeChange s.pc) := by
  simp [step, h]

/-- Settles O56: only a write of CR0 or CR4 ends the run, and `exec` then leaves what is fixed and the segments. -/
theorem modeChangeEndsRun : Obligations.ModeChangeEndsRun := by
  unfold Obligations.ModeChangeEndsRun
  intro i s t hrun h
  have hfixed := exec_fixedSame h
  exact ⟨exec_modeChanged h hrun, fun hends =>
    ⟨hfixed.mode, hfixed.cpl, exec_seg_of_modeChanged h hrun hends, step_of_modeChanged hends⟩⟩

end Sys2Proof.Machine
end

section
/-! PROOFS. MOV from and to control registers, rows 36 to 41 (42_mov_cr.md R242 to R265): which numbers and states raise, and
what each row that completes does. -/

namespace Sys2Proof.Machine

/-! ### Which numbers exist -/

theorem crOfNum_eq_none {c : CrNum} : crOfNum c = none ↔ c ∈ [CrNum.cr1, .cr5, .cr6, .cr7] := by
  cases c <;> decide

theorem crOfHigh_eq_none {c : CrHigh} : crOfHigh c = none ↔ c ≠ .cr8 := by
  cases c <;> decide

/-- The four registers that rows 36, 37, 39 and 40 can name (R243). -/
theorem crOfNum_of_mem {c : CrNum} {r : CrReg}
    (h : (c, r) ∈ [(CrNum.cr0, CrReg.cr0), (.cr2, .cr2), (.cr3, .cr3), (.cr4, .cr4)]) : crOfNum c = some r := by
  simp only [List.mem_cons, Prod.mk.injEq, List.not_mem_nil, or_false] at h
  obtain ⟨rfl, rfl⟩ | ⟨rfl, rfl⟩ | ⟨rfl, rfl⟩ | ⟨rfl, rfl⟩ := h <;> rfl

/-! ### Where the tests before the move stop -/

theorem readCr_of_crGuard_error {s : State} {w : Width} {g : Gpr} {c : Option CrReg} {e : Stop}
    (h : s.crGuard c = .error e) : s.readCr w g c = .error e := by
  rw [State.readCr, h, map_error]

theorem writeCr_of_crGuard_error {s : State} {w : Width} {g : Gpr} {c : Option CrReg} {e : Stop}
    (h : s.crGuard c = .error e) : s.writeCr w c g = .error e := by
  rw [State.writeCr, h, bind_error]

/-- A row whose own effect raises #UD, unless LOCK raises it before. -/
theorem complete_locked_or_ud {p : Pfx} {len : Nat} {s : State} {body : Except Stop State}
    (h : p.locked = true ∨ body = raise s .ud .none) :
    complete p len s body = .fault (.exception .ud .none s.pc) :=
  h.elim complete_locked complete_ud

/-- Settles O49: a number without a register raises #UD in `crGuard`, and LOCK raises it before that. -/
theorem crNumbersUndefined : Obligations.CrNumbersUndefined := by
  unfold Obligations.CrNumbersUndefined
  intro s p m g
  have hread : ∀ w c, c = none → s.readCr w g c = raise s .ud .none := by
    rintro w _ rfl
    exact readCr_of_crGuard_error (crGuard_absent s)
  have hwrite : ∀ w c, c = none → s.writeCr w c g = raise s .ud .none := by
    rintro w _ rfl
    exact writeCr_of_crGuard_error (crGuard_absent s)
  refine ⟨fun c hc => ?_, fun c hc => ?_⟩
  · rw [← crOfNum_eq_none] at hc
    exact ⟨complete_locked_or_ud (hc.imp_right (hread _ _)), complete_locked_or_ud (hc.imp_right (hread _ _)),
      complete_locked_or_ud (hc.imp_right (hwrite _ _)), complete_locked_or_ud (hc.imp_right (hwrite _ _))⟩
  · rw [← crOfHigh_eq_none] at hc
    exact ⟨complete_locked_or_ud (hc.imp_right (hread _ _)), complete_locked_or_ud (hc.imp_right (hwrite _ _))⟩

/-- A move in either direction stops where `crGuard` of its register does. -/
theorem CrMoveOf.exec_of_crGuard_error {i : Instr} {s : State} {r : CrReg} {e : Stop} (h : CrMoveOf i r)
    (hg : s.crGuard (some r) = .error e) :
    ∃ p : Pfx, p.locked = false ∧ exec i s = complete p (instrLength i) s (.error e) := by
  obtain ⟨p, m, g, hp, ⟨c, hc, hi⟩ | ⟨rfl, hi⟩⟩ := h
  · rw [← crOfNum_of_mem hc] at hg
    refine ⟨p, hp, ?_⟩
    obtain rfl | rfl | rfl | rfl := hi
    · rw [exec, execMovR32Cr, readCr_of_crGuard_error hg]
    · rw [exec, execMovR64Cr, readCr_of_crGuard_error hg]
    · rw [exec, execMovCrR32, writeCr_of_crGuard_error hg]
    · rw [exec, execMovCrR64, writeCr_of_crGuard_error hg]
  · refine ⟨p, hp, ?_⟩
    obtain rfl | rfl := hi
    · rw [exec, execMovR64Cr8, crOfHigh, readCr_of_crGuard_error hg]
    · rw [exec, execMovCr8R64, crOfHigh, writeCr_of_crGuard_error hg]

/-- In V86 mode, and outside REAL mode at a privilege level other than 0, nothing may be moved (R250). -/
theorem not_mayMoveSystem {s : State} (h : s.mode = .v86 ∨ (s.mode ≠ .real ∧ s.cpl ≠ 0#2)) : ¬ MayMoveSystem s := by
  unfold MayMoveSystem
  obtain hmode | ⟨hmode, hcpl⟩ := h
  · simp [hmode]
  · simp [hmode, hcpl]

/-- A processor without CR4 is outside the spec (93 U24; log 35). -/
theorem crGuard_noCr4 {s : State} (h : s.params.hasCr4 = false) :
    s.crGuard (some .cr4) = .error (.refusal .noCr4) := by
  simp [State.crGuard, h]

/-- Settles O50: each clause is a stop of `crGuard`. -/
theorem crPrivilege : Obligations.CrPrivilege := by
  unfold Obligations.CrPrivilege
  intro i s r h
  constructor
  · intro h4 hmode
    obtain ⟨p, hp, hexec⟩ := h.exec_of_crGuard_error (crGuard_unprivileged h4 (not_mayMoveSystem hmode))
    exact hexec.trans (complete_fault hp rfl)
  · rintro rfl h4
    obtain ⟨p, hp, hexec⟩ := h.exec_of_crGuard_error (crGuard_noCr4 h4)
    exact hexec.trans (complete_refused hp rfl)

/-! ### Reading -/

/-- A register write that leaves the flags undefined, and past the instruction: what it changed and what it did not. -/
theorem writeReg_undefineFlags_readSystem (s : State) (len : Nat) (w : Width) (g : Gpr) (v : Word) :
    ReadSystem s ((s.writeReg w false g v).undefineFlags.advance len) len w g v where
  gpr := regsAfter_written s w false g v
  pc := rfl
  system := ⟨⟨rfl, rfl, rfl, rfl, rfl, rfl, rfl, rfl⟩, ⟨rfl, rfl, rfl, rfl⟩, ⟨rfl, rfl⟩, rfl⟩
  memory := ⟨fun _ => rfl, rfl⟩

/-- A row that reads a register which exists and may be moved completes. -/
theorem completes_of_readCr {i : Instr} {s : State} {p : Pfx} {w : Width} {g : Gpr} {c : Option CrReg} {r : CrReg}
    (hp : p.locked = false) (hexec : exec i s = complete p (instrLength i) s (s.readCr w g c)) (hc : c = some r)
    (h4 : r = .cr4 → s.params.hasCr4 = true) (hmay : MayMoveSystem s) :
    Completes i s fun t => ReadSystem s t (instrLength i) w g (s.cr.get r) :=
  ⟨_, hexec.trans (complete_ok hp (readCr_eq_ok.2 ⟨r, hc, h4, hmay, rfl⟩)), writeReg_undefineFlags_readSystem ..⟩

/-- Settles O48: each row writes the control register to the general register. -/
theorem readCr : Obligations.ReadCr := by
  unfold Obligations.ReadCr
  intro s p m g hp hmay
  refine ⟨fun c r hc h4 => ?_, ?_⟩
  · have hreg := crOfNum_of_mem hc
    exact ⟨completes_of_readCr hp rfl hreg h4 hmay, completes_of_readCr hp rfl hreg h4 hmay⟩
  · exact completes_of_readCr (r := .cr8) hp rfl rfl nofun hmay

/-! ### A row that writes is its write -/

/-- The instruction passes the tests before the move, and is then a write of `v` to control register `r`. -/
def RunsCrWrite (i : Instr) (s : State) (r : CrReg) (v : Word) : Prop :=
  ∃ p : Pfx, p.locked = false ∧
    exec i s = complete p (instrLength i) s ((s.writeCrReg r v).map State.undefineFlags)

/-- Past `crGuard` there is only the write of the register. -/
theorem writeCr_of_mayMoveSystem {s : State} {r : CrReg} (w : Width) (g : Gpr)
    (h4 : r = .cr4 → s.params.hasCr4 = true) (hmay : MayMoveSystem s) :
    s.writeCr w (some r) g = (s.writeCrReg r (s.readReg w false g)).map State.undefineFlags := by
  rw [State.writeCr, crGuard_eq_ok.2 ⟨rfl, h4, hmay⟩, bind_ok]

theorem CrWriteOf.runsCrWrite {i : Instr} {s : State} {c : CrNum} {r : CrReg} {v : Word} (h : CrWriteOf i s c v)
    (hc : crOfNum c = some r) (h4 : r = .cr4 → s.params.hasCr4 = true) (hmay : MayMoveSystem s) :
    RunsCrWrite i s r v := by
  obtain ⟨p, m, g, hp, ⟨rfl, rfl⟩ | ⟨rfl, rfl⟩⟩ := h
  · refine ⟨p, hp, ?_⟩
    rw [exec, execMovCrR32, hc, writeCr_of_mayMoveSystem .b32 g h4 hmay, regValue_readReg]
  · refine ⟨p, hp, ?_⟩
    rw [exec, execMovCrR64, hc, writeCr_of_mayMoveSystem .b64 g h4 hmay, regValue_readReg, regValue]

theorem runsCrWrite_cr8 {s : State} {p : Pfx} (m : BitVec 2) (g : Gpr) (hp : p.locked = false) (hmay : MayMoveSystem s) :
    RunsCrWrite (.movCr8R64 p m .cr8 g) s .cr8 (s.gpr.get g) := by
  refine ⟨p, hp, ?_⟩
  rw [exec, execMovCr8R64, crOfHigh, writeCr_of_mayMoveSystem (r := .cr8) .b64 g nofun hmay, regValue_readReg, regValue]

/-- The #GP of a value check has code 0, and none in REAL mode (60_exceptions.md R321). -/
theorem zeroCode_eq (s : State) : s.zeroCode = if s.mode = .real then .none else .code 0 := by
  simp only [State.zeroCode, beq_iff_eq]

theorem RunsCrWrite.raises {i : Instr} {s : State} {r : CrReg} {v : Word} (h : RunsCrWrite i s r v)
    (hbad : s.writeCrReg r v = crFault s) : Raises i s .gp s.zeroCode := by
  obtain ⟨p, hp, hexec⟩ := h
  rw [hbad] at hexec
  exact hexec.trans (complete_fault hp rfl)

/-- Past the instruction, a write of a control register left everything else. -/
theorem writeCrReg_wroteCr {s u : State} {r : CrReg} {v : Word} (len : Nat) (h : s.writeCrReg r v = .ok u) :
    WroteCr s (u.undefineFlags.advance len) len r := by
  rw [writeCrReg_touches h]
  exact {
    others := fun q hq => Crs.get_set_other _ _ hq
    gpr := rfl
    pc := rfl
    fixed := ⟨rfl, rfl, rfl, rfl, rfl, rfl, rfl, rfl⟩
    segments := ⟨rfl, rfl⟩
    dr := rfl
    memory := ⟨fun _ => rfl, rfl⟩ }

/-- A write that is accepted completes, with what the write of that register adds. -/
theorem RunsCrWrite.completes {i : Instr} {s u : State} {r : CrReg} {v : Word} {post : State → Prop}
    (h : RunsCrWrite i s r v) (hu : s.writeCrReg r v = .ok u)
    (hpost : post (u.undefineFlags.advance (instrLength i))) :
    Completes i s fun t => WroteCr s t (instrLength i) r ∧ post t := by
  obtain ⟨p, hp, hexec⟩ := h
  rw [hu] at hexec
  exact ⟨_, hexec.trans (complete_ok hp rfl), writeCrReg_wroteCr _ hu, hpost⟩

/-! ### CR0 -/

theorem writeCr0_of_bad {s : State} {v : Word} (h : Cr0Bad s v) : s.writeCr0 v = crFault s := by
  rw [State.writeCr0, if_pos (cr0Refused_iff.2 h)]

theorem writeCr0_of_good {s : State} {v : Word} (h : ¬ Cr0Bad s v) : ∃ u, s.writeCr0 v = .ok u := by
  rw [State.writeCr0, if_neg (mt cr0Refused_iff.1 h)]
  exact ⟨_, rfl⟩

/-- Settles O51: `writeCr0` past the tests of R252. -/
theorem writeCr0 : Obligations.WriteCr0 := by
  unfold Obligations.WriteCr0
  intro i s v h hmay
  have hrun : RunsCrWrite i s .cr0 v := h.runsCrWrite rfl nofun hmay
  rw [← zeroCode_eq]
  refine ⟨fun hbad => hrun.raises (writeCr0_of_bad hbad), fun hgood => ?_⟩
  obtain ⟨u, hu⟩ := writeCr0_of_good hgood
  obtain ⟨-, hcr0, hepoch, -⟩ := writeCr0_eq_ok hu
  refine hrun.completes hu ⟨hepoch, fun k hk => ?_⟩
  rw [State.advance_cr, State.undefineFlags_cr, hcr0, cr0Stored_getLsbD _ _ hk]

/-! ### CR2 -/

/-- Settles O52: a write of CR2 has no test, and writes one field. -/
theorem writeCr2 : Obligations.WriteCr2 := by
  unfold Obligations.WriteCr2
  intro i s v h hmay
  exact (h.runsCrWrite (r := .cr2) rfl nofun hmay).completes rfl ⟨⟨rfl, rfl, rfl, rfl⟩, rfl⟩

/-! ### CR3 -/

theorem writeCr3_of_bad {s : State} {v : Word} (h : Cr3Bad s v) : s.writeCr3 v = crFault s := by
  rw [State.writeCr3, if_pos (cr3Refused_iff.2 h)]

theorem writeCr3_of_good {s : State} {v : Word} (h : ¬ Cr3Bad s v) : ∃ u, s.writeCr3 v = .ok u := by
  rw [State.writeCr3, if_neg (mt cr3Refused_iff.1 h)]
  exact ⟨_, rfl⟩

/-- No value is bad in REAL mode, so the #GP of a write of CR3 always has its code (R255). -/
theorem Cr3Bad.zeroCode {s : State} {v : Word} (h : Cr3Bad s v) : s.zeroCode = .code 0 := by
  rw [zeroCode_eq, if_neg]
  intro hreal
  simp [Cr3Bad, hreal] at h

/-- With CR4.PCIDE set bit 63 of the source decides the invalidation (R255, R261; log 16). -/
theorem writeCr3_tlb {s u : State} {v : Word} (h : s.writeCr3 v = .ok u) (hpcide : s.cr.cr4.getLsbD 17 = true) :
    u.tlb = .byBit63 (v.getLsbD 63) := by
  unfold State.writeCr3 at h
  split at h
  · simp [crFault, raise] at h
  · cases h
    exact if_pos hpcide

theorem cr3Stored_getLsbD (q : Params) (v : Word) {k : Nat} (hk : k < 64) :
    (v &&& ~~~cr3Mask q).getLsbD k = (v.getLsbD k && !q.cr3Reserved.getLsbD k && k != 63) := by
  rw [BitVec.getLsbD_and, BitVec.getLsbD_not, cr3Mask_getLsbD]
  simp only [hk, decide_true, Bool.true_and, Bool.not_or, Bool.and_assoc, bne]

/-- Settles O53: `writeCr3` past the tests of R255. -/
theorem writeCr3 : Obligations.WriteCr3 := by
  unfold Obligations.WriteCr3
  intro i s v h hmay
  have hrun : RunsCrWrite i s .cr3 v := h.runsCrWrite rfl nofun hmay
  refine ⟨fun hbad => hbad.zeroCode ▸ hrun.raises (writeCr3_of_bad hbad), fun hgood => ?_⟩
  obtain ⟨u, hu⟩ := writeCr3_of_good hgood
  obtain ⟨-, hcr3, hepoch, hsame⟩ := writeCr3_eq_ok hu
  have htlb := writeCr3_tlb hu
  refine hrun.completes hu ⟨hepoch, hsame, fun k hk => ?_, htlb⟩
  rw [State.advance_cr, State.undefineFlags_cr, hcr3, cr3Stored_getLsbD _ _ hk]

/-! ### CR4 -/

theorem MayMoveSystem.ne_v86 {s : State} (h : MayMoveSystem s) : s.mode ≠ .v86 := by
  obtain hreal | ⟨hv86, -⟩ := h
  · simp [hreal]
  · exact hv86

theorem writeCr4_of_bad {s : State} {v : Word} (hmay : MayMoveSystem s) (h : Cr4Bad s v) : s.writeCr4 v = crFault s := by
  rw [State.writeCr4, if_pos ((cr4Refused_iff hmay.ne_v86).2 h)]

theorem writeCr4_of_good {s : State} {v : Word} (hmay : MayMoveSystem s) (h : ¬ Cr4Bad s v) :
    ∃ u, s.writeCr4 v = .ok u := by
  rw [State.writeCr4, if_neg (mt (cr4Refused_iff hmay.ne_v86).1 h)]
  exact ⟨_, rfl⟩

/-- Settles O54: `writeCr4` past the tests of R256. -/
theorem writeCr4 : Obligations.WriteCr4 := by
  unfold Obligations.WriteCr4
  intro i s v h hmay h4
  have hrun : RunsCrWrite i s .cr4 v := h.runsCrWrite rfl (fun _ => h4) hmay
  rw [← zeroCode_eq]
  refine ⟨fun hbad => hrun.raises (writeCr4_of_bad hmay hbad), fun hgood => ?_⟩
  obtain ⟨u, hu⟩ := writeCr4_of_good hmay hgood
  obtain ⟨-, hcr4, hepoch, -⟩ := writeCr4_eq_ok hu
  exact hrun.completes hu ⟨hepoch, hcr4⟩

/-! ### CR8 -/

theorem writeCr8_of_bad {s : State} {v : Word} (h : v &&& s.params.cr8Reserved ≠ 0#64) : s.writeCr8 v = crFault s := by
  rw [State.writeCr8, if_pos (bne_iff_ne.2 h)]

theorem writeCr8_of_good {s : State} {v : Word} (h : v &&& s.params.cr8Reserved = 0#64) :
    s.writeCr8 v = .ok { s with cr := s.cr.set .cr8 v } := by
  simp [State.writeCr8, h]

/-- Settles O55: the test of R257, and past it a write of one field. -/
theorem writeCr8 : Obligations.WriteCr8 := by
  unfold Obligations.WriteCr8
  intro s p m g hp hlong hcpl
  have hrun := runsCrWrite_cr8 m g hp (.inr ⟨by simp [hlong], hcpl⟩)
  have hcode : s.zeroCode = .code 0 := by simp [zeroCode_eq, hlong]
  refine ⟨fun hbad => hcode ▸ hrun.raises (writeCr8_of_bad hbad), fun hgood => ?_⟩
  exact hrun.completes (writeCr8_of_good hgood) ⟨⟨rfl, rfl, rfl, rfl⟩, rfl⟩

end Sys2Proof.Machine
end

section
/-! PROOFS. MOV from and to debug registers, rows 42 to 45 (43_mov_dr.md): which numbers and states raise, in the order of
R304, and what each row that completes does. -/

namespace Sys2Proof.Machine

/-! ### Where the tests before the move stop -/

/-- The two causes of #UD come before every other test (R293, R295, R304). -/
theorem drGuard_ud {s : State} {p : Pfx} {d : DrNum}
    (h : (s.mode = .long64 ∧ p.rexR = true) ∨
      ((d = .dr4 ∨ d = .dr5) ∧ s.params.hasCr4 = true ∧ s.cr.cr4.getLsbD 3 = true)) :
    s.drGuard p d = raise s .ud .none := by
  rw [← debugExtensions_iff, ← State.long64_iff] at h
  unfold State.drGuard
  obtain ⟨hlong, hrex⟩ | ⟨hd, hde⟩ := h
  · simp [hlong, hrex]
  · simp [hd, hde]

/-- Past #UD, the privilege is tested before general detect (R304). -/
theorem drGuard_past_ud {s : State} {p : Pfx} {d : DrNum} (hrex : ¬ (s.mode = .long64 ∧ p.rexR = true))
    (hde : ¬ ((d = .dr4 ∨ d = .dr5) ∧ s.params.hasCr4 = true ∧ s.cr.cr4.getLsbD 3 = true)) :
    s.drGuard p d = if !s.privileged then raise s .gp (.code 0)
      else if s.dr.dr7.getLsbD 13 then raise s .db .none else .ok (drIndex d) := by
  rw [← State.long64_iff] at hrex
  rw [← debugExtensions_iff] at hde
  unfold State.drGuard
  rw [if_neg (by simpa using hrex), if_neg (by simpa using hde)]
  rfl

theorem readDr_of_drGuard_error {s : State} {p : Pfx} {w : Width} {g : Gpr} {d : DrNum} {e : Stop}
    (h : s.drGuard p d = .error e) : s.readDr p w g d = .error e := by
  rw [State.readDr, h, map_error]

theorem writeDr_of_drGuard_error {s : State} {p : Pfx} {w : Width} {d : DrNum} {g : Gpr} {e : Stop}
    (h : s.drGuard p d = .error e) : s.writeDr p w d g = .error e := by
  rw [State.writeDr, h, bind_error]

/-- A move in either direction stops where `drGuard` does. -/
theorem DrMoveOf.exec_of_drGuard_error {i : Instr} {s : State} {p : Pfx} {d : DrNum} {e : Stop} (h : DrMoveOf i p d)
    (hg : s.drGuard p d = .error e) : exec i s = complete p (instrLength i) s (.error e) := by
  obtain ⟨m, g, rfl | rfl | rfl | rfl⟩ := h
  · rw [exec, execMovR32Dr, readDr_of_drGuard_error hg]
  · rw [exec, execMovR64Dr, readDr_of_drGuard_error hg]
  · rw [exec, execMovDrR32, writeDr_of_drGuard_error hg]
  · rw [exec, execMovDrR64, writeDr_of_drGuard_error hg]

/-- #UD comes with LOCK too, which raises it itself. -/
theorem DrMoveOf.raises_ud {i : Instr} {s : State} {p : Pfx} {d : DrNum} (h : DrMoveOf i p d)
    (hg : s.drGuard p d = raise s .ud .none) : Raises i s .ud .none :=
  (h.exec_of_drGuard_error hg).trans (complete_ud rfl)

theorem DrMoveOf.raises {i : Instr} {s : State} {p : Pfx} {d : DrNum} {cls : ExcClass} {info : ExcInfo}
    (h : DrMoveOf i p d) (hp : p.locked = false) (hg : s.drGuard p d = raise s cls info) : Raises i s cls info :=
  (h.exec_of_drGuard_error hg).trans (complete_fault hp rfl)

/-- Settles O60: each clause is a stop of `drGuard`, in the order of its tests. -/
theorem drFaults : Obligations.DrFaults := by
  unfold Obligations.DrFaults
  intro i s p d h
  refine ⟨fun hlong hrex => h.raises_ud (drGuard_ud (.inl ⟨hlong, hrex⟩)),
    fun hd h4 hde => h.raises_ud (drGuard_ud (.inr ⟨hd, h4, hde⟩)), fun hp hrex hde => ?_⟩
  have hguard := drGuard_past_ud hrex hde
  constructor
  · intro hmay
    have hpriv : s.privileged = false := Bool.eq_false_iff.2 (mt (privileged_iff s).1 hmay)
    exact h.raises hp (by simp [hguard, hpriv])
  · intro hmay hgd
    have hpriv : s.privileged = true := (privileged_iff s).2 hmay
    exact h.raises hp (by simp [hguard, hpriv, hgd])

/-! ### Which register a number names -/

/-- DR4 and DR5 are DR6 and DR7, and every other number is its own register (R293, 10_state.md R49). -/
theorem drIndex_of_mem {d : DrNum} {r : DrReg}
    (h : (d, r) ∈ [(DrNum.dr0, DrReg.dr0), (.dr1, .dr1), (.dr2, .dr2), (.dr3, .dr3), (.dr4, .dr6), (.dr5, .dr7),
      (.dr6, .dr6), (.dr7, .dr7)]) : drIndex d = r := by
  have hgraph : (d, r) ∈ [DrNum.dr0, .dr1, .dr2, .dr3, .dr4, .dr5, .dr6, .dr7].map fun n => (n, drIndex n) := h
  obtain ⟨n, -, hn⟩ := List.mem_map.1 hgraph
  cases hn
  rfl

/-! ### Reading -/

/-- A row that reads a register which may be moved completes. -/
theorem completes_of_readDr {i : Instr} {s : State} {p : Pfx} {w : Width} {g : Gpr} {d : DrNum}
    (hp : p.locked = false) (hexec : exec i s = complete p (instrLength i) s (s.readDr p w g d)) (hd : DrAllowed s p d) :
    Completes i s fun t => ReadSystem s t (instrLength i) w g (s.dr.get (drIndex d)) :=
  ⟨_, hexec.trans (complete_ok hp (readDr_eq_ok.2 ⟨hd, rfl⟩)), writeReg_undefineFlags_readSystem ..⟩

/-- Settles O58: each row writes the debug register to the general register. -/
theorem readDr : Obligations.ReadDr := by
  unfold Obligations.ReadDr
  intro s p m g d r hr hp hd
  obtain rfl := drIndex_of_mem hr
  exact ⟨completes_of_readDr hp rfl hd, completes_of_readDr hp rfl hd⟩

/-! ### Writing -/

/-- Both rows are a write of the value, read at their own width. -/
theorem DrWriteOf.exec_eq {i : Instr} {s : State} {p : Pfx} {d : DrNum} {v : Word} (h : DrWriteOf i s p d v) :
    ∃ w g, s.readReg w false g = v ∧ exec i s = complete p (instrLength i) s (s.writeDr p w d g) := by
  obtain ⟨m, g, ⟨rfl, rfl⟩ | ⟨rfl, rfl⟩⟩ := h
  · exact ⟨.b32, g, regValue_readReg .., rfl⟩
  · exact ⟨.b64, g, regValue_readReg .., rfl⟩

/-- Past `drGuard` a write stops at the test of R301. -/
theorem writeDr_of_refused {s : State} {p : Pfx} {w : Width} {d : DrNum} {g : Gpr} (hd : DrAllowed s p d)
    (hbad : s.drRefused (drIndex d) (s.readReg w false g) = true) : s.writeDr p w d g = raise s .gp (.code 0) := by
  rw [State.writeDr, drGuard_eq_ok.2 ⟨hd, rfl⟩, bind_ok, if_pos hbad]

/-- `DrStored` is the identity where the parameter has no rule (R301; log 19). -/
theorem drStored_of_no_rule {q : Params} (h : q.drRules = []) (r : DrReg) (v : Word) : drStored q r v = v := by
  simp [drStored, h]

/-- A debug-register write that leaves the flags undefined, and past the instruction: what it changed and what it did
not. -/
theorem setDr_undefineFlags_wroteDr (s : State) (len : Nat) (r : DrReg) (v : Word) :
    WroteDr s ((({ s with dr := s.dr.set r v } : State).undefineFlags).advance len) len r v where
  value := Drs.get_set_same _ _ _
  others := fun _ hq => Drs.get_set_other _ _ hq
  gpr := rfl
  pc := rfl
  fixed := ⟨rfl, rfl, rfl, rfl, rfl, rfl, rfl, rfl⟩
  control := ⟨rfl, rfl, rfl, rfl⟩
  segments := ⟨rfl, rfl⟩
  memory := ⟨fun _ => rfl, rfl⟩

/-- Settles O59: `writeDr` past the tests of `drGuard`, by the test of R301. -/
theorem writeDr : Obligations.WriteDr := by
  unfold Obligations.WriteDr
  intro i s p d r v hr h hp hd
  obtain rfl := drIndex_of_mem hr
  obtain ⟨w, g, rfl, hexec⟩ := h.exec_eq
  constructor
  · intro hlong h67 hbig
    have hbad := drRefused_iff.2 ⟨hlong, h67, hbig⟩
    exact hexec.trans (complete_fault hp (writeDr_of_refused hd hbad))
  · intro hgood
    have haccepted : s.drRefused (drIndex d) (s.readReg w false g) = false := by
      rw [Bool.eq_false_iff, Ne, drRefused_iff]
      rintro ⟨hlong, h67, hbig⟩
      obtain hmode | ⟨h6, h7⟩ | hsmall := hgood
      · exact hmode hlong
      · exact h67.elim h6 h7
      · exact hbig.not_gt hsmall
    have hwrote := setDr_undefineFlags_wroteDr s (instrLength i) (drIndex d)
      (drStored s.params (drIndex d) (s.readReg w false g))
    exact ⟨_, hexec.trans (complete_ok hp (writeDr_eq_ok.2 ⟨hd, haccepted, rfl⟩)), hwrote, fun hnone =>
      hwrote.value.trans (drStored_of_no_rule hnone _ _)⟩

end Sys2Proof.Machine
end

section
/-! PROOFS. Events at an instruction boundary (60_exceptions.md R334, R335; 41_mov_sreg.md R215): which offer is delivered, and
what the step makes of it. -/

namespace Sys2Proof.Machine

section
variable {s : State} {rest : List (Option Event)} {k : DebugKind}

/-! ### Which offer is delivered -/

theorem delivered_interrupt (ho : s.offers = some .interrupt :: rest) (hi : s.inhibit = false) :
    s.delivered = some (.interrupted s.pc) := by
  simp [State.delivered, ho, hi]

theorem delivered_interrupt_inhibited (ho : s.offers = some .interrupt :: rest) (hi : s.inhibit = true) :
    s.delivered = none := by
  simp [State.delivered, ho, hi]

theorem delivered_debug (ho : s.offers = some (.debug k) :: rest)
    (hk : s.inhibit = false ∨ k ∉ s.params.debugSuppressed) : s.delivered = some (.debugEvent k s.pc) := by
  obtain hi | hk := hk
  · simp [State.delivered, ho, hi]
  · simp [State.delivered, ho, hk]

theorem delivered_debug_suppressed (ho : s.offers = some (.debug k) :: rest) (hi : s.inhibit = true)
    (hk : k ∈ s.params.debugSuppressed) : s.delivered = none := by
  simp [State.delivered, ho, hi, hk]

/-! ### The step at the boundary -/

/-- A delivered event ends the run before anything is fetched (60_exceptions.md R334). -/
theorem step_of_delivered {f : Fault} (hm : s.modeChanged = false) (hd : s.delivered = some f) : step s = .fault f := by
  simp [step, hm, hd]

/-- `enter` drops the head of the offers, so past the boundary no trace of it is left. -/
theorem enter_withdraw {o : Option Event} (ho : s.offers = o :: rest) :
    ({ s with offers := none :: rest } : State).enter = s.enter := by
  simp [State.enter, ho]

/-- An offer that is not delivered has no effect on the step: withdrawn, it gives the same one (60_exceptions.md R335). -/
theorem step_withdraw {o : Option Event} (ho : s.offers = o :: rest) (hd : s.delivered = none) :
    step s = step { s with offers := none :: rest } := by
  have hwithdrawn : ({ s with offers := none :: rest } : State).delivered = none := rfl
  simp only [step, hd, hwithdrawn, enter_withdraw ho]

end

/-- Settles O7: each clause says whether the offer is delivered, and so whether it ends the run or has no effect. -/
theorem boundaryEvents : Obligations.BoundaryEvents := by
  unfold Obligations.BoundaryEvents
  intro s rest hrun
  refine ⟨fun ho hi => ?_, fun k ho hk => ?_, fun ho hi => ?_, fun k ho hi hk => ?_⟩
  · exact step_of_delivered hrun (delivered_interrupt ho hi)
  · exact step_of_delivered hrun (delivered_debug ho hk)
  · exact step_withdraw ho (delivered_interrupt_inhibited ho hi)
  · exact step_withdraw ho (delivered_debug_suppressed ho hi hk)

end Sys2Proof.Machine
end

section
/-! PROOFS. Every step keeps what R361 asks of the machine, part by part of the state, and the state after reset has it
(70_reset_and_hazards.md R361; 10_state.md R20, R37 to R51; 20_memory.md R91, R98; 42_mov_cr.md R252 to R262). -/

namespace Sys2Proof.Machine

/-! ### The invariant, part by part

Each part speaks of one part of the state, so that an instruction that does not write it keeps it. -/

/-- Memory and the addresses noted as written. -/
structure MemoryOk (s : State) : Prop where
  wf : Memory.wf s.mem = true
  owned : ∀ a, (memGet s.mem a).isSome = true → s.owns a = true
  sorted : s.stored.Pairwise (· < ·)
  written : ∀ a ∈ s.stored, (memGet s.mem a).isSome = true

/-- The general registers: what is absent without `HAS_INTEL64` holds 0 (10_state.md R20). -/
def GprsOk (q : Params) (x : Gprs) : Prop :=
  q.hasIntel64 = false → ∀ r : Gpr, (r.hi = true → x.get r = 0#64) ∧ (x.get r).extractLsb' 32 32 = 0#32

/-- What a control register holds, whatever the mode (10_state.md R40 to R45, 42_mov_cr.md R252). -/
def CrValueOk (q : Params) (r : CrReg) (v : Word) : Prop :=
  (q.hasIntel64 = false → v.extractLsb' 32 32 = 0#32) ∧
  match r with
  | .cr0 =>
    v &&& q.cr0Reserved = 0#64 ∧ (q.cr0EtSticky = true → cr0ET v = true) ∧ (cr0PG v = true → cr0PE v = true) ∧
      (cr0NW v = true → cr0CD v = true)
  | .cr2 => True
  | .cr3 => v &&& cr3Mask q = 0#64
  | .cr4 => v &&& q.cr4Reserved = 0#64
  | .cr8 => v &&& q.cr8Reserved = 0#64 ∧ (q.hasIntel64 = false → v = 0#64)

/-- Debug registers whose bits 63:32 stay clear: DR6 and DR7, and all without `HAS_INTEL64` (10_state.md R48 to R51). -/
def DrHighClear (q : Params) (r : DrReg) : Prop := q.hasIntel64 = false ∨ r = .dr6 ∨ r = .dr7

/-- The debug registers. -/
def DrsOk (q : Params) (x : Drs) : Prop := ∀ r, DrHighClear q r → (x.get r).extractLsb' 32 32 = 0#32

/-- The control registers in agreement with `Mode` and with the end of the run (42_mov_cr.md R252, R256, R262). -/
structure PagingOk (s : State) : Prop where
  pcide : cr4PCIDE s.cr.cr4 = true → s.ia32e = true
  pae : s.ia32e = true → cr4PAE s.cr.cr4 = true
  paging : s.ia32e = true → cr0PG s.cr.cr0 = true ∨ s.modeChanged = true
  pagingLong : s.mode = .long64 → cr0PG s.cr.cr0 = true
  protection : s.modeChanged = false → (s.mode = .real ↔ cr0PE s.cr.cr0 = false)

/-- `Mode` in agreement with CPL, CS and the parameters (10_state.md R37, R38). -/
structure ModeOk (s : State) : Prop where
  codeLong : s.mode = .long64 → s.seg.cs.hid.attr.l = true
  codeCompat : s.mode = .compat → s.seg.cs.hid.attr.l = false
  cplReal : s.mode = .real → s.cpl = 0#2
  cplV86 : s.mode = .v86 → s.cpl = 3#2
  intel64 : s.ia32e = true → s.params.hasIntel64 = true

/-- The parts are the invariant. -/
theorem inv_iff {s : State} :
    Inv s ↔ paramsWf s.params = true ∧ MemoryOk s ∧ GprsOk s.params s.gpr ∧
      (∀ r, CrValueOk s.params r (s.cr.get r)) ∧ DrsOk s.params s.dr ∧ PagingOk s ∧ ModeOk s := by
  constructor
  · intro h
    refine ⟨h.params, ⟨h.mem, h.memOwned, h.stored, h.storedWritten⟩,
      fun hi r => ⟨h.highAbsent hi r, h.gprNarrow hi r⟩, fun r => ⟨fun hi => h.crNarrow hi r, ?_⟩, fun r hr => ?_,
      { h with }, { h with }⟩
    · cases r with
      | cr0 => exact ⟨h.cr0Reserved, h.cr0Et, h.cr0Paging, h.cr0Cache⟩
      | cr2 => trivial
      | cr3 => exact h.cr3Reserved
      | cr4 => exact h.cr4Reserved
      | cr8 => exact ⟨h.cr8Reserved, h.cr8Absent⟩
    · obtain hi | rfl | rfl := hr
      · exact h.drNarrow hi r
      · exact h.dr6
      · exact h.dr7
  · rintro ⟨hparams, hmem, hgpr, hcr, hdr, hpaging, hmode⟩
    obtain ⟨-, hreserved, het, hpg, hnw⟩ := hcr .cr0
    obtain ⟨-, h8, habsent⟩ := hcr .cr8
    exact {
      hpaging, hmode with
      params := hparams
      mem := hmem.wf
      memOwned := hmem.owned
      stored := hmem.sorted
      storedWritten := hmem.written
      cr0Reserved := hreserved
      cr0Et := het
      cr0Paging := hpg
      cr0Cache := hnw
      cr3Reserved := (hcr .cr3).2
      cr4Reserved := (hcr .cr4).2
      cr8Reserved := h8
      cr8Absent := habsent
      highAbsent := fun hi r => (hgpr hi r).1
      gprNarrow := fun hi r => (hgpr hi r).2
      crNarrow := fun hi r => (hcr r).1 hi
      drNarrow := fun hi r => hdr r (.inl hi)
      dr6 := hdr .dr6 (.inr (.inl rfl))
      dr7 := hdr .dr7 (.inr (.inr rfl)) }

/-- The parameters that the spec admits, condition by condition. -/
theorem paramsWf_iff {q : Params} :
    paramsWf q = true ↔
      q.cr0Reserved &&& 0xE0000001#64 = 0#64 ∧ (q.cr0EtSticky = true → q.cr0Reserved.getLsbD 4 = false) ∧
      (∀ x ∈ q.drRules, DrHighClear q x.reg → x.set.extractLsb' 32 32 = 0#32) ∧
      (1 ≤ q.vaBits ∧ q.vaBits ≤ 64) ∧ (q.hasIntel64 = true → q.sregUpperZero = true ∧ q.hasCr4 = true) := by
  cases he : q.cr0EtSticky <;> cases hi : q.hasIntel64 <;>
    simp [paramsWf, DrHighClear, he, hi, and_assoc, or_iff_not_imp_left]

/-! ### Bits 63:32 of a word -/

theorem extract_extract {n k m : Nat} (v : Word) (j : Nat) (h : k + m ≤ n) :
    (v.extractLsb' j n).extractLsb' k m = v.extractLsb' (j + k) m := by
  apply BitVec.eq_of_getLsbD_eq
  intro i hi
  simp only [BitVec.getLsbD_extractLsb', hi, show k + i < n by omega, decide_true, Bool.true_and, Nat.add_assoc]

theorem and_highHalf {v : Word} (m : Word) (h : v.extractLsb' 32 32 = 0#32) : (v &&& m).extractLsb' 32 32 = 0#32 := by
  rw [BitVec.extractLsb'_and, h, BitVec.zero_and]

theorem or_highHalf {u v : Word} (hu : u.extractLsb' 32 32 = 0#32) (hv : v.extractLsb' 32 32 = 0#32) :
    (u ||| v).extractLsb' 32 32 = 0#32 := by
  rw [BitVec.extractLsb'_or, hu, hv, BitVec.or_zero]

theorem setWidth_highHalf {n : Nat} (hn : n ≤ 32) (x : BitVec n) : (x.setWidth 64).extractLsb' 32 32 = 0#32 := by
  apply BitVec.eq_of_getLsbD_eq
  intro k hk
  rw [BitVec.getLsbD_extractLsb', BitVec.getLsbD_setWidth, BitVec.getLsbD_of_ge x _ (by omega)]
  simp

/-- A register of at most 32 bits reads zero-extended (10_state.md R22 to R24). -/
theorem readReg_highHalf (s : State) {w : Width} (x : Bool) (r : Gpr) (hw : w ≠ .b64) :
    (s.readReg w x r).extractLsb' 32 32 = 0#32 := by
  cases w with
  | b8 | b16 | b32 => exact setWidth_highHalf (by decide) _
  | b64 => exact absurd rfl hw

/-! ### Memory -/

/-- A store to bytes that exist. -/
theorem MemoryOk.store {s : State} {pas : List Nat} {bs : List Byte} (h : MemoryOk s) (ho : ∀ a ∈ pas, s.owns a = true)
    (hl : pas.length ≤ bs.length) : MemoryOk (s.store pas bs) where
  wf := memSetAll_wf h.wf
  owned a ha := by
    rw [owns_congr (State.store_owned ..)]
    by_cases hin : a ∈ pas
    · exact ho a hin
    · rw [State.store_mem, memGet_memSetAll_outside hin] at ha
      exact h.owned a ha
  sorted := addAddrs_sorted pas h.sorted
  written a ha := memGet_memSetAll_isSome hl ((mem_addAddrs.1 ha).symm.imp id (h.written a))

/-- Setting the Accessed bit of a descriptor that was found (10_state.md R59). -/
theorem MemoryOk.setAccessed {s : State} {sel : Half} {d : Word} {pas : List Nat} (h : MemoryOk s)
    (hfound : s.descLookup sel = .ok (.found d pas)) : MemoryOk (s.setAccessed d pas) := by
  obtain ⟨hlength, ho⟩ := descLookup_found hfound
  have hbyte : s.owns (pas.getD 5 0) = true := by
    rw [List.getD_eq_getElem _ _ (by omega)]
    exact ho _ (List.getElem_mem _)
  unfold State.setAccessed
  split
  · exact h
  · exact h.store (by simpa using hbyte) (by simp)

theorem loadSreg_memoryOk {s u : State} {r : Sreg} {sel : Half} (h : s.loadSreg r sel = .ok u) (hs : MemoryOk s) :
    MemoryOk u := by
  obtain ⟨-, rfl⟩ | ⟨-, rfl⟩ | ⟨-, -, -, rfl⟩ | ⟨-, -, hd⟩ := loadSreg_eq_ok.1 h
  · exact { hs with }
  · exact { hs with }
  · exact { hs with }
  · obtain ⟨d, pas, hfound, -, -, -, rfl⟩ := loadDescriptor_eq_ok.1 hd
    exact { hs.setAccessed hfound with }

/-- Only stores and loads from a descriptor write memory, at addresses that exist. -/
theorem Effect.memoryOk {i : Instr} {s u : State} (h : Effect i s u) (hs : MemoryOk s) : MemoryOk u := by
  cases h with
  | stored d pas v hm hl hd ha hp => exact hs.store (physBytes_owned hp) (by rw [leBytes_length, physBytes_length hp])
  | loaded r sel u hm hsr hr hl hu => exact loadSreg_memoryOk hu hs
  | wroteCr w g r u hm hp hc hn h8 hu =>
    rw [writeCrReg_touches hu]
    exact { hs with }
  | wroteReg | readSystem | wroteDr => exact { hs with }

/-! ### General registers -/

theorem highByteOwner_hi {x : Bool} {r o : Gpr} (h : highByteOwner x r = some o) : o.hi = false := by
  cases x with
  | true => cases h
  | false => cases r <;> cases h <;> rfl

/-- A write of a register of a width sets one register, and not one of 8 to 15 unless it names one; where it has less than
64 bits, bits 63:32 are drawn at 32 bits and stay at fewer (10_state.md R22 to R25). -/
theorem regsAfter_eq_set (s : State) (w : Width) (x : Bool) (r : Gpr) (v : Word) :
    ∃ q u, s.regsAfter w x r v = s.gpr.set q u ∧ (r.hi = false → q.hi = false) ∧
      (w ≠ .b64 → u.extractLsb' 32 32 = s.upper32 ∨ u.extractLsb' 32 32 = (s.gpr.get q).extractLsb' 32 32) := by
  cases w with
  | b8 =>
    simp only [State.regsAfter, Gprs.set8]
    cases ho : highByteOwner x r with
    | some o =>
      refine ⟨o, _, rfl, fun _ => highByteOwner_hi ho, fun _ => .inr ?_⟩
      exact (extract_append_high (n := 8) (j := 24) _ _).trans
        ((extract_append_high (n := 8) (j := 16) _ _).trans (extract_extract _ 16 (by decide)))
    | none =>
      refine ⟨r, _, rfl, id, fun _ => .inr ?_⟩
      exact (extract_append_high (n := 8) (j := 24) _ _).trans (extract_extract _ 8 (by decide))
  | b16 =>
    refine ⟨r, _, rfl, id, fun _ => .inr ?_⟩
    exact (extract_append_high (n := 16) (j := 16) _ _).trans (extract_extract _ 16 (by decide))
  | b32 =>
    refine ⟨r, _, rfl, id, fun _ => .inl ?_⟩
    exact (extract_append_high (n := 32) (j := 0) _ _).trans BitVec.extractLsb'_eq_self
  | b64 => exact ⟨r, v, rfl, id, fun hw => absurd rfl hw⟩

/-- Without `HAS_INTEL64` a write of at most 32 bits to one of registers 0 to 7 leaves what is absent 0. -/
theorem GprsOk.regsAfter {s : State} {w : Width} {r : Gpr} (x : Bool) (v : Word) (h : GprsOk s.params s.gpr)
    (hn : s.params.hasIntel64 = false → w ≠ .b64 ∧ r.hi = false) : GprsOk s.params (s.regsAfter w x r v) := by
  intro hi g
  obtain ⟨hw, hr⟩ := hn hi
  obtain ⟨q, u, hset, hq, hu⟩ := regsAfter_eq_set s w x r v
  rw [hset]
  by_cases hg : g = q
  · subst hg
    rw [Gprs.get_set_same]
    have hupper : s.upper32 = 0#32 := by simp [State.upper32, State.upperDrawn, hi]
    refine ⟨fun hhi => ?_, ?_⟩
    · simp [hq hr] at hhi
    · exact (hu hw).elim (·.trans hupper) (·.trans (h hi g).2)
  · rw [Gprs.get_set_other _ _ hg]
    exact h hi g

/-- Only rows that write a general register change one. -/
theorem Effect.gprsOk {i : Instr} {s u : State} (h : Effect i s u) (hwf : i.wf s.env = true)
    (hlong : s.params.hasIntel64 = false → s.long64 = false) (hs : GprsOk s.params s.gpr) : GprsOk s.params u.gpr := by
  cases h with
  | wroteReg w x r v n hm hl hn => exact hs.regsAfter x v fun hi => hn s.env hwf (hlong hi)
  | readSystem w g v hm hp hn => exact hs.regsAfter false v fun hi => hn s.env hwf (hlong hi)
  | stored | wroteDr => exact hs
  | loaded r sel u hm hsr hr hl hu => rwa [(loadSreg_gpr_dr hu).1]
  | wroteCr w g r u hm hp hc hn h8 hu =>
    rw [writeCrReg_touches hu]
    exact hs

/-! ### Debug registers -/

/-- What a write of a debug register leaves of a value whose bits 63:32 are clear (43_mov_dr.md R301; log 19). -/
theorem drStored_highHalf {q : Params} {r : DrReg} {v : Word} (hq : paramsWf q = true) (hr : DrHighClear q r)
    (hv : v.extractLsb' 32 32 = 0#32) : (drStored q r v).extractLsb' 32 32 = 0#32 := by
  obtain ⟨-, -, hrules, -⟩ := paramsWf_iff.1 hq
  unfold drStored
  split
  · exact hv
  · next x hx =>
    have hreg : x.reg = r := by
      have hmatch := List.find?_some hx
      simp only [Bool.and_eq_true, beq_iff_eq] at hmatch
      exact hmatch.1
    exact or_highHalf (and_highHalf _ hv) (hrules x (List.mem_of_find?_eq_some hx) (hreg ▸ hr))

/-- A value that a write of DR6 or DR7 takes has bits 63:32 clear: in LONG64 mode others are refused (43_mov_dr.md R301). -/
theorem drValue_highHalf {s : State} {w : Width} {g : Gpr} {r : DrReg} (hr : DrHighClear s.params r)
    (hlong : s.params.hasIntel64 = false → s.long64 = false) (hn : s.long64 = false → w ≠ .b64)
    (haccepted : s.drRefused r (s.readReg w false g) = false) :
    (s.readReg w false g).extractLsb' 32 32 = 0#32 := by
  cases hm : s.long64 with
  | false => exact readReg_highHalf s false g (hn hm)
  | true =>
    have h67 : r = .dr6 ∨ r = .dr7 := hr.resolve_left fun hi => by simp [hlong hi] at hm
    have h67' : (r == .dr6 || r == .dr7) = true := by simpa using h67
    simpa [State.drRefused, hm, h67'] using haccepted

/-- Only a move to a debug register changes one. -/
theorem Effect.drsOk {i : Instr} {s u : State} (h : Effect i s u) (hwf : i.wf s.env = true)
    (hq : paramsWf s.params = true) (hlong : s.params.hasIntel64 = false → s.long64 = false)
    (hs : DrsOk s.params s.dr) : DrsOk s.params u.dr := by
  cases h with
  | wroteDr w g p d hm hp hw haccepted hn =>
    intro r hr
    simp only [State.undefineFlags_dr, Drs.get_set]
    split
    · next heq =>
      subst heq
      exact drStored_highHalf hq hr (drValue_highHalf hr hlong (fun hm => (hn s.env hwf hm).1) haccepted)
    · exact hs r hr
  | loaded r sel u hm hsr hr hl hu => rwa [(loadSreg_gpr_dr hu).2]
  | wroteCr w g r u hm hp hc hn h8 hu =>
    rw [writeCrReg_touches hu]
    exact hs
  | wroteReg | stored | readSystem => exact hs

/-! ### Control registers -/

/-- The bits of CR0 that a write may refuse or that end the run are stored as given: none is reserved (10_state.md R41). -/
theorem cr0Stored_named {q : Params} {v : Word} {k : Nat} (hq : paramsWf q = true)
    (hk : k = 0 ∨ k = 29 ∨ k = 30 ∨ k = 31) : (cr0Stored q v).getLsbD k = v.getLsbD k := by
  obtain ⟨hnamed, -⟩ := paramsWf_iff.1 hq
  have hmask : (0xE0000001#64).getLsbD k = true := by obtain rfl | rfl | rfl | rfl := hk <;> rfl
  have hfree : q.cr0Reserved.getLsbD k = false := by
    have hbit := congrArg (BitVec.getLsbD · k) hnamed
    simpa [BitVec.getLsbD_and, hmask] using hbit
  have hne : (k == 4) = false := by rw [beq_eq_false_iff_ne]; omega
  rw [cr0Stored_getLsbD q v (by omega), hfree, hne]
  simp

/-- No reserved bit of CR0 is stored (10_state.md R41, 42_mov_cr.md R253). -/
theorem cr0Stored_reserved {q : Params} (v : Word) (hq : paramsWf q = true) : cr0Stored q v &&& q.cr0Reserved = 0#64 := by
  obtain ⟨-, het, -⟩ := paramsWf_iff.1 hq
  apply BitVec.eq_of_getLsbD_eq
  intro k hk
  rw [BitVec.getLsbD_and, cr0Stored_getLsbD q v hk, BitVec.getLsbD_zero]
  cases hres : q.cr0Reserved.getLsbD k with
  | false => exact Bool.and_false _
  | true =>
    have hsticky : (q.cr0EtSticky && k == 4) = false := by
      rw [Bool.and_eq_false_imp]
      intro hs
      rw [beq_eq_false_iff_ne]
      rintro rfl
      exact absurd hres (by rw [het hs]; decide)
    simp [hsticky]

/-- What a write of CR0 stores of a value it does not refuse (42_mov_cr.md R252, R253). -/
theorem cr0Stored_valueOk {s : State} {v : Word} (hq : paramsWf s.params = true) (hgood : ¬ Cr0Bad s v)
    (hv : s.params.hasIntel64 = false → v.extractLsb' 32 32 = 0#32) :
    CrValueOk s.params .cr0 (cr0Stored s.params v) := by
  refine ⟨fun hi => ?_, ?_, fun hsticky => ?_, fun hpg => ?_, fun hnw => ?_⟩
  · unfold cr0Stored
    dsimp only
    split
    · exact or_highHalf (and_highHalf _ (hv hi)) rfl
    · exact and_highHalf _ (hv hi)
  · exact cr0Stored_reserved v hq
  · rw [cr0ET, cr0Stored_getLsbD _ _ (by decide), hsticky]
    rfl
  · rw [cr0PG, cr0Stored_named hq (by decide)] at hpg
    rw [cr0PE, cr0Stored_named hq (by decide)]
    by_contra hpe
    exact hgood (.inl ⟨hpg, by simpa using hpe⟩)
  · rw [cr0NW, cr0Stored_named hq (by decide)] at hnw
    rw [cr0CD, cr0Stored_named hq (by decide)]
    by_contra hcd
    exact hgood (.inr (.inl ⟨by simpa using hcd, hnw⟩))

/-- What a write of a control register leaves there (42_mov_cr.md R252 to R257). -/
theorem writeCrReg_valueOk {s u : State} {r : CrReg} {v : Word} (hq : paramsWf s.params = true) (hmay : MayMoveSystem s)
    (hv : s.params.hasIntel64 = false → v.extractLsb' 32 32 = 0#32 ∧ r ≠ .cr8) (h : s.writeCrReg r v = .ok u) :
    CrValueOk s.params r (u.cr.get r) := by
  cases r with
  | cr0 =>
    obtain ⟨hgood, hvalue, -⟩ := writeCr0_eq_ok h
    rw [Crs.get, hvalue]
    exact cr0Stored_valueOk hq hgood fun hi => (hv hi).1
  | cr2 =>
    cases h
    exact ⟨fun hi => (hv hi).1, trivial⟩
  | cr3 =>
    obtain ⟨-, hvalue, -⟩ := writeCr3_eq_ok h
    rw [Crs.get, hvalue]
    have hclear : v &&& ~~~cr3Mask s.params &&& cr3Mask s.params = 0#64 := by
      rw [BitVec.and_assoc, BitVec.not_and_self]
      exact BitVec.and_zero
    exact ⟨fun hi => and_highHalf _ (hv hi).1, hclear⟩
  | cr4 =>
    obtain ⟨haccepted, hvalue, -⟩ := writeCr4_eq_ok h
    rw [Crs.get, hvalue]
    refine ⟨fun hi => (hv hi).1, ?_⟩
    rw [Bool.eq_false_iff, Ne, cr4Refused_iff hmay.ne_v86] at haccepted
    exact not_not.1 fun hbad => haccepted (.inl hbad)
  | cr8 =>
    obtain ⟨hreserved, hvalue⟩ := writeCr8_eq_ok h
    rw [Crs.get, hvalue]
    exact ⟨fun hi => (hv hi).1, hreserved, fun hi => absurd rfl (hv hi).2⟩

/-- Only a move to a control register changes one. -/
theorem Effect.crValueOk {i : Instr} {s u : State} (h : Effect i s u) (hwf : i.wf s.env = true)
    (hq : paramsWf s.params = true) (hlong : s.params.hasIntel64 = false → s.long64 = false)
    (hs : ∀ r, CrValueOk s.params r (s.cr.get r)) (q : CrReg) : CrValueOk s.params q (u.cr.get q) := by
  cases h with
  | wroteCr w g r u hm hp hc hn h8 hu =>
    rw [State.undefineFlags_cr]
    by_cases hqr : q = r
    · subst hqr
      refine writeCrReg_valueOk hq hp (fun hi => ⟨readReg_highHalf s false g (hn s.env hwf (hlong hi)).1, ?_⟩) hu
      rintro rfl
      exact absurd (h8 rfl s.env hwf) (by simp [State.env, hlong hi])
    · rw [writeCrReg_touches hu, Crs.get_set_other _ _ hqr]
      exact hs q
  | loaded r sel u hm hsr hr hl hu =>
    rw [(loadSreg_keeps hu).2.cr]
    exact hs q
  | wroteReg | stored | readSystem | wroteDr => exact hs q

/-! ### Paging and the mode -/

theorem State.ia32e_iff (s : State) : s.ia32e = true ↔ s.mode = .compat ∨ s.mode = .long64 := by
  simp [State.ia32e]

theorem PagingOk.congr {s t : State} (hcr : t.cr = s.cr) (hmode : t.mode = s.mode) (hrun : t.modeChanged = s.modeChanged)
    (h : PagingOk s) : PagingOk t := by
  have hia : t.ia32e = s.ia32e := by rw [State.ia32e, State.ia32e, hmode]
  constructor
  · rw [hcr, hia]; exact h.pcide
  · rw [hcr, hia]; exact h.pae
  · rw [hcr, hia, hrun]; exact h.paging
  · rw [hcr, hmode]; exact h.pagingLong
  · rw [hcr, hmode, hrun]; exact h.protection

/-- CR0 changes only by a write of CR0 that is not refused. -/
theorem writeCrReg_cr0 {s u : State} {r : CrReg} {v : Word} (h : s.writeCrReg r v = .ok u) :
    u.cr.cr0 = s.cr.cr0 ∨ (¬ Cr0Bad s v ∧ u.cr.cr0 = cr0Stored s.params v) := by
  cases r with
  | cr0 =>
    obtain ⟨hgood, hvalue, -⟩ := writeCr0_eq_ok h
    exact .inr ⟨hgood, hvalue⟩
  | cr2 | cr3 | cr4 | cr8 => exact .inl (by rw [writeCrReg_touches h]; rfl)

/-- CR4 changes only by a write of CR4 that is not refused. -/
theorem writeCrReg_cr4 {s u : State} {r : CrReg} {v : Word} (hmay : MayMoveSystem s) (h : s.writeCrReg r v = .ok u) :
    u.cr.cr4 = s.cr.cr4 ∨ (¬ Cr4Bad s v ∧ u.cr.cr4 = v) := by
  cases r with
  | cr4 =>
    obtain ⟨haccepted, hvalue, -⟩ := writeCr4_eq_ok h
    exact .inr ⟨by rw [← cr4Refused_iff hmay.ne_v86, haccepted]; decide, hvalue⟩
  | cr0 | cr2 | cr3 | cr8 => exact .inl (by rw [writeCrReg_touches h]; rfl)

/-- CR4.PCIDE and CR4.PAE stay in agreement with the mode: a write of CR4 sets PCIDE only in IA-32e mode, and does not
clear PAE there (42_mov_cr.md R256). -/
theorem writeCrReg_pcide_pae {s u : State} {r : CrReg} {v : Word} (hmay : MayMoveSystem s)
    (h : s.writeCrReg r v = .ok u) (hs : PagingOk s) :
    (cr4PCIDE u.cr.cr4 = true → s.ia32e = true) ∧ (s.ia32e = true → cr4PAE u.cr.cr4 = true) := by
  obtain hsame | ⟨hgood, hvalue⟩ := writeCrReg_cr4 hmay h
  · rw [hsame]
    exact ⟨hs.pcide, hs.pae⟩
  · rw [hvalue, State.ia32e_iff]
    simp only [Cr4Bad, not_or] at hgood
    obtain ⟨-, hprot, hia, -⟩ := hgood
    refine ⟨fun hpcide => ?_, fun hmode => ?_⟩
    · have hv86 := hmay.ne_v86
      cases hm : s.mode with
      | real => exact absurd ⟨.inl hm, hpcide⟩ hprot
      | prot => exact absurd ⟨.inr hm, hpcide⟩ hprot
      | v86 => exact absurd hm hv86
      | compat => exact .inl rfl
      | long64 => exact .inr rfl
    · by_contra hpae
      exact hia ⟨hmode, .inr ⟨hs.pae ((State.ia32e_iff s).2 hmode), eq_false_of_ne_true hpae⟩⟩

/-- In LONG64 mode no write clears CR0.PG (42_mov_cr.md R252). -/
theorem writeCrReg_pagingLong {s u : State} {r : CrReg} {v : Word} (hq : paramsWf s.params = true)
    (h : s.writeCrReg r v = .ok u) (hs : PagingOk s) (hm : s.mode = .long64) : cr0PG u.cr.cr0 = true := by
  have hpg := hs.pagingLong hm
  obtain hsame | ⟨hgood, hvalue⟩ := writeCrReg_cr0 h
  · rwa [hsame]
  · rw [hvalue, cr0PG, cr0Stored_named hq (by decide)]
    by_contra hclear
    exact hgood (.inr (.inr (.inr (.inr (.inl ⟨hm, hpg, by simpa using hclear⟩)))))

/-- While the run goes on CR0.PE and CR0.PG have not changed; a write that changes one ends it (42_mov_cr.md R262). -/
theorem writeCrReg_pagingOk {s u : State} {r : CrReg} {v : Word} (hq : paramsWf s.params = true)
    (hmay : MayMoveSystem s) (hrun : s.modeChanged = false) (h : s.writeCrReg r v = .ok u) (hs : PagingOk s) :
    PagingOk u := by
  have hmode := (writeCrReg_fixedSame h).mode
  have hia : u.ia32e = s.ia32e := by rw [State.ia32e, State.ia32e, hmode]
  have hkept : u.modeChanged = false → cr0PE u.cr.cr0 = cr0PE s.cr.cr0 ∧ cr0PG u.cr.cr0 = cr0PG s.cr.cr0 := by
    intro hgoes
    have hsame : ¬ ModeBitsDiffer s u := by rw [← writeCrReg_modeChanged h hrun, hgoes]; decide
    simp only [ModeBitsDiffer, not_or, not_not] at hsame
    exact ⟨hsame.1, hsame.2.1⟩
  obtain ⟨hpcide, hpae⟩ := writeCrReg_pcide_pae hmay h hs
  constructor
  · rwa [hia]
  · rwa [hia]
  · intro hu
    cases hgoes : u.modeChanged with
    | true => exact .inr rfl
    | false =>
      have hpg := (hs.paging (hia ▸ hu)).resolve_right (by simp [hrun])
      exact .inl ((hkept hgoes).2.trans hpg)
  · exact fun hm => writeCrReg_pagingLong hq h hs (hmode ▸ hm)
  · intro hgoes
    rw [hmode, (hkept hgoes).1]
    exact hs.protection hrun

theorem Effect.pagingOk {i : Instr} {s u : State} (h : Effect i s u) (hq : paramsWf s.params = true)
    (hrun : s.modeChanged = false) (hs : PagingOk s) : PagingOk u := by
  cases h with
  | wroteCr w g r u hm hp hc hn h8 hu => exact { writeCrReg_pagingOk hq hp hrun hu hs with }
  | loaded r sel u hm hsr hr hl hu =>
    obtain ⟨hfixed, hcontrol⟩ := loadSreg_keeps hu
    exact hs.congr hcontrol.cr hfixed.mode hcontrol.modeChanged
  | wroteReg | stored | readSystem | wroteDr => exact { hs with }

/-- The mode, CPL, CS and the parameters are what no MOV writes. -/
theorem ModeOk.congr {s t : State} (hfixed : FixedSame s t) (hcs : t.seg.cs = s.seg.cs) (h : ModeOk s) : ModeOk t := by
  have hmode := hfixed.mode
  constructor
  · rw [hmode, hcs]; exact h.codeLong
  · rw [hmode, hcs]; exact h.codeCompat
  · rw [hmode, hfixed.cpl]; exact h.cplReal
  · rw [hmode, hfixed.cpl]; exact h.cplV86
  · rw [State.ia32e, hmode, hfixed.params]; exact h.intel64

/-- Without `HAS_INTEL64` the mode is not LONG64. -/
theorem ModeOk.long64_eq_false {s : State} (h : ModeOk s) (hi : s.params.hasIntel64 = false) : s.long64 = false := by
  rw [Bool.eq_false_iff]
  intro hl
  have hia := (State.ia32e_iff s).2 (.inr ((State.long64_iff s).1 hl))
  simp [h.intel64 hia] at hi

/-! ### Every step -/

theorem Inv.enter {s : State} (h : Inv s) : Inv s.enter := { h with }

theorem Inv.advance {s : State} (h : Inv s) (len : Nat) : Inv (s.advance len) := { h with }

/-- An instruction of the mode keeps the invariant, while the run goes on. -/
theorem Effect.inv {i : Instr} {s u : State} (h : Effect i s u) (hwf : i.wf s.env = true) (hrun : s.modeChanged = false)
    (hs : Inv s) : Inv u := by
  obtain ⟨hq, hmem, hgpr, hcr, hdr, hpaging, hmode⟩ := inv_iff.1 hs
  have hlong : s.params.hasIntel64 = false → s.long64 = false := hmode.long64_eq_false
  rw [inv_iff, h.fixedSame.params]
  exact ⟨hq, h.memoryOk hmem, h.gprsOk hwf hlong hgpr, h.crValueOk hwf hq hlong hcr, h.drsOk hwf hq hlong hdr,
    h.pagingOk hq hrun hpaging, hmode.congr h.fixedSame h.cs_eq⟩

/-- Settles O11: the instruction that the step runs is one of the mode, and its effect keeps each part of the invariant. -/
theorem stepKeepsInv : Obligations.StepKeepsInv := by
  unfold Obligations.StepKeepsInv
  intro s t hs h
  obtain ⟨hrun, -, i, hfetch, hexec⟩ := step_eq_next.1 h
  obtain ⟨⟨rest, hdecode⟩, -⟩ := fetchInstr_eq_ok.1 hfetch
  obtain ⟨hwf, -⟩ := encodeDecode _ _ _ _ hdecode
  obtain ⟨-, u, he, rfl⟩ := exec_effect hexec
  exact (he.inv hwf hrun hs.enter).advance _

/-! ### Reset -/

/-- The state after reset has 64-bit registers, nothing in memory, and REAL mode, so most of the invariant asks nothing. -/
theorem reset_inv : Inv State.reset := by
  have hcr : ∀ r, CrValueOk State.reset.params r (State.reset.cr.get r) := by
    intro r
    refine ⟨nofun, ?_⟩
    cases r with
    | cr0 => exact ⟨rfl, fun _ => rfl, nofun, fun _ => rfl⟩
    | cr2 => trivial
    | cr3 | cr4 => rfl
    | cr8 => exact ⟨rfl, nofun⟩
  have hdr : DrsOk State.reset.params State.reset.dr := by
    rintro r (hi | rfl | rfl)
    · cases hi
    · rfl
    · rfl
  have hpaging : PagingOk State.reset :=
    { pcide := nofun, pae := nofun, paging := nofun, pagingLong := nofun, protection := fun _ => by decide }
  have hmode : ModeOk State.reset :=
    { codeLong := nofun, codeCompat := nofun, cplReal := fun _ => rfl, cplV86 := nofun, intel64 := nofun }
  exact inv_iff.2 ⟨by decide, ⟨rfl, nofun, .nil, nofun⟩, nofun, hcr, hdr, hpaging, hmode⟩

/-- Settles O9: the invariant of reset, and the one value that DS, ES, FS, GS and SS hold. -/
theorem resetIsLaunchState : Obligations.ResetIsLaunchState := by
  unfold Obligations.ResetIsLaunchState
  refine ⟨⟨reset_inv, rfl, rfl⟩, fun r hr => ?_⟩
  have hreal : (State.reset.seg.get r).hid.kind = .real ∧
      (State.reset.seg.get r).hid.base = (State.reset.seg.get r).sel.setWidth 64 <<< 4 := by
    rw [reset_seg_of_ne_cs hr]
    exact ⟨rfl, rfl⟩
  exact hreal

end Sys2Proof.Machine
end
